-- ==== Sys2Proof/Word.lean ====
section
/-! DEFINITION. The word types of the block (`00_scope.md` R5, R8): a byte, and the opaque values the
core only passes on. Every other width is written `BitVec n` where it is used. -/

namespace Sys2Proof

/-- A byte of the stream, of a frame, of a request. -/
abbrev Byte := BitVec 8

/-- A value "the core never computes with" (`00_scope.md` R5 TIMEOUT_T, `20_memory.md` R42: the port
identifier and the baud rate). DESIGN CHOICE (log 9): a byte string, so that it can be written at the
command port and compared; no operation looks inside it. -/
abbrev OpaqueValue := List Byte

end Sys2Proof
end

