-- ==== Sys2Proof/Machine/Bytes.lean ====
section
/-! DEFINITION. Byte order: "Every multi-byte quantity on the stream is big-endian" (`20_memory.md` R47).
The request layout of the command port uses the same order (log 1). -/

namespace Sys2Proof

/-- The unsigned value of a byte string, most significant byte first. -/
def beNat : List Byte → Nat
  | [] => 0
  | b :: bs => b.toNat * 256 ^ bs.length + beNat bs

/-- The `n` low bytes of `v`, most significant byte first. -/
def beBytes : Nat → Nat → List Byte
  | 0, _ => []
  | n + 1, v => BitVec.ofNat 8 (v / 256 ^ n) :: beBytes n v

/-- The `n` low bytes of `w`, least significant byte first: the numbering of `opcode_table.json`'s bits
over the bytes of a request (bit 0 is the least significant bit of the first byte). -/
def leBytes : Nat → Nat → List Byte
  | 0, _ => []
  | n + 1, w => BitVec.ofNat 8 w :: leBytes n (w / 256)

end Sys2Proof
end

