-- ==== Sys2Proof/Config.lean ====
section
/-! DEFINITION. What an implementation fixes, and what nobody fixes: the open parameters of
`00_scope.md` R5, the vocabulary of the byte stream's answers (`20_memory.md` R42 to R45), and the free
answers of the environment. -/

namespace Sys2Proof

/-- `CRC_MISMATCH_POLICY`, OPEN (`00_scope.md` R5, `42_deframer_read.md` R159, D7): what a checksum
mismatch on a read does. -/
inductive MismatchPolicy where
  | fail
  | retry
deriving DecidableEq, Repr

/-- The parameters the spec leaves OPEN (`00_scope.md` R5). They are fixed for a machine: no step
writes them (log 8). -/
structure Params where
  /-- `CRC_MISMATCH_POLICY`. -/
  mismatchPolicy : MismatchPolicy
  /-- `MAX_FIELDS`; `none` is "a model may take it as unbounded" (D20). -/
  maxFields : Option Nat
deriving DecidableEq, Repr

/-- The answer to `StreamOpen` (`20_memory.md` R42). -/
inductive OpenAnswer where
  | handle
  | fail
deriving DecidableEq, Repr, Inhabited

/-- The answer to `StreamClear` (`20_memory.md` R45, D17). -/
inductive ClearAnswer where
  | ok
  | ioFail
deriving DecidableEq, Repr, Inhabited

/-- The answer to `MemWrite` (`20_memory.md` R43). On `ioFail` the environment also decides how many of
the bytes had been accepted (U8: "any prefix of the bytes, 0 to n", log 7). -/
inductive WriteAnswer where
  | ok
  | ioFail (accepted : Nat)
deriving DecidableEq, Repr, Inhabited

/-- What the environment has ready for a `MemRead` (`20_memory.md` R44). The core asks for 1, 2 or 4
bytes (R49), so four bytes are enough for every call: a read of `n` bytes delivers the first `n`,
`b0` received first (log 6). -/
inductive ReadAnswer where
  | bytes (b0 b1 b2 b3 : Byte)
  | timeout
  | ioFail
deriving DecidableEq, Repr, Inhabited

/-! The free answers: what the environment answers to the `k`-th call for which no queue of State holds
an answer. "Which answer comes, and which byte values, is decided by the environment: the model asks an
oracle, under no law" (`20_memory.md` R44, U12; log 5). They have no body, so nothing can be proved of
their values. -/

opaque Config.freeOpenAnswer : Nat → OpenAnswer
opaque Config.freeClearAnswer : Nat → ClearAnswer
opaque Config.freeWriteAnswer : Nat → WriteAnswer
opaque Config.freeReadAnswer : Nat → ReadAnswer

end Sys2Proof
end

