-- ==== Sys2Proof/Syntax.lean ====
section
/-! DEFINITION. The nine operations of `30_encoding.md` R80, with the operand fields of R81, and the
names under which the command port rejects bytes that spell none of them. -/

namespace Sys2Proof

/-- One request of the host: one constructor per row of `opcode_table.json`. -/
inductive Instr where
  /-- `0x0` CRC_CLEAR, format N (`40_crc.md` R103). -/
  | crcClear
  /-- `0x1` CRC_UPDATE b, format B (`40_crc.md` R104). -/
  | crcUpdate (b : Byte)
  /-- `0x2` CRC_GET, format N (`40_crc.md` R105). -/
  | crcGet
  /-- `0x3` FLD_ENC v, format V (`41_framer_write.md` R120). -/
  | fldEnc (v : BitVec 32)
  /-- `0x4` FLD_DEC w, bs, format D (`42_deframer_read.md` R150); `w` is "an unsigned integer of at least
  3 bits", 8 bits here (log 1). -/
  | fldDec (w : BitVec 8) (bs : List Byte)
  /-- `0x5` TX_WRITE a, c, vals, format TW (`41_framer_write.md` R123). -/
  | txWrite (a c : Byte) (vals : List (BitVec 32))
  /-- `0x6` TX_READ a, c, widths, format TR (`42_deframer_read.md` R152); a width is any number the host
  writes, legal or not (R154). -/
  | txRead (a c : Byte) (widths : List (BitVec 8))
  /-- `0x7` POS_RECON prev, delta, status, format P (`43_position.md` R180). -/
  | posRecon (prev : BitVec 64) (delta : BitVec 32) (status : Byte)
  /-- `0x8` ENG_INIT port, baud, timeout, address, retries, format I (`44_system.md` R195). -/
  | engInit (port baud timeout : OpaqueValue) (address : Byte) (retries : BitVec 8)
deriving DecidableEq, Repr

/-- Why bytes at the command port are no request. -/
inductive Reject where
  /-- Operation code `0x9` to `0xF` (`30_encoding.md` R82, U1). -/
  | reservedOp (op : BitVec 4)
  /-- The operation-select code is 4 bits; the byte that carries it has a bit set above them (log 1). -/
  | notAnOperation (b : Byte)
  /-- The bytes end inside a request (log 1). -/
  | truncated
  /-- A list element is announced by a byte other than "one more" and "end" (log 1). -/
  | badListMark (b : Byte)
deriving DecidableEq, Repr

end Sys2Proof
end

