-- ==== Sys2Proof/Machine/State.lean ====
section
/-! DEFINITION. Everything the spec gives the block to hold (`10_state.md` R10 to R15), the record the
spec asks a model to keep (R11, `20_memory.md` R43), and the inputs from outside: the host's requests and
the environment's answers. INVENTORY.md lists each field with its rule and its reset value. The block has
no memory (`20_memory.md` R40) and no program counter (R16). -/

namespace Sys2Proof.Machine

/-- Where the current attempt stands (`10_state.md` R14); `idle` is the time between operations (D3). -/
inductive Phase where
  | idle
  | reset
  | sendHeader
  | sendPayload
  | receiveFields
  | trailerExchange
  | retryOrFail
deriving DecidableEq, Repr

/-- `kind`: `W` or `R` (`10_state.md` R14). -/
inductive TxKind where
  | write
  | read
deriving DecidableEq, Repr

/-- `last_fail`: why the most recent attempt failed recoverably (`10_state.md` R14). -/
inductive LastFail where
  | none
  | timedOut
  | badAck
  | crcBad
deriving DecidableEq, Repr

/-- The conditions of `60_exceptions.md` R210. `invalidAck` is allocated and raised by no rule (R131). -/
inductive Condition where
  | success
  | timeout
  | crcMismatch
  | invalidValue
  | ioFailure
  | transportOpenFailure
  | invalidAck
deriving DecidableEq, Repr

/-- A field width "over {1, 2, 4}" (`10_state.md` R14, `00_scope.md` R5 FIELD_WIDTHS). -/
inductive FieldWidth where
  | one
  | two
  | four
deriving DecidableEq, Repr

/-- What `MemRead` answers to the core: exactly the bytes it asked for, or none (`20_memory.md` R44). -/
inductive ReadResult where
  | bytes (bs : List Byte)
  | timeout
  | ioFail
deriving DecidableEq, Repr

/-- One stream call with its answer: "A model records each call, with its bytes, in the event history"
(`20_memory.md` R43). -/
inductive StreamEvent where
  | opened (port baud timeout : OpaqueValue) (answer : OpenAnswer)
  | cleared (answer : ClearAnswer)
  | wrote (bytes : List Byte) (answer : WriteAnswer)
  | read (n : Nat) (result : ReadResult)
deriving DecidableEq, Repr

/-- The state of one engine, with its inputs. -/
structure State where
  /-- `crc` (R10). -/
  crc : BitVec 16
  /-- `cfg_address` (R13). -/
  cfgAddress : Byte
  /-- `cfg_retries` (R13): the total number of attempts. -/
  cfgRetries : BitVec 8
  /-- `cfg_timeout` (R13). -/
  cfgTimeout : OpaqueValue
  /-- `link_open` (R13). -/
  linkOpen : Bool
  /-- `phase` (R14). -/
  phase : Phase
  /-- `kind` (R14). -/
  kind : TxKind
  /-- `attempt` (R14): attempts started in the current transaction. -/
  attempt : BitVec 8
  /-- `fidx` (R14): the next value to send or field to receive. -/
  fidx : Nat
  /-- `last_fail` (R14). -/
  lastFail : LastFail
  /-- `op_addr` (R14). -/
  opAddr : Byte
  /-- `op_cmd` (R14). -/
  opCmd : Byte
  /-- `op_vals` (R14). -/
  opVals : List (BitVec 32)
  /-- `op_widths` (R14). -/
  opWidths : List FieldWidth
  /-- `fld` (R14): the fields decoded so far in the current read attempt. -/
  fld : List (BitVec 32)
  /-- `crc_pre` (R14). -/
  crcPre : BitVec 16
  /-- `res_code` (R15); `none` is the spec's "no value". -/
  resCode : Option Condition
  /-- `res_count` (R15). -/
  resCount : Option (BitVec 8)
  /-- `res_fld` (R15). -/
  resFld : Option (List (BitVec 32))
  /-- `res_val` (R15), "up to 64 bits"; a narrower result is zero-extended. -/
  resVal : Option (BitVec 64)
  /-- `res_bytes` (R15). -/
  resBytes : Option (List Byte)
  /-- `fed` (R11): the bytes given to `crc_step` since the last clear; read by no operation (log 13). -/
  fed : List Byte
  /-- The event history (`20_memory.md` R43), oldest first (log 13). -/
  history : List StreamEvent
  /-- The open parameters of this machine (`00_scope.md` R5); written by no step (log 8). -/
  params : Params
  /-- The bytes of the requests the host has issued and the block has not accepted (log 1, log 2). -/
  port : List Byte
  /-- The environment's answers to the next `StreamOpen` calls (log 5). -/
  openAnswers : List OpenAnswer
  /-- The environment's answers to the next `StreamClear` calls. -/
  clearAnswers : List ClearAnswer
  /-- The environment's answers to the next `MemWrite` calls. -/
  writeAnswers : List WriteAnswer
  /-- The environment's answers to the next `MemRead` calls. -/
  readAnswers : List ReadAnswer
  /-- How many free answers have been drawn (log 5). -/
  freeIdx : Nat
deriving DecidableEq, Repr

/-- The block never stops with a fault: "the engine never panics", and every failure is a condition in
`res_code` (`60_exceptions.md` R210, R217; `93_implementation_defined.md`: "No behaviour of this block is
treated as `stuck`"). The type has no constructor, so no step can raise one. -/
inductive Fault
deriving DecidableEq, Repr

/-- A request to which the spec gives no meaning ("refuse": the model gives the input no meaning). -/
inductive Refusal where
  /-- Raised by `exec` for an instruction without a meaning; no arm raises it now. Safe. -/
  | notModelled (mnemonic : String)
  /-- Raised by the fetch for bytes that spell no operation: a reserved code (`30_encoding.md` R82, U1)
  or bytes that are no request of the port's layout (log 1). Safe. -/
  | badRequest (why : Reject)
  /-- Raised by every meaning when `phase ≠ Idle` (`10_state.md` R17, U6). Safe. -/
  | portNotReady
  /-- Raised by TX_WRITE and TX_READ when `link_open = 0` (`44_system.md` R197, U7). Safe. -/
  | linkNotOpen
  /-- Raised by ENG_INIT when `link_open = 1` (`44_system.md` R198, U7). Safe. -/
  | linkAlreadyOpen
  /-- Raised by ENG_INIT with `retries = 0` (`44_system.md` R198, U4). Safe. -/
  | zeroRetries
  /-- Raised by FLD_DEC when `bs` is not `w` bytes long (`42_deframer_read.md` R150, U11). Safe. -/
  | malformedFieldBytes
  /-- Raised by TX_WRITE and TX_READ for a list longer than `MAX_FIELDS` (U13). Safe. -/
  | tooManyFields
deriving DecidableEq, Repr

/-- The block right after hardware reset (`10_state.md` R23, `70_reset_and_hazards.md` R250): `crc =
0x0000`, `phase = Idle`, `link_open = 0`, no result register with a value. The configuration and
sequencer registers, to which R23 gives no value, hold zeros (DESIGN CHOICE, log 3); the parameters are
`Fail` and unbounded (log 8); nothing has been requested, called or answered. -/
def State.reset : State where
  crc := 0x0000#16
  cfgAddress := 0#8
  cfgRetries := 0#8
  cfgTimeout := []
  linkOpen := false
  phase := .idle
  kind := .write
  attempt := 0#8
  fidx := 0
  lastFail := .none
  opAddr := 0#8
  opCmd := 0#8
  opVals := []
  opWidths := []
  fld := []
  crcPre := 0#16
  resCode := none
  resCount := none
  resFld := none
  resVal := none
  resBytes := none
  fed := []
  history := []
  params := { mismatchPolicy := .fail, maxFields := none }
  port := []
  openAnswers := []
  clearAnswers := []
  writeAnswers := []
  readAnswers := []
  freeIdx := 0

end Sys2Proof.Machine
end

