-- ==== Sys2Proof/Machine/Operands.lean ====
section
/-! DEFINITION. The operand forms: width selection, field encoding and decoding, the trailer, and the
legal field widths (`30_encoding.md` R75 to R78, R82). -/

namespace Sys2Proof.Machine

/-- `width_of` (R75): the width the value's magnitude selects. -/
def widthOf (v : BitVec 32) : Nat :=
  if v.toNat ≤ 255 then 1 else if v.toNat ≤ 65535 then 2 else 4

/-- `enc_be` (R76): one field as sent, most significant byte first. -/
def encBe (v : BitVec 32) : List Byte :=
  if widthOf v = 1 then [v.extractLsb' 0 8]
  else if widthOf v = 2 then [v.extractLsb' 8 8, v.extractLsb' 0 8]
  else [v.extractLsb' 24 8, v.extractLsb' 16 8, v.extractLsb' 8 8, v.extractLsb' 0 8]

/-- `dec_be` (R77): one field as received, zero-extended to 32 bits. -/
def decBe (bs : List Byte) : BitVec 32 := BitVec.ofNat 32 (beNat bs)

/-- The trailer as sent (R78): `[T[15:8], T[7:0]]`. -/
def trailerBytes (t : BitVec 16) : List Byte := [t.extractLsb' 8 8, t.extractLsb' 0 8]

/-- The transmitted checksum (R78): `{t0, t1}` of the two trailer bytes in arrival order. -/
def trailerValue (bs : List Byte) : BitVec 16 := BitVec.ofNat 16 (beNat bs)

/-- The number of bytes of a field width. -/
def FieldWidth.size : FieldWidth → Nat
  | .one => 1
  | .two => 2
  | .four => 4

/-- The legal widths are 1, 2 and 4 (R82; `42_deframer_read.md` R151, R154). -/
def legalWidth (w : BitVec 8) : Option FieldWidth :=
  if w = 1#8 then some .one else if w = 2#8 then some .two else if w = 4#8 then some .four else none

/-- The check of TX_READ "on the whole list" (`42_deframer_read.md` R154): the widths, if all are legal. -/
def legalWidths : List (BitVec 8) → Option (List FieldWidth)
  | [] => some []
  | w :: ws =>
    match legalWidth w, legalWidths ws with
    | some f, some fs => some (f :: fs)
    | _, _ => none

/-- Whether a list of values or widths is within `MAX_FIELDS` (`00_scope.md` R5, U13). -/
def Params.admits (p : Params) (n : Nat) : Bool :=
  match p.maxFields with
  | none => true
  | some m => decide (n ≤ m)

end Sys2Proof.Machine
end

