-- ==== Sys2Proof/Machine/Ops.lean ====
section
/-! DEFINITION. The shared operations: the checksum (`40_crc.md` R100, R101), the stream primitives
(`20_memory.md` R42 to R45), accepting an operation (`10_state.md` R15, R17), and ending one with a
condition (`60_exceptions.md` R217), which is what an exception is on this block. -/

namespace Sys2Proof.Machine

/-- What an operation answers. -/
abbrev Result := Host.Outcome State Fault Refusal

/-! ## The checksum -/

/-- `CRC_POLY` (`00_scope.md` R5). -/
def crcPoly : BitVec 16 := 0x1021#16

/-- `CRC_INIT` (`00_scope.md` R5). -/
def crcInit : BitVec 16 := 0x0000#16

/-- One iteration of R100: shift left, and feed the polynomial back where the top bit was set. -/
def crcShift (r : BitVec 16) : BitVec 16 :=
  if r.getLsbD 15 then (r <<< 1) ^^^ crcPoly else r <<< 1

/-- `n` iterations of R100. -/
def crcShifts : Nat → BitVec 16 → BitVec 16
  | 0, r => r
  | n + 1, r => crcShifts n (crcShift r)

/-- `crc_step` (R100): `{b, 0x00}` into the register, then eight iterations. -/
def crcStep (c : BitVec 16) (b : Byte) : BitVec 16 := crcShifts 8 (c ^^^ (b ++ 0x00#8))

/-- `crc_bytes` (R101): `crc_step` over a list, first element first. -/
def crcBytes (c : BitVec 16) (bs : List Byte) : BitVec 16 := bs.foldl crcStep c

/-- Feed bytes to the accumulator, in order (`10_state.md` R11). -/
def State.feed (s : State) (bs : List Byte) : State :=
  { s with crc := crcBytes s.crc bs, fed := s.fed ++ bs }

/-- Clear the accumulator (`40_crc.md` R103, `41_framer_write.md` R126). -/
def State.clearCrc (s : State) : State := { s with crc := crcInit, fed := [] }

/-- Sample the register before a received trailer is fed (`42_deframer_read.md` R158). -/
def State.sampleCrc (s : State) : State := { s with crcPre := s.crc }

/-! ## The sequencer's registers -/

/-- `phase <- p` (`00_scope.md` R7). -/
def State.goto (s : State) (p : Phase) : State := { s with phase := p }

/-- One more attempt started (`41_framer_write.md` R126). -/
def State.countAttempt (s : State) : State := { s with attempt := s.attempt + 1#8 }

/-- No field sent or received yet (`41_framer_write.md` R126). -/
def State.restartFields (s : State) : State := { s with fidx := 0, fld := [] }

/-- One more field sent (`41_framer_write.md` R128). -/
def State.advanceField (s : State) : State := { s with fidx := s.fidx + 1 }

/-- One more field received and decoded (`42_deframer_read.md` R157). -/
def State.storeField (s : State) (v : BitVec 32) : State :=
  { s with fld := s.fld ++ [v], fidx := s.fidx + 1 }

/-! ## The stream primitives

Each primitive is two functions: the answer the next call gets, and the state after the call, in which the
answer is used up and the call with its answer stands at the end of the history. -/

/-- The answer of the next `StreamOpen` (`20_memory.md` R42). -/
def State.openAnswer (s : State) : OpenAnswer :=
  match s.openAnswers with
  | a :: _ => a
  | [] => Config.freeOpenAnswer s.freeIdx

/-- After `StreamOpen(port, baud, timeout)`. -/
def State.afterOpen (s : State) (port baud timeout : OpaqueValue) : State :=
  { s with
    openAnswers := s.openAnswers.tail
    freeIdx := if s.openAnswers.isEmpty then s.freeIdx + 1 else s.freeIdx
    history := s.history ++ [.opened port baud timeout s.openAnswer] }

/-- The answer of the next `StreamClear` (`20_memory.md` R45). -/
def State.clearAnswer (s : State) : ClearAnswer :=
  match s.clearAnswers with
  | a :: _ => a
  | [] => Config.freeClearAnswer s.freeIdx

/-- After `StreamClear()`. -/
def State.afterClear (s : State) : State :=
  { s with
    clearAnswers := s.clearAnswers.tail
    freeIdx := if s.clearAnswers.isEmpty then s.freeIdx + 1 else s.freeIdx
    history := s.history ++ [.cleared s.clearAnswer] }

/-- The answer of the next `MemWrite` (`20_memory.md` R43). -/
def State.writeAnswer (s : State) : WriteAnswer :=
  match s.writeAnswers with
  | a :: _ => a
  | [] => Config.freeWriteAnswer s.freeIdx

/-- After `MemWrite(TX, len(bytes), bytes)`. -/
def State.afterWrite (s : State) (bytes : List Byte) : State :=
  { s with
    writeAnswers := s.writeAnswers.tail
    freeIdx := if s.writeAnswers.isEmpty then s.freeIdx + 1 else s.freeIdx
    history := s.history ++ [.wrote bytes s.writeAnswer] }

/-- What a read of `n` bytes delivers of an answer of the environment (`20_memory.md` R44, R49). -/
def ReadAnswer.deliver (n : Nat) : ReadAnswer → ReadResult
  | .bytes b0 b1 b2 b3 => .bytes ([b0, b1, b2, b3].take n)
  | .timeout => .timeout
  | .ioFail => .ioFail

/-- The answer of the next `MemRead(RX, n)` (`20_memory.md` R44). -/
def State.readResult (s : State) (n : Nat) : ReadResult :=
  match s.readAnswers with
  | a :: _ => ReadAnswer.deliver n a
  | [] => ReadAnswer.deliver n (Config.freeReadAnswer s.freeIdx)

/-- After `MemRead(RX, n)`. -/
def State.afterRead (s : State) (n : Nat) : State :=
  { s with
    readAnswers := s.readAnswers.tail
    freeIdx := if s.readAnswers.isEmpty then s.freeIdx + 1 else s.freeIdx
    history := s.history ++ [.read n (s.readResult n)] }

/-- The bytes of one event that the stream accepted: all of them on `ok`, some prefix on `io_fail`
(`20_memory.md` R43, U8). -/
def StreamEvent.sent : StreamEvent → List Byte
  | .wrote bytes .ok => bytes
  | .wrote bytes (.ioFail accepted) => bytes.take accepted
  | .opened _ _ _ _ => []
  | .cleared _ => []
  | .read _ _ => []

/-- TX (`20_memory.md` R40): the bytes the stream has accepted from the core, in order. -/
def sentBytes (events : List StreamEvent) : List Byte := events.flatMap StreamEvent.sent

/-! ## Accepting an operation -/

/-- "Accepting an operation makes all five lose their value" (`10_state.md` R15). -/
def State.loseResults (s : State) : State :=
  { s with resCode := none, resCount := none, resFld := none, resVal := none, resBytes := none }

/-- An operation is accepted "only while `phase = Idle`" (`10_state.md` R17); a request made otherwise has
no meaning (U6). What the operation does follows on the state in which the results have lost their value. -/
def State.accept (s : State) (op : State → Result) : Result :=
  if s.phase = .idle then op s.loseResults else .refused .portNotReady

/-! ## Ending an operation: what an exception is on this block -/

/-- The numeric code of a condition (`60_exceptions.md` R210, D4). -/
def Condition.code : Condition → Nat
  | .success => 0
  | .timeout => 1
  | .crcMismatch => 2
  | .invalidValue => 3
  | .ioFailure => 4
  | .transportOpenFailure => 5
  | .invalidAck => 6

/-- `res_val` of an operation that has a scalar result (`10_state.md` R15). -/
def State.giveVal (s : State) (v : BitVec 64) : State := { s with resVal := some v }

/-- `res_bytes` of FLD_ENC (`10_state.md` R15). -/
def State.giveBytes (s : State) (bs : List Byte) : State := { s with resBytes := some bs }

/-- R217 for the operations that complete without leaving `Idle`: "only the first line applies". -/
def State.endOperation (s : State) (c : Condition) : State := { s with resCode := some c }

/-- R217 for TX_WRITE and TX_READ: the code, the retry count of a `Timeout`, the fields of a successful
read and the empty list otherwise, and back to `Idle`; "and nothing else". There is no return from it:
the next operation is accepted in `Idle` like any other (R221). -/
def State.endTransaction (s : State) (c : Condition) : State :=
  { s with
    resCode := some c
    resCount := if c = .timeout then some s.cfgRetries else none
    resFld := some (if s.kind = .read ∧ c = .success then s.fld else [])
    phase := .idle }

/-- A recoverable event (`60_exceptions.md` R212): the attempt is over, with its reason. -/
def State.failAttempt (s : State) (why : LastFail) : State :=
  { s with lastFail := why, phase := .retryOrFail }

/-! ## Hardware reset -/

/-- Hardware reset of a running block (`70_reset_and_hazards.md` R250): the registers take the values of
reset; "Hardware reset does not touch the byte stream". The requests at the port, the environment's
answers, the record of past calls and the parameters are no registers of the block. -/
def State.hardwareReset (s : State) : State :=
  { State.reset with
    history := s.history
    params := s.params
    port := s.port
    openAnswers := s.openAnswers
    clearAnswers := s.clearAnswers
    writeAnswers := s.writeAnswers
    readAnswers := s.readAnswers
    freeIdx := s.freeIdx }

end Sys2Proof.Machine
end

