-- ==== Sys2Proof/Machine/Crc.lean ====
section
/-! DEFINITION. The accumulator's operations (`40_crc.md` R103 to R105). -/

namespace Sys2Proof.Machine

/-- CRC_CLEAR (R103): `crc <- 0x0000`. -/
def execCrcClear (s : State) : Result :=
  s.accept fun s => .next (s.clearCrc.endOperation .success)

/-- CRC_UPDATE b (R104): `crc <- crc_step(crc, b)`. -/
def execCrcUpdate (b : Byte) (s : State) : Result :=
  s.accept fun s => .next ((s.feed [b]).endOperation .success)

/-- CRC_GET (R105): `res_val <- zext(crc)`. -/
def execCrcGet (s : State) : Result :=
  s.accept fun s => .next ((s.giveVal (s.crc.setWidth 64)).endOperation .success)

end Sys2Proof.Machine
end

