-- ==== Sys2Proof/Machine/Deframer.lean ====
section
/-! DEFINITION. The packet deframer: FLD_DEC, the acceptance of TX_READ and the two phases only a read
has (`42_deframer_read.md` R150, R151, R153, R154, R157 to R159). -/

namespace Sys2Proof.Machine

/-- FLD_DEC w, bs (R150): a request whose `bs` is not `w` bytes long is refused (U11, log 10); an illegal
width ends with `InvalidValue` (R151); otherwise `res_val <- dec_be(bs)`. -/
def execFldDec (w : BitVec 8) (bs : List Byte) (s : State) : Result :=
  s.accept fun s =>
    if bs.length ≠ w.toNat then .refused .malformedFieldBytes
    else
      match legalWidth w with
      | none => .next (s.endOperation .invalidValue)
      | some _ => .next ((s.giveVal ((decBe bs).setWidth 64)).endOperation .success)

/-- The step of R153: latch the operands, no attempt yet, go to `Reset`. -/
def State.beginRead (s : State) (a c : Byte) (widths : List FieldWidth) : State :=
  { s with
    kind := .read
    opAddr := a
    opCmd := c
    opWidths := widths
    attempt := 0#8
    lastFail := .none
    resFld := some []
    phase := .reset }

/-- TX_READ a, c, widths: acceptance (R153) after the width check on the whole list, whose failure ends
the operation with `InvalidValue` and "nothing else happens" (R154). It needs an open link (R197, U7) and,
where `MAX_FIELDS` is bounded, a list within it (U13, log 11). -/
def execTxRead (a c : Byte) (widths : List (BitVec 8)) (s : State) : Result :=
  s.accept fun s =>
    if !s.linkOpen then .refused .linkNotOpen
    else if !Params.admits s.params widths.length then .refused .tooManyFields
    else
      match legalWidths widths with
      | none => .next (s.endTransaction .invalidValue)
      | some ws => .next (s.beginRead a c ws)

/-- Phase `ReceiveFields` (R157): one field per step, read and then fed and decoded. -/
def State.receiveFields (s : State) : State :=
  match s.opWidths[s.fidx]? with
  | some w =>
    match s.readResult w.size with
    | .bytes bs => ((s.afterRead w.size).feed bs).storeField (decBe bs)
    | .timeout => (s.afterRead w.size).failAttempt .timedOut
    | .ioFail => (s.afterRead w.size).endTransaction .ioFailure
  | none => s.goto .trailerExchange

/-- Outcome of the comparison (R159): `received` against `crc_pre`. -/
def State.judgeTrailer (s : State) (received : BitVec 16) : State :=
  if received = s.crcPre then s.endTransaction .success
  else
    match s.params.mismatchPolicy with
    | .fail => s.endTransaction .crcMismatch
    | .retry => s.failAttempt .crcBad

/-- Phase `TrailerExchange` of a read (R158, R159): the checksum is sampled before the trailer is fed, and
the register absorbs the trailer (C1, D5). -/
def State.readTrailer (s : State) : State :=
  let s := s.sampleCrc
  match s.readResult 2 with
  | .bytes bs => ((s.afterRead 2).feed bs).judgeTrailer (trailerValue bs)
  | .timeout => (s.afterRead 2).failAttempt .timedOut
  | .ioFail => (s.afterRead 2).endTransaction .ioFailure

end Sys2Proof.Machine
end

