-- ==== Sys2Proof/Machine/Framer.lean ====
section
/-! DEFINITION. The packet framer: FLD_ENC, the acceptance of TX_WRITE and the two phases only a write
has (`41_framer_write.md` R120, R124, R128 to R131). The phases it shares with the read are in
`Machine/Sequencer.lean`. -/

namespace Sys2Proof.Machine

/-- FLD_ENC v (R120): `res_bytes <- enc_be(v)`. -/
def execFldEnc (v : BitVec 32) (s : State) : Result :=
  s.accept fun s => .next ((s.giveBytes (encBe v)).endOperation .success)

/-- The step of R124: latch the operands, no attempt yet, go to `Reset`. -/
def State.beginWrite (s : State) (a c : Byte) (vals : List (BitVec 32)) : State :=
  { s with
    kind := .write
    opAddr := a
    opCmd := c
    opVals := vals
    attempt := 0#8
    lastFail := .none
    resFld := some []
    phase := .reset }

/-- TX_WRITE a, c, vals: acceptance (R124). It needs an open link (R197, U7) and, where `MAX_FIELDS` is
bounded, a list within it (U13); nothing else is checked (R125). The sequencer then runs the attempts
(R126 to R132) in the steps that follow. -/
def execTxWrite (a c : Byte) (vals : List (BitVec 32)) (s : State) : Result :=
  s.accept fun s =>
    if !s.linkOpen then .refused .linkNotOpen
    else if !Params.admits s.params vals.length then .refused .tooManyFields
    else .next (s.beginWrite a c vals)

/-- Phase `SendPayload` (R128): one value per step, fed and then written. -/
def State.sendPayload (s : State) : State :=
  match s.opVals[s.fidx]? with
  | some v =>
    let s := s.feed (encBe v)
    match s.writeAnswer with
    | .ioFail _ => (s.afterWrite (encBe v)).endTransaction .ioFailure
    | .ok => (s.afterWrite (encBe v)).advanceField
  | none => s.goto .trailerExchange

/-- `ACK_BYTE` (`00_scope.md` R5). -/
def ackByte : Byte := 0xFF#8

/-- Phase `TrailerExchange` of a write, second half (R130, R131): one acknowledgement byte. -/
def State.readAck (s : State) : State :=
  match s.readResult 1 with
  | .bytes bs =>
    if bs = [ackByte] then (s.afterRead 1).endTransaction .success
    else (s.afterRead 1).failAttempt .badAck
  | .timeout => (s.afterRead 1).failAttempt .timedOut
  | .ioFail => (s.afterRead 1).endTransaction .ioFailure

/-- Phase `TrailerExchange` of a write (R129, R130): the trailer is sent and not fed (C6, D10), then the
acknowledgement is read. -/
def State.writeTrailer (s : State) : State :=
  match s.writeAnswer with
  | .ioFail _ => (s.afterWrite (trailerBytes s.crc)).endTransaction .ioFailure
  | .ok => (s.afterWrite (trailerBytes s.crc)).readAck

end Sys2Proof.Machine
end

