-- ==== Sys2Proof/Machine/Flags.lean ====
section
/-! DEFINITION. The two flag bits the block examines (`10_state.md` R19, `30_encoding.md` R83,
`43_position.md` R181): bits of the status operand of POS_RECON, stored nowhere. The block has no status
register and no operation writes a flag. -/

namespace Sys2Proof.Machine

/-- `UNDERFLOW_MASK` (`00_scope.md` R5; a named parameter, U10). -/
def underflowMask : Byte := 0x80#8

/-- `OVERFLOW_MASK` (`00_scope.md` R5; a named parameter, U10; the mask wins over the source's count, C5). -/
def overflowMask : Byte := 0x20#8

/-- The underflow flag of a status byte (R181). -/
def underflowFlag (status : Byte) : Bool := status &&& underflowMask != 0#8

/-- The overflow flag of a status byte (R181). -/
def overflowFlag (status : Byte) : Bool := status &&& overflowMask != 0#8

end Sys2Proof.Machine
end

