-- ==== Sys2Proof/Machine/Position.lean ====
section
/-! DEFINITION. The encoder position reconstructor (`43_position.md` R180 to R183). -/

namespace Sys2Proof.Machine

/-- `WRAP` (`00_scope.md` R5): 2^32, the adjustment applied per flag. -/
def wrapAdjust : BitVec 64 := 0x0000000100000000#64

/-- The function of R180, modulo 2^64 (R183, D11). -/
def posRecon (prev : BitVec 64) (delta : BitVec 32) (status : Byte) : BitVec 64 :=
  let r := prev + delta.signExtend 64
  let r := if overflowFlag status then r + wrapAdjust else r
  if underflowFlag status then r - wrapAdjust else r

/-- POS_RECON prev, delta, status (R180). -/
def execPosRecon (prev : BitVec 64) (delta : BitVec 32) (status : Byte) (s : State) : Result :=
  s.accept fun s => .next ((s.giveVal (posRecon prev delta status)).endOperation .success)

end Sys2Proof.Machine
end

