-- ==== Sys2Proof/Machine/System.lean ====
section
/-! DEFINITION. Construction and configuration (`44_system.md` R195 to R198). -/

namespace Sys2Proof.Machine

/-- The registers a successful ENG_INIT loads (R195). -/
def State.configure (s : State) (address : Byte) (retries : BitVec 8) (timeout : OpaqueValue) : State :=
  { s.clearCrc with cfgAddress := address, cfgRetries := retries, cfgTimeout := timeout, linkOpen := true }

/-- The state an accepted ENG_INIT leaves, by the answer of `StreamOpen` (R195, R196). -/
def State.initialise (s : State) (port baud timeout : OpaqueValue) (address : Byte) (retries : BitVec 8) :
    State :=
  match s.openAnswer with
  | .fail => (s.afterOpen port baud timeout).endOperation .transportOpenFailure
  | .handle => ((s.afterOpen port baud timeout).configure address retries timeout).endOperation .success

/-- ENG_INIT port, baud, timeout, address, retries (R195); a second one and `retries = 0` are refused
(R198, U7, U4). -/
def execEngInit (port baud timeout : OpaqueValue) (address : Byte) (retries : BitVec 8) (s : State) :
    Result :=
  s.accept fun s =>
    if s.linkOpen then .refused .linkAlreadyOpen
    else if retries = 0#8 then .refused .zeroRetries
    else .next (s.initialise port baud timeout address retries)

end Sys2Proof.Machine
end

