-- ==== Sys2Proof/Machine/Dispatch.lean ====
section
/-! DEFINITION. One arm per operation of `30_encoding.md` R80. -/

namespace Sys2Proof.Machine

/-- What the block does when it accepts an operation. -/
def exec (i : Instr) (s : State) : Host.Outcome State Fault Refusal :=
  match i with
  | .crcClear => Sys2Proof.Machine.execCrcClear s
  | .crcUpdate b => Sys2Proof.Machine.execCrcUpdate b s
  | .crcGet => Sys2Proof.Machine.execCrcGet s
  | .fldEnc v => Sys2Proof.Machine.execFldEnc v s
  | .fldDec w bs => Sys2Proof.Machine.execFldDec w bs s
  | .txWrite a c vals => Sys2Proof.Machine.execTxWrite a c vals s
  | .txRead a c widths => Sys2Proof.Machine.execTxRead a c widths s
  | .posRecon prev delta status => Sys2Proof.Machine.execPosRecon prev delta status s
  | .engInit port baud timeout address retries => Sys2Proof.Machine.execEngInit port baud timeout address retries s

end Sys2Proof.Machine
end

