-- ==== Sys2Proof/Decode.lean ====
section
/-! DEFINITION. From the bytes of a request to an operation, and back.

The operation-select code and its 4 bits are the spec's (`30_encoding.md` R80). "The spec fixes no bit
positions for the operand fields within a request word" (R81), so the rest of the layout is the model's
(DESIGN CHOICE, log 1): the first byte holds `op` in its bits 3:0 and zeros above; the operand fields
follow in the order of R81, each in its own width, most significant byte first; a list is its elements,
each after a byte `0x01`, and then a byte `0x00`; an opaque value is a list of bytes. No behaviour of an
operation depends on this layout. -/

namespace Sys2Proof

/-- The operation-select code (`30_encoding.md` R80). -/
def Instr.op : Instr → BitVec 4
  | .crcClear => 0x0#4
  | .crcUpdate _ => 0x1#4
  | .crcGet => 0x2#4
  | .fldEnc _ => 0x3#4
  | .fldDec _ _ => 0x4#4
  | .txWrite _ _ _ => 0x5#4
  | .txRead _ _ _ => 0x6#4
  | .posRecon _ _ _ => 0x7#4
  | .engInit _ _ _ _ _ => 0x8#4

/-- What a decoder of a part of a request answers: the part and the bytes after it, or why not. -/
abbrev Parsed (α : Type) := Except Reject (α × List Byte)

/-- One part of a request after another. -/
def Parsed.andThen {α β : Type} (p : Parsed α) (k : α → List Byte → Parsed β) : Parsed β :=
  match p with
  | .ok (a, left) => k a left
  | .error e => .error e

/-- A field of `n` bytes, as the number it spells. -/
def decodeField (n : Nat) (bs : List Byte) : Parsed Nat :=
  if n ≤ bs.length then .ok (beNat (bs.take n), bs.drop n) else .error .truncated

/-- A list of bytes, each announced by `0x01`, closed by `0x00`. -/
def decodeByteList : List Byte → Parsed (List Byte)
  | [] => .error .truncated
  | [m] => if m = 0x00#8 then .ok ([], []) else if m = 0x01#8 then .error .truncated else .error (.badListMark m)
  | m :: b :: rest =>
    if m = 0x00#8 then .ok ([], b :: rest)
    else if m = 0x01#8 then
      match decodeByteList rest with
      | .ok (bs, left) => .ok (b :: bs, left)
      | .error e => .error e
    else .error (.badListMark m)

/-- A list of 32-bit values, each announced by `0x01`, closed by `0x00`. -/
def decodeValueList : List Byte → Parsed (List (BitVec 32))
  | [] => .error .truncated
  | m :: rest =>
    if m = 0x00#8 then .ok ([], rest)
    else if m = 0x01#8 then
      match rest with
      | b3 :: b2 :: b1 :: b0 :: rest' =>
        match decodeValueList rest' with
        | .ok (vs, left) => .ok (BitVec.ofNat 32 (beNat [b3, b2, b1, b0]) :: vs, left)
        | .error e => .error e
      | _ => .error .truncated
    else .error (.badListMark m)

/-- Format B. -/
def decodeCrcUpdate (bs : List Byte) : Parsed Instr :=
  Parsed.andThen (decodeField 1 bs) fun b bs => .ok (.crcUpdate (BitVec.ofNat 8 b), bs)

/-- Format V. -/
def decodeFldEnc (bs : List Byte) : Parsed Instr :=
  Parsed.andThen (decodeField 4 bs) fun v bs => .ok (.fldEnc (BitVec.ofNat 32 v), bs)

/-- Format D. -/
def decodeFldDec (bs : List Byte) : Parsed Instr :=
  Parsed.andThen (decodeField 1 bs) fun w bs =>
  Parsed.andThen (decodeByteList bs) fun field bs =>
  .ok (.fldDec (BitVec.ofNat 8 w) field, bs)

/-- Format TW. -/
def decodeTxWrite (bs : List Byte) : Parsed Instr :=
  Parsed.andThen (decodeField 1 bs) fun a bs =>
  Parsed.andThen (decodeField 1 bs) fun c bs =>
  Parsed.andThen (decodeValueList bs) fun vals bs =>
  .ok (.txWrite (BitVec.ofNat 8 a) (BitVec.ofNat 8 c) vals, bs)

/-- Format TR. -/
def decodeTxRead (bs : List Byte) : Parsed Instr :=
  Parsed.andThen (decodeField 1 bs) fun a bs =>
  Parsed.andThen (decodeField 1 bs) fun c bs =>
  Parsed.andThen (decodeByteList bs) fun widths bs =>
  .ok (.txRead (BitVec.ofNat 8 a) (BitVec.ofNat 8 c) widths, bs)

/-- Format P. -/
def decodePosRecon (bs : List Byte) : Parsed Instr :=
  Parsed.andThen (decodeField 8 bs) fun prev bs =>
  Parsed.andThen (decodeField 4 bs) fun delta bs =>
  Parsed.andThen (decodeField 1 bs) fun status bs =>
  .ok (.posRecon (BitVec.ofNat 64 prev) (BitVec.ofNat 32 delta) (BitVec.ofNat 8 status), bs)

/-- Format I. -/
def decodeEngInit (bs : List Byte) : Parsed Instr :=
  Parsed.andThen (decodeByteList bs) fun port bs =>
  Parsed.andThen (decodeByteList bs) fun baud bs =>
  Parsed.andThen (decodeByteList bs) fun timeout bs =>
  Parsed.andThen (decodeField 1 bs) fun address bs =>
  Parsed.andThen (decodeField 1 bs) fun retries bs =>
  .ok (.engInit port baud timeout (BitVec.ofNat 8 address) (BitVec.ofNat 8 retries), bs)

/-- The operand fields, once the operation-select code is known (`30_encoding.md` R80, R82). -/
def decodeOperands (op : BitVec 4) (bs : List Byte) : Parsed Instr :=
  match op.toNat with
  | 0x0 => .ok (.crcClear, bs)
  | 0x1 => decodeCrcUpdate bs
  | 0x2 => .ok (.crcGet, bs)
  | 0x3 => decodeFldEnc bs
  | 0x4 => decodeFldDec bs
  | 0x5 => decodeTxWrite bs
  | 0x6 => decodeTxRead bs
  | 0x7 => decodePosRecon bs
  | 0x8 => decodeEngInit bs
  | _ => .error (.reservedOp op)

/-- The first request of a byte string and the bytes after it, or the name of what is wrong. -/
def decode : List Byte → Parsed Instr
  | [] => .error .truncated
  | b :: bs =>
    if b.extractLsb' 4 4 = 0#4 then decodeOperands (b.extractLsb' 0 4) bs
    else .error (.notAnOperation b)

/-! ## The encoder -/

/-- The bytes of a list of bytes. -/
def encodeByteList : List Byte → List Byte
  | [] => [0x00#8]
  | b :: bs => 0x01#8 :: b :: encodeByteList bs

/-- The bytes of a list of 32-bit values. -/
def encodeValueList : List (BitVec 32) → List Byte
  | [] => [0x00#8]
  | v :: vs => 0x01#8 :: (beBytes 4 v.toNat ++ encodeValueList vs)

/-- The operand fields of a request, in the order of `30_encoding.md` R81. -/
def encodeOperands : Instr → List Byte
  | .crcClear => []
  | .crcUpdate b => [b]
  | .crcGet => []
  | .fldEnc v => beBytes 4 v.toNat
  | .fldDec w bs => w :: encodeByteList bs
  | .txWrite a c vals => a :: c :: encodeValueList vals
  | .txRead a c widths => a :: c :: encodeByteList widths
  | .posRecon prev delta status => beBytes 8 prev.toNat ++ (beBytes 4 delta.toNat ++ [status])
  | .engInit port baud timeout address retries =>
    encodeByteList port ++ (encodeByteList baud ++ (encodeByteList timeout ++ [address, retries]))

/-- The bytes of a request. -/
def encode (i : Instr) : List Byte := i.op.setWidth 8 :: encodeOperands i

/-! ## The host's view of a word of `opcode_table.json` -/

/-- Zero bytes enough for the operand fields of every format that a table word leaves open. -/
def operandPad : Nat := 16

/-- The bytes of an instruction whose table bits are `w`: `nbits` bits in whole bytes, the first byte
lowest, and every later bit 0. -/
def tableWordBytes (nbits w : Nat) : List Byte :=
  leBytes ((nbits + 7) / 8) w ++ List.replicate operandPad 0x00#8

/-- The instruction the decoder reads from a word of the opcode table. -/
def decodeTableWord (nbits w : Nat) : Option Instr :=
  match decode (tableWordBytes nbits w) with
  | .ok (i, _) => some i
  | .error _ => none

/-- The bytes of exactly that one request, without the padding after it. -/
def tableWordRequest (nbits w : Nat) : List Byte :=
  match decode (tableWordBytes nbits w) with
  | .ok (_, left) => (tableWordBytes nbits w).take ((tableWordBytes nbits w).length - left.length)
  | .error _ => tableWordBytes nbits w

end Sys2Proof
end

