-- ==== Sys2Proof/Machine/Port.lean ====
section
/-! DEFINITION. The command port: what the block finds there when it is ready for an operation
(`10_state.md` R16, R17). It takes the place of an instruction fetch, which the block does not have
(`20_memory.md` R57); log 2. -/

namespace Sys2Proof.Machine

/-- What stands at the command port. -/
inductive PortRead where
  /-- The host has issued no request. -/
  | empty
  /-- A request, and the state without its bytes at the port. -/
  | request (i : Instr) (s : State)
  /-- Bytes that spell no request. -/
  | unreadable (why : Reject)
deriving DecidableEq, Repr

/-- The request at the head of the port. -/
def State.readPort (s : State) : PortRead :=
  match s.port with
  | [] => .empty
  | b :: bs =>
    match decode (b :: bs) with
    | .ok (i, left) => .request i { s with port := left }
    | .error why => .unreadable why

/-- The port holding exactly one request, and the block ready for it (log 2). -/
def State.withRequest (s : State) (bytes : List Byte) : State := { s with port := bytes, phase := .idle }

end Sys2Proof.Machine
end

