-- ==== Sys2Proof/Machine/Sequencer.lean ====
section
/-! DEFINITION. The sequencer of the Transaction Engine: the phases both transactions share
(`41_framer_write.md` R126, R127; `42_deframer_read.md` R155, R156; `60_exceptions.md` R219) and one step
of it by phase (R220). -/

namespace Sys2Proof.Machine

/-- Phase `Reset` (R126): count the attempt, discard buffered input, clear the accumulator. -/
def State.resetAttempt (s : State) : State :=
  let s := s.countAttempt
  match s.clearAnswer with
  | .ioFail => s.afterClear.endTransaction .ioFailure
  | .ok => s.afterClear.clearCrc.restartFields.goto .sendHeader

/-- The phase after the header (R127). -/
def TxKind.bodyPhase : TxKind → Phase
  | .write => .sendPayload
  | .read => .receiveFields

/-- Phase `SendHeader` (R127): feed address and command, then write them. -/
def State.sendHeader (s : State) : State :=
  let s := s.feed [s.opAddr, s.opCmd]
  match s.writeAnswer with
  | .ioFail _ => (s.afterWrite [s.opAddr, s.opCmd]).endTransaction .ioFailure
  | .ok => (s.afterWrite [s.opAddr, s.opCmd]).goto (TxKind.bodyPhase s.kind)

/-- Phase `RetryOrFail` (R219): the next attempt, or the condition that the last failure chooses. -/
def State.retryOrFail (s : State) : State :=
  if s.attempt < s.cfgRetries then s.goto .reset
  else if s.kind = .read ∧ s.lastFail = .crcBad then s.endTransaction .crcMismatch
  else s.endTransaction .timeout

/-- Phase `TrailerExchange`, by the kind of transaction. -/
def State.trailerExchange (s : State) : State :=
  match s.kind with
  | .write => s.writeTrailer
  | .read => s.readTrailer

/-- One step of the sequencer (R220). In `Idle` there is none. -/
def State.sequence (s : State) : State :=
  match s.phase with
  | .idle => s
  | .reset => s.resetAttempt
  | .sendHeader => s.sendHeader
  | .sendPayload => s.sendPayload
  | .receiveFields => s.receiveFields
  | .trailerExchange => s.trailerExchange
  | .retryOrFail => s.retryOrFail

end Sys2Proof.Machine
end

