-- ==== Sys2Proof/Machine/Step.lean ====
section
/-! DEFINITION. One step of the machine. Between operations (`phase = Idle`) the block takes the request at
the head of the command port; with none there it waits. During a transaction the sequencer takes its next
step and the port is not ready (`10_state.md` R17). -/

namespace Sys2Proof.Machine

/-- One step. -/
def step (s : State) : Host.Outcome State Fault Refusal :=
  if s.phase = .idle then
    match s.readPort with
    | .empty => .next s
    | .request i s' => exec i s'
    | .unreadable why => .refused (.badRequest why)
  else .next s.sequence

/-- `s` with the one instruction of a word of `opcode_table.json` as the next request: the block is in
`Idle`, the only phase in which a request is taken, and the port holds that request (log 2). -/
def State.withFetchWord (s : State) (nbits w : Nat) : State := s.withRequest (tableWordRequest nbits w)

end Sys2Proof.Machine
end

