-- ==== Sys2Proof/Machine/Frame.lean ====
section
/-! DEFINITION. The wire frames as functions (`41_framer_write.md` R121, `42_deframer_read.md` R163). -/

namespace Sys2Proof.Machine

/-- The body of a write frame (R121): address, command, and the fields with no padding (R71). -/
def frameBody (a c : Byte) (vals : List (BitVec 32)) : List Byte := a :: c :: vals.flatMap encBe

/-- `frame_write` (R121): the body and the trailer that covers it. -/
def frameWrite (a c : Byte) (vals : List (BitVec 32)) : List Byte :=
  frameBody a c vals ++ trailerBytes (crcBytes crcInit (frameBody a c vals))

/-- The bytes of a read request (`30_encoding.md` R73): two, with no payload and no trailer. -/
def readRequest (a c : Byte) : List Byte := [a, c]

/-- `resp_valid` (R163): the trailer equals the checksum of the request bytes and the field bytes. -/
def respValid (a c : Byte) (fields : List (List Byte)) (trailer : List Byte) : Prop :=
  trailerValue trailer = crcBytes crcInit (readRequest a c ++ fields.flatten)

/-- `resp_fields` (R163). -/
def respFields (fields : List (List Byte)) : List (BitVec 32) := fields.map decBe

end Sys2Proof.Machine
end

