-- ==== Sys2Proof/Machine/Pseudo.lean ====
section
/-! DEFINITION. The pseudo-operations of `30_encoding.md` R85: what the host expands them to. -/

namespace Sys2Proof.Machine

/-- READ_UNIFORM a, c, n, w: `TX_READ a, c, [w, w, ..., w]` with `n` copies of `w`. -/
def readUniform (a c : Byte) (n : Nat) (w : BitVec 8) : List Instr := [.txRead a c (List.replicate n w)]

/-- READ_ENCODER a, c, prev, first request: `TX_READ a, c, [4, 1]`. -/
def readEncoderRequest (a c : Byte) : Instr := .txRead a c [4#8, 1#8]

/-- READ_ENCODER a, c, prev, second request, from the state the first one left: on `Success`,
`POS_RECON prev, res_fld[0], res_fld[1][7:0]`. -/
def readEncoderFollowUp (prev : BitVec 64) (s : State) : Option Instr :=
  match s.resCode, s.resFld with
  | some .success, some [delta, status] => some (.posRecon prev delta (status.extractLsb' 0 8))
  | _, _ => none

/-- CRC_OF bs: `CRC_CLEAR`, one `CRC_UPDATE b` per byte, `CRC_GET`. -/
def crcOf (bs : List Byte) : List Instr := .crcClear :: (bs.map .crcUpdate ++ [.crcGet])

end Sys2Proof.Machine
end

