-- ==== Sys2Proof/Safety.lean ====
section
/-! DEFINITION. The vocabulary of the claims: which states are legal, runs of the sequencer, and what the
event history of a transaction looks like (`41_framer_write.md` R134, `42_deframer_read.md` R162). -/

namespace Sys2Proof.Machine

/-! ## Legal states

Each part says what the rules make true of every state a run from reset can reach. -/

/-- "retry count (small unsigned integer ≥ 1)" once the engine is configured (`10_state.md` R13). -/
abbrev State.ConfigLegal (s : State) : Prop := s.linkOpen = true → s.cfgRetries ≠ 0#8

/-- During a transaction the link is open, attempts are numbered 1 to `cfg_retries`, and a Reset step is
due only where another attempt may start (`60_exceptions.md` R219; `41_framer_write.md` R124, R126). -/
abbrev State.AttemptLegal (s : State) : Prop :=
  s.phase ≠ .idle →
    s.linkOpen = true ∧ s.attempt.toNat ≤ s.cfgRetries.toNat ∧
    (s.phase = .reset → s.attempt.toNat < s.cfgRetries.toNat) ∧
    (s.phase ≠ .reset → 0 < s.attempt.toNat)

/-- The phases that belong to one kind of transaction, and how far its list has been worked off
(`41_framer_write.md` R127, R128; `42_deframer_read.md` R157). -/
abbrev State.ProgressLegal (s : State) : Prop :=
  (s.phase = .sendHeader → s.fidx = 0 ∧ s.fld = []) ∧
  (s.phase = .sendPayload → s.kind = .write ∧ s.fidx ≤ s.opVals.length) ∧
  (s.phase = .receiveFields →
    s.kind = .read ∧ s.fidx ≤ s.opWidths.length ∧ s.fld.length = s.fidx) ∧
  (s.phase = .trailerExchange → s.kind = .write → s.fidx = s.opVals.length) ∧
  (s.phase = .trailerExchange → s.kind = .read →
    s.fidx = s.opWidths.length ∧ s.fld.length = s.fidx)

/-- `RetryOrFail` "is entered ... with `last_fail` set", to a reason its kind of transaction and the
policy allow (`60_exceptions.md` R212, R219). -/
abbrev State.FailureLegal (s : State) : Prop :=
  s.phase = .retryOrFail →
    s.lastFail ≠ .none ∧
    (s.lastFail = .badAck → s.kind = .write) ∧
    (s.lastFail = .crcBad → s.kind = .read ∧ s.params.mismatchPolicy = .retry)

/-- The result registers (`10_state.md` R15, `60_exceptions.md` R217): during a transaction only `res_fld`
has a value, the empty list; a retry count stands exactly beside `Timeout`; fields stand only beside
`Success`; and `InvalidAck` is raised by no rule (R131). -/
abbrev State.ResultsLegal (s : State) : Prop :=
  (s.phase ≠ .idle →
    s.resCode = none ∧ s.resFld = some [] ∧ s.resVal = none ∧ s.resBytes = none) ∧
  (s.resCode = some .timeout → s.resCount = some s.cfgRetries) ∧
  (s.resCode ≠ some .timeout → s.resCount = none) ∧
  (s.resCode ≠ some .success → s.resFld = none ∨ s.resFld = some []) ∧
  s.resCode ≠ some .invalidAck

/-- The bytes of a field of width `w` whose decoded value is `v` (`30_encoding.md` R77 read backwards). -/
def fieldBytes (w : FieldWidth) (v : BitVec 32) : List Byte := beBytes w.size v.toNat

/-- The bytes of the fields received so far. -/
def State.receivedBytes (s : State) : List Byte := (List.zipWith fieldBytes s.opWidths s.fld).flatten

/-- The invariant of `crc`: it "represents the CRC of exactly the bytes fed since the last explicit
clear" (`10_state.md` R11), and, inside an attempt, which bytes these are (R12, C6): on a write the
address, the command and the fields sent so far; on a read the two request bytes and the fields received
so far. -/
abbrev State.ChecksumLegal (s : State) : Prop :=
  s.crc = crcBytes crcInit s.fed ∧
  (s.phase = .sendHeader → s.fed = []) ∧
  (s.phase = .sendPayload → s.fed = frameBody s.opAddr s.opCmd (s.opVals.take s.fidx)) ∧
  (s.phase = .receiveFields → s.fed = readRequest s.opAddr s.opCmd ++ s.receivedBytes) ∧
  (s.phase = .trailerExchange → s.kind = .write → s.fed = frameBody s.opAddr s.opCmd s.opVals) ∧
  (s.phase = .trailerExchange → s.kind = .read →
    s.fed = readRequest s.opAddr s.opCmd ++ s.receivedBytes)

/-- The latched lists have "length ≤ `MAX_FIELDS`" where that is bounded (`10_state.md` R14). -/
abbrev State.ListsLegal (s : State) : Prop :=
  Params.admits s.params s.opVals.length = true ∧ Params.admits s.params s.opWidths.length = true

/-- A state the rules allow. -/
abbrev State.Legal (s : State) : Prop :=
  s.ConfigLegal ∧ s.AttemptLegal ∧ s.ProgressLegal ∧ s.FailureLegal ∧ s.ResultsLegal ∧ s.ChecksumLegal ∧
    s.ListsLegal

/-! ## Runs -/

/-- `n` steps of the sequencer. It rests in `Idle`, so a transaction that has ended stays ended. -/
def State.sequenceN (s : State) : Nat → State
  | 0 => s
  | n + 1 => s.sequence.sequenceN n

/-- How many attempts a history shows: `StreamClear` "is called once per attempt, in the Reset step"
(`20_memory.md` R45). -/
def attemptsIn (events : List StreamEvent) : Nat :=
  events.countP fun e => match e with
    | .cleared _ => true
    | .opened _ _ _ _ => false
    | .wrote _ _ => false
    | .read _ _ => false

/-- The calls of one whole write attempt, in the order of R134, with the result of its last call. -/
def writeTrace (a c : Byte) (vals : List (BitVec 32)) (ack : ReadResult) : List StreamEvent :=
  [.cleared .ok, .wrote [a, c] .ok] ++ vals.map (fun v => .wrote (encBe v) .ok) ++
    [.wrote (trailerBytes (crcBytes crcInit (frameBody a c vals))) .ok, .read 1 ack]

/-- The calls of one whole read attempt, in the order of R162, with the bytes its reads delivered. -/
def readTrace (a c : Byte) (fields : List (List Byte)) (trailer : List Byte) : List StreamEvent :=
  [.cleared .ok, .wrote (readRequest a c) .ok] ++ fields.map (fun bs => .read bs.length (.bytes bs)) ++
    [.read 2 (.bytes trailer)]

/-- An acknowledgement read that lets a write attempt fail recoverably: a timeout, or a byte other than
`0xFF` (`41_framer_write.md` R130, R131). -/
def notAcknowledged (ack : ReadResult) : Prop :=
  ack = .timeout ∨ ∃ b : Byte, b ≠ ackByte ∧ ack = .bytes [b]

/-- The five result registers at given values (`10_state.md` R15), everything else as it stands. -/
def State.setResults (s : State) (code : Option Condition) (count : Option (BitVec 8))
    (fields : Option (List (BitVec 32))) (val : Option (BitVec 64)) (bytes : Option (List Byte)) : State :=
  { s with resCode := code, resCount := count, resFld := fields, resVal := val, resBytes := bytes }

/-- How many fields the transaction in progress sends or reads. -/
def State.fieldCount (s : State) : Nat :=
  match s.kind with
  | .write => s.opVals.length
  | .read => s.opWidths.length

/-- A state with everything blanked that the address and the command of a transaction enter: the latched
operands, the accumulator, and the record of bytes (`20_memory.md` R41). -/
def State.hideAddressing (s : State) : State :=
  { s with opAddr := 0#8, opCmd := 0#8, crc := 0#16, fed := [], history := [] }

/-- Whether a stream call was answered `io_fail` (`60_exceptions.md` R212). -/
def StreamEvent.failed : StreamEvent → Bool
  | .opened _ _ _ _ => false
  | .cleared a => decide (a = .ioFail)
  | .wrote _ .ok => false
  | .wrote _ (.ioFail _) => true
  | .read _ r => decide (r = .ioFail)

/-- The same call answered `io_fail`; `accepted` is what a failing write had handed over (U8). -/
def StreamEvent.failing (accepted : Nat) : StreamEvent → StreamEvent
  | .opened port baud timeout _ => .opened port baud timeout .fail
  | .cleared _ => .cleared .ioFail
  | .wrote bytes _ => .wrote bytes (.ioFail accepted)
  | .read n _ => .read n .ioFail

/-- The stream calls of R49 (`20_memory.md`) that are due in the state's phase, in order, with the answers
they get; the acknowledgement is read only once the trailer has been written. -/
def State.calls (s : State) : List StreamEvent :=
  match s.phase with
  | .idle => []
  | .reset => [.cleared s.clearAnswer]
  | .sendHeader => [.wrote [s.opAddr, s.opCmd] s.writeAnswer]
  | .sendPayload => (s.opVals[s.fidx]?).toList.map fun v => .wrote (encBe v) s.writeAnswer
  | .receiveFields => (s.opWidths[s.fidx]?).toList.map fun w => .read w.size (s.readResult w.size)
  | .trailerExchange =>
    match s.kind with
    | .write =>
      match s.writeAnswer with
      | .ok =>
        [.wrote (trailerBytes s.crc) .ok, .read 1 ((s.afterWrite (trailerBytes s.crc)).readResult 1)]
      | .ioFail k => [.wrote (trailerBytes s.crc) (.ioFail k)]
    | .read => [.read 2 (s.readResult 2)]
  | .retryOrFail => []

/-- `t` ends the transaction of `s` with a condition. -/
def State.EndsWith (t : State) (c : Condition) : Prop := t.phase = .idle ∧ t.resCode = some c

/-- The rows of R220's table (`60_exceptions.md`) that lead out of a phase other than `Idle`, one line each
and in its order: from, event, to. Where the table writes `fidx = len` and `attempt = cfg_retries` the line
has `≥`, which in a legal state is the same. -/
def State.TransitionRow (s t : State) : Prop :=
  (s.phase = .reset ∧ s.clearAnswer = .ok ∧ t.phase = .sendHeader) ∨
  (s.phase = .sendHeader ∧ s.writeAnswer = .ok ∧ s.kind = .write ∧ t.phase = .sendPayload) ∨
  (s.phase = .sendHeader ∧ s.writeAnswer = .ok ∧ s.kind = .read ∧ t.phase = .receiveFields) ∨
  (s.phase = .sendPayload ∧ s.fidx < s.opVals.length ∧ s.writeAnswer = .ok ∧ t.phase = .sendPayload) ∨
  (s.phase = .sendPayload ∧ s.opVals.length ≤ s.fidx ∧ t.phase = .trailerExchange) ∨
  (s.phase = .receiveFields ∧ (∃ (h : s.fidx < s.opWidths.length) (bs : List Byte),
    s.readResult s.opWidths[s.fidx].size = .bytes bs) ∧ t.phase = .receiveFields) ∨
  (s.phase = .receiveFields ∧ (∃ h : s.fidx < s.opWidths.length,
    s.readResult s.opWidths[s.fidx].size = .timeout) ∧ t.phase = .retryOrFail) ∨
  (s.phase = .receiveFields ∧ s.opWidths.length ≤ s.fidx ∧ t.phase = .trailerExchange) ∨
  (s.phase = .trailerExchange ∧ s.kind = .write ∧ s.writeAnswer = .ok ∧
    (s.afterWrite (trailerBytes s.crc)).readResult 1 = .bytes [ackByte] ∧ t.EndsWith .success) ∨
  (s.phase = .trailerExchange ∧ s.kind = .write ∧ s.writeAnswer = .ok ∧
    notAcknowledged ((s.afterWrite (trailerBytes s.crc)).readResult 1) ∧ t.phase = .retryOrFail) ∨
  (s.phase = .trailerExchange ∧ s.kind = .read ∧
    (∃ bs, s.readResult 2 = .bytes bs ∧ trailerValue bs = s.crc) ∧ t.EndsWith .success) ∨
  (s.phase = .trailerExchange ∧ s.kind = .read ∧ s.params.mismatchPolicy = .fail ∧
    (∃ bs, s.readResult 2 = .bytes bs ∧ trailerValue bs ≠ s.crc) ∧ t.EndsWith .crcMismatch) ∨
  (s.phase = .trailerExchange ∧ s.kind = .read ∧
    ((s.params.mismatchPolicy = .retry ∧ ∃ bs, s.readResult 2 = .bytes bs ∧ trailerValue bs ≠ s.crc) ∨
      s.readResult 2 = .timeout) ∧ t.phase = .retryOrFail) ∨
  (s.phase = .retryOrFail ∧ s.attempt < s.cfgRetries ∧ t.phase = .reset) ∨
  (s.phase = .retryOrFail ∧ s.cfgRetries ≤ s.attempt ∧
    t.EndsWith (if s.kind = .read ∧ s.lastFail = .crcBad then .crcMismatch else .timeout)) ∨
  (s.phase ≠ .idle ∧ s.phase ≠ .retryOrFail ∧ s.calls.any StreamEvent.failed = true ∧
    t.EndsWith .ioFailure)

/-- Which conditions each operation can end with (`60_exceptions.md` R211). -/
def conditionsOf : Instr → List Condition
  | .crcClear => [.success]
  | .crcUpdate _ => [.success]
  | .crcGet => [.success]
  | .fldEnc _ => [.success]
  | .fldDec _ _ => [.success, .invalidValue]
  | .txWrite _ _ _ => [.success, .timeout, .ioFailure]
  | .txRead _ _ _ => [.success, .timeout, .crcMismatch, .invalidValue, .ioFailure]
  | .posRecon _ _ _ => [.success]
  | .engInit _ _ _ _ _ => [.success, .transportOpenFailure]

end Sys2Proof.Machine
end

