-- ==== Sys2Proof/Safety/Algorithm.lean ====
section
/-! DEFINITION. The two transactions as the loops of `41_framer_write.md` R123 and `42_deframer_read.md`
R152, written with the stream primitives and the accumulator alone: no phase, no index, no attempt
counter. Claims compare the sequencer with them. -/

namespace Sys2Proof.Machine

/-- How an attempt ends: the operation is over, or the next attempt is due and why. -/
inductive AttemptEnd where
  | finished (c : Condition)
  | again (why : LastFail)
deriving DecidableEq, Repr

/-- What the algorithms act on: the accumulator, and the stream as the engine sees it. -/
structure StreamView where
  crc : BitVec 16
  fed : List Byte
  history : List StreamEvent
  clearAnswers : List ClearAnswer
  writeAnswers : List WriteAnswer
  readAnswers : List ReadAnswer
  freeIdx : Nat
deriving DecidableEq, Repr

/-- The part of a state the algorithms act on. -/
def State.streamView (s : State) : StreamView where
  crc := s.crc
  fed := s.fed
  history := s.history
  clearAnswers := s.clearAnswers
  writeAnswers := s.writeAnswers
  readAnswers := s.readAnswers
  freeIdx := s.freeIdx

/-! ## TX_WRITE -/

/-- "for each v in vals, in order": feed and write one field after another; `false` on `io_fail`. -/
def sendFields : List (BitVec 32) → State → Bool × State
  | [], s => (true, s)
  | v :: vs, s =>
    match (s.feed (encBe v)).writeAnswer with
    | .ioFail _ => (false, (s.feed (encBe v)).afterWrite (encBe v))
    | .ok => sendFields vs ((s.feed (encBe v)).afterWrite (encBe v))

/-- The last two calls of a write attempt: the trailer, then the acknowledgement. -/
def exchangeAck (s : State) : AttemptEnd × State :=
  match s.writeAnswer with
  | .ioFail _ => (.finished .ioFailure, s.afterWrite (trailerBytes s.crc))
  | .ok =>
    let s := s.afterWrite (trailerBytes s.crc)
    match s.readResult 1 with
    | .bytes bs => (if bs = [ackByte] then .finished .success else .again .badAck, s.afterRead 1)
    | .timeout => (.again .timedOut, s.afterRead 1)
    | .ioFail => (.finished .ioFailure, s.afterRead 1)

/-- The body of R123's loop. -/
def writeAttempt (a c : Byte) (vals : List (BitVec 32)) (s : State) : AttemptEnd × State :=
  match s.clearAnswer with
  | .ioFail => (.finished .ioFailure, s.afterClear)
  | .ok =>
    let s := s.afterClear.clearCrc.feed [a, c]
    match s.writeAnswer with
    | .ioFail _ => (.finished .ioFailure, s.afterWrite [a, c])
    | .ok =>
      match sendFields vals (s.afterWrite [a, c]) with
      | (false, s) => (.finished .ioFailure, s)
      | (true, s) => exchangeAck s

/-- R123: at most `n` attempts, then `Timeout`. -/
def writeLoop (a c : Byte) (vals : List (BitVec 32)) : Nat → State → Condition × State
  | 0, s => (.timeout, s)
  | n + 1, s =>
    match writeAttempt a c vals s with
    | (.finished cond, s) => (cond, s)
    | (.again _, s) => writeLoop a c vals n s

/-! ## TX_READ -/

/-- What the field loop of R152 answers: all fields, or how the attempt ended. -/
inductive FieldsEnd where
  | all (fields : List (BitVec 32))
  | ended (e : AttemptEnd)
deriving DecidableEq, Repr

/-- "for each w in widths, in order": read, feed and decode one field after another, after those of `got`. -/
def readFields : List FieldWidth → List (BitVec 32) → State → FieldsEnd × State
  | [], got, s => (.all got, s)
  | w :: ws, got, s =>
    match s.readResult w.size with
    | .bytes bs => readFields ws (got ++ [decBe bs]) ((s.afterRead w.size).feed bs)
    | .timeout => (.ended (.again .timedOut), s.afterRead w.size)
    | .ioFail => (.ended (.finished .ioFailure), s.afterRead w.size)

/-- The last call of a read attempt and the comparison with the checksum computed before it. -/
def exchangeTrailer (s : State) : AttemptEnd × State :=
  match s.readResult 2 with
  | .bytes bs =>
    (if trailerValue bs = s.crc then .finished .success
      else match s.params.mismatchPolicy with
        | .fail => .finished .crcMismatch
        | .retry => .again .crcBad,
     (s.afterRead 2).feed bs)
  | .timeout => (.again .timedOut, s.afterRead 2)
  | .ioFail => (.finished .ioFailure, s.afterRead 2)

/-- The body of R152's loop, with the fields decoded. -/
def readAttempt (a c : Byte) (widths : List FieldWidth) (s : State) :
    AttemptEnd × List (BitVec 32) × State :=
  match s.clearAnswer with
  | .ioFail => (.finished .ioFailure, [], s.afterClear)
  | .ok =>
    let s := s.afterClear.clearCrc.feed [a, c]
    match s.writeAnswer with
    | .ioFail _ => (.finished .ioFailure, [], s.afterWrite [a, c])
    | .ok =>
      match readFields widths [] (s.afterWrite [a, c]) with
      | (.ended e, s) => (e, [], s)
      | (.all got, s) => ((exchangeTrailer s).1, got, (exchangeTrailer s).2)

/-- R152: at most `n` attempts; at exhaustion `CrcMismatch` "if the last attempt ended in a mismatch" and
`Timeout` otherwise. The fields are those of a `Success`, and none otherwise. -/
def readLoop (a c : Byte) (widths : List FieldWidth) :
    Nat → LastFail → State → Condition × List (BitVec 32) × State
  | 0, last, s => (if last = .crcBad then .crcMismatch else .timeout, [], s)
  | n + 1, _, s =>
    match readAttempt a c widths s with
    | (.finished cond, got, s) => (cond, if cond = .success then got else [], s)
    | (.again why, _, s) => readLoop a c widths n why s

end Sys2Proof.Machine
end

