-- ==== Sys2Proof/WellFormed.lean ====
section
/-! DEFINITION. Which requests are well formed as requests, whatever state the block is in. An illegal
field width is NOT ill formed: TX_READ and FLD_DEC answer it with `InvalidValue` (`30_encoding.md` R82). -/

namespace Sys2Proof

/-- FLD_DEC: "`bs` is a list of `w` bytes" (`30_encoding.md` R81; `42_deframer_read.md` R150: "A request
whose `bs` does not have exactly `w` bytes is malformed"). -/
def fieldBytesFit (w : BitVec 8) (bs : List Byte) : Bool := bs.length == w.toNat

/-- ENG_INIT: "`retries`, `RETRIES_W` bits, which must be ≥ 1" (`44_system.md` R195, R198). -/
def retriesLegal (retries : BitVec 8) : Bool := retries != 0#8

/-- The checks of a request that need no state. -/
def Instr.wf : Instr → Bool
  | .crcClear => true
  | .crcUpdate _ => true
  | .crcGet => true
  | .fldEnc _ => true
  | .fldDec w bs => fieldBytesFit w bs
  | .txWrite _ _ _ => true
  | .txRead _ _ _ => true
  | .posRecon _ _ _ => true
  | .engInit _ _ _ _ retries => retriesLegal retries

end Sys2Proof
end

