-- ==== Sys2Proof/Certificates/Slice0/Obligations.lean ====
section
/-! DEFINITION. The statements for the provers. Each docstring names the rules of the spec it formalises;
OBLIGATIONS.json lists them. "No value" of a result register is `none` (`10_state.md` R15). -/

open Sys2Proof Sys2Proof.Machine

/-! ## The accumulator -/

/-- `40_crc.md` R103: CRC_CLEAR. In `Idle`, with any link, it completes with `crc = 0x0000` and nothing
else written, and the sequence CRC_CLEAR, CRC_UPDATE b gives the same `crc` whatever was fed before. -/
def Obligations.CrcClearResult : Prop :=
  Instr.crcClear.op = 0x0#4 ∧
  ∀ s : State, s.phase = .idle →
    exec .crcClear s =
      .next ({ s with crc := 0x0000#16, fed := [] }.setResults (some .success) none none none none) ∧
    ∀ b : Byte, ∃ s1 s2 : State, exec .crcClear s = .next s1 ∧ exec (.crcUpdate b) s1 = .next s2 ∧
      s2.crc = crcStep 0x0000#16 b

/-- `40_crc.md` R104: CRC_UPDATE b, with the rule's corner case and example. -/
def Obligations.CrcUpdateResult : Prop :=
  (crcStep 0x0000#16 0x00#8 = 0x0000#16 ∧ crcStep 0x0000#16 0xFF#8 = 0x1EF0#16) ∧
  ∀ b : Byte, (Instr.crcUpdate b).op = 0x1#4 ∧
  ∀ s : State, s.phase = .idle →
    exec (.crcUpdate b) s =
      .next ({ s with crc := crcStep s.crc b, fed := s.fed ++ [b] }.setResults
        (some .success) none none none none)

/-- `40_crc.md` R105: CRC_GET returns the register, zero-extended, and leaves it as it is, whatever left
the value there; a second CRC_GET returns the same value; after hardware reset and after an ENG_INIT that
succeeded it returns zero. -/
def Obligations.CrcGetResult : Prop :=
  Instr.crcGet.op = 0x2#4 ∧
  (∀ s : State, s.phase = .idle →
    exec .crcGet s = .next (s.setResults (some .success) none none (some (s.crc.setWidth 64)) none) ∧
    ∃ s1 s2 : State, exec .crcGet s = .next s1 ∧ exec .crcGet s1 = .next s2 ∧ s2.resVal = s1.resVal) ∧
  (∃ t : State, exec .crcGet State.reset = .next t ∧ t.resVal = some 0#64) ∧
  ∀ (port baud timeout : OpaqueValue) (address : Byte) (retries : BitVec 8) (s s1 : State),
    exec (.engInit port baud timeout address retries) s = .next s1 → s1.resCode = some .success →
    ∃ t : State, exec .crcGet s1 = .next t ∧ t.resVal = some 0#64

/-- `40_crc.md` R106: from any state in `Idle`, CRC_CLEAR, CRC_UPDATE 0xFF, CRC_GET leave 7920, and
clearing and repeating leaves 7920 again. -/
def Obligations.CrcReferenceVector : Prop :=
  crcStep 0x0000#16 0xFF#8 = 0x1EF0#16 ∧
  ∀ s : State, s.phase = .idle → ∃ s1 s2 s3 s4 s5 s6 : State,
    exec .crcClear s = .next s1 ∧ exec (.crcUpdate 0xFF#8) s1 = .next s2 ∧ exec .crcGet s2 = .next s3 ∧
    s3.resVal = some 7920#64 ∧
    exec .crcClear s3 = .next s4 ∧ exec (.crcUpdate 0xFF#8) s4 = .next s5 ∧ exec .crcGet s5 = .next s6 ∧
    s6.resVal = some 7920#64

/-- `40_crc.md` R102, second form (an inference the spec marks as its own): one step is a shift by a byte
and one entry of the table `TAB[k] = crc_step(0x0000, k)`. -/
def Obligations.CrcStepTableForm : Prop :=
  ∀ (c : BitVec 16) (b : Byte),
    crcStep c b = (c <<< 8) ^^^ crcStep 0x0000#16 (c.extractLsb' 8 8 ^^^ b)

/-- `40_crc.md` R102, first form (an inference the spec marks as its own): read as polynomials over GF(2),
bit `i` the coefficient of `x^i`, one step is the remainder of the register, with the byte added into its
high byte, times `x^8`, on division by `G = x^16 + x^12 + x^5 + 1`. -/
def Obligations.CrcStepIsPolynomialRemainder : Prop :=
  let poly (r : BitVec 16) : Polynomial (ZMod 2) :=
    ∑ i ∈ Finset.range 16, if r.getLsbD i then Polynomial.X ^ i else 0
  let g : Polynomial (ZMod 2) := Polynomial.X ^ 16 + Polynomial.X ^ 12 + Polynomial.X ^ 5 + 1
  ∀ (c : BitVec 16) (b : Byte),
    poly (crcStep c b) = (poly (c ^^^ (b ++ 0x00#8)) * Polynomial.X ^ 8) %ₘ g

/-- `40_crc.md` R102 (a) (an inference the spec marks as its own): linearity. -/
def Obligations.CrcStepLinear : Prop :=
  ∀ (c1 c2 : BitVec 16) (b1 b2 : Byte),
    crcStep (c1 ^^^ c2) (b1 ^^^ b2) = crcStep c1 b1 ^^^ crcStep c2 b2

/-- `40_crc.md` R102 (c) (an inference the spec marks as its own): for a fixed byte a bijection of the
register, for a fixed register injective in the byte. -/
def Obligations.CrcStepInvertible : Prop :=
  (∀ b : Byte, Function.Bijective fun c : BitVec 16 => crcStep c b) ∧
  ∀ c : BitVec 16, Function.Injective fun b : Byte => crcStep c b

/-- `40_crc.md` R102 (d) (an inference the spec marks as its own): feeding two bytes to a register that
holds `T` ends at zero exactly when they are `T`, high byte first. -/
def Obligations.CrcResidue : Prop :=
  ∀ t r : BitVec 16, crcBytes t (trailerBytes r) = 0x0000#16 ↔ r = t

/-- `40_crc.md` R102 (b) (an inference the spec marks as its own): zero bytes in front of a list do not
change its CRC. -/
def Obligations.CrcIgnoresLeadingZeros : Prop :=
  ∀ (n : Nat) (bs : List Byte),
    crcBytes 0x0000#16 (List.replicate n 0x00#8 ++ bs) = crcBytes 0x0000#16 bs

/-- `30_encoding.md` R85, CRC_OF, with `40_crc.md` R101, R103 to R105: the host's requests CRC_CLEAR, one
CRC_UPDATE per byte and CRC_GET, run one per step and leave the CRC of the byte list in `res_val`; the
stream is not touched and the requests behind them stay. That requests wait at the port and one is taken
per step is the model's choice (log 2), and so is their layout there (log 1). -/
def Obligations.CrcOfRequestsComputeTheCrc : Prop :=
  ∀ (bs rest : List Byte) (s : State), s.phase = .idle →
    s.port = (crcOf bs).flatMap encode ++ rest →
    Host.Core.run Sys2Proof.core (bs.length + 2) s =
      .next ({ s with crc := crcBytes 0x0000#16 bs, fed := bs, port := rest }.setResults
        (some .success) none none (some ((crcBytes 0x0000#16 bs).setWidth 64)) none)

/-! ## Fields and frames -/

/-- `30_encoding.md` R75 and R76: the width follows the magnitude, in numbers and in bits, and the bytes are
the value's, most significant first. That the first byte of two is never zero and the first two of four are
never both zero is an inference R76 marks as its own. -/
def Obligations.FieldEncodingFollowsMagnitude : Prop :=
  ∀ v : BitVec 32,
    (v.toNat ≤ 255 → widthOf v = 1 ∧ v.extractLsb' 8 24 = 0#24 ∧ encBe v = [v.extractLsb' 0 8]) ∧
    (256 ≤ v.toNat ∧ v.toNat ≤ 65535 →
      widthOf v = 2 ∧ v.extractLsb' 16 16 = 0#16 ∧ v.extractLsb' 8 8 ≠ 0#8 ∧
      encBe v = [v.extractLsb' 8 8, v.extractLsb' 0 8]) ∧
    (65536 ≤ v.toNat →
      widthOf v = 4 ∧ v.extractLsb' 16 16 ≠ 0#16 ∧
      encBe v = [v.extractLsb' 24 8, v.extractLsb' 16 8, v.extractLsb' 8 8, v.extractLsb' 0 8] ∧
      ¬ (v.extractLsb' 24 8 = 0#8 ∧ v.extractLsb' 16 8 = 0#8))

/-- `30_encoding.md` R77: decoding is big-endian with zero extension, decoding what was encoded gives the
value back, and encoding what was decoded gives the bytes back only at the width the value selects. -/
def Obligations.FieldDecodingInvertsEncoding : Prop :=
  (∀ b0 : Byte, decBe [b0] = b0.setWidth 32) ∧
  (∀ b0 b1 : Byte, decBe [b0, b1] = (b0 ++ b1 : BitVec 16).setWidth 32) ∧
  (∀ b0 b1 b2 b3 : Byte, decBe [b0, b1, b2, b3] = (b0 ++ b1 ++ b2 ++ b3 : BitVec 32)) ∧
  (∀ v : BitVec 32, decBe (encBe v) = v) ∧
  ∀ bs : List Byte, bs.length = 1 ∨ bs.length = 2 ∨ bs.length = 4 →
    (encBe (decBe bs) = bs ↔ widthOf (decBe bs) = bs.length)

/-- `41_framer_write.md` R120: FLD_ENC v writes `res_bytes`, of `width_of(v)` bytes, and `res_code` only;
every value is legal. The corner cases and the example are R120's. -/
def Obligations.FldEncResult : Prop :=
  (∀ v : BitVec 32, (Instr.fldEnc v).op = 0x3#4 ∧ (encBe v).length = widthOf v ∧ widthOf v ≠ 3 ∧
    ∀ s : State, s.phase = .idle →
      exec (.fldEnc v) s = .next (s.setResults (some .success) none none none (some (encBe v)))) ∧
  encBe 0#32 = [0x00#8] ∧ encBe 255#32 = [0xFF#8] ∧ encBe 256#32 = [0x01#8, 0x00#8] ∧
  encBe 65535#32 = [0xFF#8, 0xFF#8] ∧ encBe 65536#32 = [0x00#8, 0x01#8, 0x00#8, 0x00#8] ∧
  encBe 0xFFFFFFFF#32 = [0xFF#8, 0xFF#8, 0xFF#8, 0xFF#8] ∧ encBe 300#32 = [0x01#8, 0x2C#8]

/-- `42_deframer_read.md` R150 and R151: FLD_DEC w, bs. With exactly `w` bytes a legal width gives the
decoded value and an illegal one `InvalidValue` without a value; a byte list of another length is refused
whatever `w` is (U11; that the length is looked at first is the model's reading, log 10). -/
def Obligations.FldDecResult : Prop :=
  ∀ (w : BitVec 8) (bs : List Byte), (Instr.fldDec w bs).op = 0x4#4 ∧
  ∀ s : State, s.phase = .idle →
    (bs.length = w.toNat → (w = 1#8 ∨ w = 2#8 ∨ w = 4#8) →
      exec (.fldDec w bs) s =
        .next (s.setResults (some .success) none none (some ((decBe bs).setWidth 64)) none)) ∧
    (bs.length = w.toNat → ¬ (w = 1#8 ∨ w = 2#8 ∨ w = 4#8) →
      exec (.fldDec w bs) s = .next (s.setResults (some .invalidValue) none none none none)) ∧
    (bs.length ≠ w.toNat → exec (.fldDec w bs) s = .refused .malformedFieldBytes)

/-- `41_framer_write.md` R122 (an inference the spec marks as its own): a write frame is four bytes and
its fields, between `4 + k` and `4 + 4k` bytes (R71); fed whole to a cleared register it ends at zero; and
it does not say where one field ends. -/
def Obligations.WriteFrameLengthAndResidue : Prop :=
  (∀ (a c : Byte) (vals : List (BitVec 32)),
    (frameWrite a c vals).length = 4 + (vals.map widthOf).sum ∧
    4 + vals.length ≤ (frameWrite a c vals).length ∧
    (frameWrite a c vals).length ≤ 4 + 4 * vals.length ∧
    crcBytes 0x0000#16 (frameWrite a c vals) = 0x0000#16) ∧
  ∀ a c : Byte, frameWrite a c [256#32] = frameWrite a c [1#32, 0#32] ∧
    frameWrite a c [65536#32] = frameWrite a c [0#32, 1#32, 0#32, 0#32]

/-! ## The position reconstructor -/

/-- `43_position.md` R180: POS_RECON writes `res_val` and `res_code` only. The flags are the bits 7 and 5
of the status byte (R181), the delta is sign-extended (R182); that the sum wraps modulo 2^64 is the spec's
decision D11 (R183). -/
def Obligations.PosReconResult : Prop :=
  ∀ (prev : BitVec 64) (delta : BitVec 32) (status : Byte),
    (Instr.posRecon prev delta status).op = 0x7#4 ∧
    ∀ s : State, s.phase = .idle →
      exec (.posRecon prev delta status) s =
        .next (s.setResults (some .success) none none
          (some (prev + delta.signExtend 64
            + (if status.getLsbD 5 then 0x0000000100000000#64 else 0#64)
            - (if status.getLsbD 7 then 0x0000000100000000#64 else 0#64))) none)

/-- `43_position.md` R182 and R183: as integers, the result is the true sum whenever that is a signed
64-bit number, and otherwise the sum reduced modulo 2^64 into the signed range (D11). -/
def Obligations.PosReconIntegerValue : Prop :=
  ∀ (prev : BitVec 64) (delta : BitVec 32) (status : Byte),
    let sd : Int := if delta.toNat < 2 ^ 31 then (delta.toNat : Int) else (delta.toNat : Int) - 2 ^ 32
    let sum : Int := prev.toInt + sd + (if status.getLsbD 5 then 2 ^ 32 else 0)
      - (if status.getLsbD 7 then 2 ^ 32 else 0)
    (-(2 ^ 63) ≤ sum ∧ sum < 2 ^ 63 → (posRecon prev delta status).toInt = sum) ∧
    (posRecon prev delta status).toInt = Int.bmod sum (2 ^ 64)

/-- `43_position.md` R184 and R181: no flag, overflow only, underflow only, and both, which cancel; the
bits of the status byte that are no flag are ignored. -/
def Obligations.PosReconFlagCases : Prop :=
  ∀ (prev : BitVec 64) (delta : BitVec 32) (status : Byte),
    (status &&& 0xA0#8 = 0x00#8 → posRecon prev delta status = prev + delta.signExtend 64) ∧
    (status &&& 0xA0#8 = 0x20#8 →
      posRecon prev delta status = prev + delta.signExtend 64 + 0x0000000100000000#64) ∧
    (status &&& 0xA0#8 = 0x80#8 →
      posRecon prev delta status = prev + delta.signExtend 64 - 0x0000000100000000#64) ∧
    (status &&& 0xA0#8 = 0xA0#8 → posRecon prev delta status = prev + delta.signExtend 64) ∧
    posRecon prev delta status = posRecon prev delta (status &&& 0xA0#8)

/-- `43_position.md` R186: the source's values, through the operation. -/
def Obligations.PosReconRequiredValues : Prop :=
  ∀ s : State, s.phase = .idle → ∃ s1 s2 s3 : State,
    exec (.posRecon 1000000000#64 12000000#32 0x80#8) s = .next s1 ∧
    s1.resVal.map BitVec.toInt = some (-3282967296) ∧
    exec (.posRecon 1000000000#64 12000000#32 0x20#8) s = .next s2 ∧
    s2.resVal.map BitVec.toInt = some 5306967296 ∧
    exec (.posRecon 1000000000#64 12000000#32 0x00#8) s = .next s3 ∧
    s3.resVal.map BitVec.toInt = some 1012000000

/-! ## Construction -/

/-- `44_system.md` R195 and R196: ENG_INIT in `Idle` with the link closed and `retries ≥ 1` completes; with
`handle` it loads the configuration, clears `crc` and opens the link; with `fail` it leaves
`TransportOpenFailure` and writes no other register. The one stream call made is at the end of the
history, with its operands. -/
def Obligations.EngInitResult : Prop :=
  ∀ (port baud timeout : OpaqueValue) (address : Byte) (retries : BitVec 8),
    (Instr.engInit port baud timeout address retries).op = 0x8#4 ∧
    ∀ s : State, s.phase = .idle → s.linkOpen = false → retries ≠ 0#8 →
      (s.openAnswer = .handle →
        exec (.engInit port baud timeout address retries) s =
          .next ({ s.afterOpen port baud timeout with
              cfgAddress := address, cfgRetries := retries, cfgTimeout := timeout,
              crc := 0x0000#16, fed := [], linkOpen := true }.setResults
            (some .success) none none none none)) ∧
      (s.openAnswer = .fail →
        exec (.engInit port baud timeout address retries) s =
          .next ((s.afterOpen port baud timeout).setResults
            (some .transportOpenFailure) none none none none)) ∧
      (s.afterOpen port baud timeout).history =
        s.history ++ [.opened port baud timeout s.openAnswer]

/-- `44_system.md` R198: ENG_INIT with `retries = 0`, and a second ENG_INIT, are refused. -/
def Obligations.EngInitRefused : Prop :=
  ∀ (port baud timeout : OpaqueValue) (address : Byte) (retries : BitVec 8) (s : State),
    s.phase = .idle →
    (s.linkOpen = true →
      exec (.engInit port baud timeout address retries) s = .refused .linkAlreadyOpen) ∧
    (s.linkOpen = false →
      exec (.engInit port baud timeout address 0#8) s = .refused .zeroRetries)

/-- `44_system.md` R197: without an open link TX_WRITE and TX_READ are refused, and the six operations
that need no link complete in one step, whatever the link is, in any state in `Idle`. (FLD_DEC as far as
its request is well formed, U11.) -/
def Obligations.OnlyTransactionsNeedTheLink : Prop :=
  ∀ s : State, s.phase = .idle →
    (s.linkOpen = false →
      (∀ a c vals, exec (.txWrite a c vals) s = .refused .linkNotOpen) ∧
      (∀ a c widths, exec (.txRead a c widths) s = .refused .linkNotOpen)) ∧
    (∀ i : Instr, i.wf = true → i.op.toNat < 5 ∨ i.op = 0x7#4 →
      ∃ t : State, exec i s = .next t ∧ t.phase = .idle ∧ t.linkOpen = s.linkOpen)

/-- `93_implementation_defined.md` U13: with the link open, a list longer than a bounded `MAX_FIELDS` is
refused. That this holds whatever its entries are, so that an overlong list with an illegal width does not
end with `InvalidValue`, is the model's reading of the order of the checks (log 11). -/
def Obligations.OverlongListsRefused : Prop :=
  ∀ (s : State) (m : Nat), s.phase = .idle → s.linkOpen = true → s.params.maxFields = some m →
    (∀ a c vals, m < vals.length → exec (.txWrite a c vals) s = .refused .tooManyFields) ∧
    (∀ a c widths, m < widths.length → exec (.txRead a c widths) s = .refused .tooManyFields)

/-! ## Accepting a transaction -/

/-- `41_framer_write.md` R124 and R125: acceptance of TX_WRITE, of any operands (within `MAX_FIELDS` where
that is bounded): the operands are latched, no attempt has started, the other results have lost their
value (`10_state.md` R15), no stream call is made and `crc` is not changed. -/
def Obligations.TxWriteAcceptance : Prop :=
  ∀ (a c : Byte) (vals : List (BitVec 32)), (Instr.txWrite a c vals).op = 0x5#4 ∧
  ∀ s : State, s.phase = .idle → s.linkOpen = true →
    (∀ m, s.params.maxFields = some m → vals.length ≤ m) →
    exec (.txWrite a c vals) s =
      .next ({ s with
          kind := .write, opAddr := a, opCmd := c, opVals := vals, attempt := 0#8,
          lastFail := .none, phase := .reset }.setResults none none (some []) none none)

/-- `42_deframer_read.md` R153: acceptance of TX_READ when every width is 1, 2 or 4. -/
def Obligations.TxReadAcceptance : Prop :=
  ∀ (a c : Byte) (widths : List (BitVec 8)) (ws : List FieldWidth),
  (Instr.txRead a c widths).op = 0x6#4 ∧
  ∀ s : State, s.phase = .idle → s.linkOpen = true →
    (∀ m, s.params.maxFields = some m → widths.length ≤ m) →
    widths.map BitVec.toNat = ws.map FieldWidth.size →
    exec (.txRead a c widths) s =
      .next ({ s with
          kind := .read, opAddr := a, opCmd := c, opWidths := ws, attempt := 0#8,
          lastFail := .none, phase := .reset }.setResults none none (some []) none none)

/-- `42_deframer_read.md` R154: a width other than 1, 2 or 4 anywhere in the list ends TX_READ at once with
`InvalidValue`: no stream call, `crc`, `attempt` and the latched operands unchanged, the phase still
`Idle`; the empty list passes the check. That the other result registers lose their value here too is the
model's reading of R154 with `10_state.md` R15 and `60_exceptions.md` R217 (log 4). -/
def Obligations.IllegalWidthEndsReadAtOnce : Prop :=
  ∀ (a c : Byte) (s : State), s.phase = .idle → s.linkOpen = true →
    (∀ widths : List (BitVec 8), (∀ m, s.params.maxFields = some m → widths.length ≤ m) →
      (∃ w ∈ widths, w.toNat ≠ 1 ∧ w.toNat ≠ 2 ∧ w.toNat ≠ 4) →
      exec (.txRead a c widths) s =
        .next (s.setResults (some .invalidValue) none (some []) none none)) ∧
    ∃ t : State, exec (.txRead a c []) s = .next t ∧ t.phase = .reset ∧ t.opWidths = []

/-- `10_state.md` R17 (U6): a request made while `phase ≠ Idle` has no meaning, whatever it is. -/
def Obligations.RequestDuringTransactionRefused : Prop :=
  ∀ (i : Instr) (s : State), s.phase ≠ .idle → exec i s = .refused .portNotReady

/-! ## The phases -/

/-- `41_framer_write.md` R126 (and `42_deframer_read.md` R155): phase `Reset`. -/
def Obligations.ResetPhaseStep : Prop :=
  ∀ s : State, s.phase = .reset →
    (s.clearAnswer = .ok →
      step s = .next { s.afterClear with
        attempt := s.attempt + 1#8, crc := 0x0000#16, fed := [], fidx := 0, fld := [],
        phase := .sendHeader }) ∧
    (s.clearAnswer = .ioFail →
      step s = .next ({ s.afterClear with attempt := s.attempt + 1#8 }.endTransaction .ioFailure))

/-- `41_framer_write.md` R127 (and `42_deframer_read.md` R156): phase `SendHeader`. The bytes are fed
before they are written (the spec's decision D15). -/
def Obligations.SendHeaderPhaseStep : Prop :=
  ∀ s : State, s.phase = .sendHeader →
    let fed : State := { s.afterWrite [s.opAddr, s.opCmd] with
      crc := crcStep (crcStep s.crc s.opAddr) s.opCmd, fed := s.fed ++ [s.opAddr, s.opCmd] }
    (s.writeAnswer = .ok → s.kind = .write → step s = .next { fed with phase := .sendPayload }) ∧
    (s.writeAnswer = .ok → s.kind = .read → step s = .next { fed with phase := .receiveFields }) ∧
    (∀ k, s.writeAnswer = .ioFail k → step s = .next (fed.endTransaction .ioFailure))

/-- `41_framer_write.md` R128: phase `SendPayload`. -/
def Obligations.SendPayloadPhaseStep : Prop :=
  ∀ s : State, s.phase = .sendPayload →
    (∀ h : s.fidx < s.opVals.length,
      let e := encBe s.opVals[s.fidx]
      let fed : State := { s.afterWrite e with crc := crcBytes s.crc e, fed := s.fed ++ e }
      (s.writeAnswer = .ok → step s = .next { fed with fidx := s.fidx + 1 }) ∧
      (∀ k, s.writeAnswer = .ioFail k → step s = .next (fed.endTransaction .ioFailure))) ∧
    (s.opVals.length ≤ s.fidx → step s = .next { s with phase := .trailerExchange })

/-- `41_framer_write.md` R129 and R130: phase `TrailerExchange` of a write. The trailer is the
register's two bytes and is not fed (the spec's decision D10); then one acknowledgement byte is read and
not fed. -/
def Obligations.WriteTrailerPhaseStep : Prop :=
  ∀ s : State, s.phase = .trailerExchange → s.kind = .write →
    let sent := s.afterWrite [s.crc.extractLsb' 8 8, s.crc.extractLsb' 0 8]
    (∀ k, s.writeAnswer = .ioFail k → step s = .next (sent.endTransaction .ioFailure)) ∧
    (s.writeAnswer = .ok →
      (sent.readResult 1 = .bytes [0xFF#8] →
        step s = .next { sent.afterRead 1 with
          resCode := some .success, resCount := none, resFld := some [], phase := .idle }) ∧
      (∀ b : Byte, b ≠ 0xFF#8 → sent.readResult 1 = .bytes [b] →
        step s = .next { sent.afterRead 1 with lastFail := .badAck, phase := .retryOrFail }) ∧
      (sent.readResult 1 = .timeout →
        step s = .next { sent.afterRead 1 with lastFail := .timedOut, phase := .retryOrFail }) ∧
      (sent.readResult 1 = .ioFail → step s = .next ((sent.afterRead 1).endTransaction .ioFailure)))

/-- `42_deframer_read.md` R157: phase `ReceiveFields`; a read delivers exactly as many bytes as the width
says (`20_memory.md` R44), and they are fed after the read returns (the spec's decision D15). -/
def Obligations.ReceiveFieldsPhaseStep : Prop :=
  ∀ s : State, s.phase = .receiveFields →
    (∀ h : s.fidx < s.opWidths.length,
      let w := s.opWidths[s.fidx].size
      (∀ bs : List Byte, s.readResult w = .bytes bs →
        bs.length = w ∧
        step s = .next { s.afterRead w with
          crc := crcBytes s.crc bs, fed := s.fed ++ bs,
          fld := s.fld ++ [decBe bs], fidx := s.fidx + 1 }) ∧
      (s.readResult w = .timeout →
        step s = .next { s.afterRead w with lastFail := .timedOut, phase := .retryOrFail }) ∧
      (s.readResult w = .ioFail → step s = .next ((s.afterRead w).endTransaction .ioFailure))) ∧
    (s.opWidths.length ≤ s.fidx → step s = .next { s with phase := .trailerExchange })

/-- `42_deframer_read.md` R158 and R159: phase `TrailerExchange` of a read. The register is sampled before
the trailer is fed (the spec's decision D5), the two trailer bytes are read and fed, and the transmitted
checksum is compared with the sample; a mismatch is terminal or recoverable by `CRC_MISMATCH_POLICY` and never yields fields. -/
def Obligations.ReadTrailerPhaseStep : Prop :=
  ∀ s : State, s.phase = .trailerExchange → s.kind = .read →
    let called : State := { s.afterRead 2 with crcPre := s.crc }
    (∀ t0 t1 : Byte, s.readResult 2 = .bytes [t0, t1] →
      let fed : State := { called with
        crc := crcStep (crcStep s.crc t0) t1, fed := s.fed ++ [t0, t1] }
      ((t0 ++ t1 : BitVec 16) = s.crc →
        step s = .next { fed with
          resCode := some .success, resCount := none, resFld := some s.fld, phase := .idle }) ∧
      ((t0 ++ t1 : BitVec 16) ≠ s.crc → s.params.mismatchPolicy = .fail →
        step s = .next { fed with
          resCode := some .crcMismatch, resCount := none, resFld := some [], phase := .idle }) ∧
      ((t0 ++ t1 : BitVec 16) ≠ s.crc → s.params.mismatchPolicy = .retry →
        step s = .next { fed with lastFail := .crcBad, phase := .retryOrFail })) ∧
    (s.readResult 2 = .timeout →
      step s = .next { called with lastFail := .timedOut, phase := .retryOrFail }) ∧
    (s.readResult 2 = .ioFail → step s = .next (called.endTransaction .ioFailure))

/-- `60_exceptions.md` R219: phase `RetryOrFail` makes no stream call, starts another attempt while
`attempt < cfg_retries`, and otherwise ends with `CrcMismatch` after a mismatched read and with
`Timeout(cfg_retries)` after anything else. -/
def Obligations.RetryOrFailPhaseStep : Prop :=
  ∀ s : State, s.phase = .retryOrFail →
    (s.attempt < s.cfgRetries → step s = .next { s with phase := .reset }) ∧
    (¬ s.attempt < s.cfgRetries → s.kind = .read ∧ s.lastFail = .crcBad →
      step s = .next { s with
        resCode := some .crcMismatch, resCount := none, resFld := some [], phase := .idle }) ∧
    (¬ s.attempt < s.cfgRetries → ¬ (s.kind = .read ∧ s.lastFail = .crcBad) →
      step s = .next { s with
        resCode := some .timeout, resCount := some s.cfgRetries, resFld := some [], phase := .idle })

/-- `60_exceptions.md` R217: what a condition does to the state when an operation ends, and nothing else:
of an operation that does not leave `Idle`, and of a transaction. -/
def Obligations.ConditionEffect : Prop :=
  ∀ (s : State) (cond : Condition),
    s.endOperation cond = { s with resCode := some cond } ∧
    (cond = .timeout → s.endTransaction cond = { s with
      resCode := some .timeout, resCount := some s.cfgRetries, resFld := some [], phase := .idle }) ∧
    (s.kind = .read → cond = .success → s.endTransaction cond = { s with
      resCode := some .success, resCount := none, resFld := some s.fld, phase := .idle }) ∧
    (cond ≠ .timeout → ¬ (s.kind = .read ∧ cond = .success) → s.endTransaction cond = { s with
      resCode := some cond, resCount := none, resFld := some [], phase := .idle })

/-- `60_exceptions.md` R220 (an inference the spec marks as its own): the transitions of the sequencer,
row by row of its table, with the event, the guard and, where a row leads to `Idle`, the condition. The
first three parts are the rows out of `Idle`; the last says that in every other phase a step answers a next
state and follows a row. That every stream call is answered is log 5; that a step is one phase is log 12. -/
def Obligations.SequencerTransitions : Prop :=
  (∀ a c vals (s t : State), exec (.txWrite a c vals) s = .next t → s.phase = .idle ∧ t.phase = .reset) ∧
  (∀ a c widths (s t : State), exec (.txRead a c widths) s = .next t → s.phase = .idle ∧
    (((∀ w ∈ widths, w = 1#8 ∨ w = 2#8 ∨ w = 4#8) ∧ t.phase = .reset) ∨
      ((∃ w ∈ widths, ¬ (w = 1#8 ∨ w = 2#8 ∨ w = 4#8)) ∧ t.EndsWith .invalidValue))) ∧
  (∀ (i : Instr) (s t : State), i.op ≠ 0x5#4 → i.op ≠ 0x6#4 → exec i s = .next t →
    s.phase = .idle ∧ t.phase = .idle) ∧
  ∀ s : State, s.phase ≠ .idle → ∃ t : State, step s = .next t ∧ s.TransitionRow t

/-- `60_exceptions.md` R212 and R222: in a legal state, a step of the sequencer whose stream calls include
one answered `io_fail` ends the operation with `IoFailure` at once, and no other step does. -/
def Obligations.IoFailureAbortsAtOnce : Prop :=
  ∀ s t : State, s.Legal → s.phase ≠ .idle → step s = .next t →
    ∃ events : List StreamEvent, t.history = s.history ++ events ∧
      (events.any StreamEvent.failed = true ↔ t.phase = .idle ∧ t.resCode = some .ioFailure) ∧
      (∀ e ∈ events.dropLast, e.failed = false)

/-! ## Whole transactions -/

/-- `60_exceptions.md` R220 (an inference the spec marks as its own): every transaction ends. From any
legal state inside one, at most `k + 5` steps per attempt still allowed lead to `Idle`, `k` the number of
fields, with at most `k + 4` stream calls per attempt. That every stream call is answered is the liveness
assumption of `70_reset_and_hazards.md` R263 (log 5). -/
def Obligations.TransactionTerminates : Prop :=
  ∀ s : State, s.Legal → s.phase ≠ .idle →
    ∃ n : Nat, n ≤ (s.cfgRetries.toNat - s.attempt.toNat + 1) * (s.fieldCount + 5) ∧
      (s.sequenceN n).phase = .idle ∧
      (s.sequenceN n).history.length ≤
        s.history.length + (s.cfgRetries.toNat - s.attempt.toNat + 1) * (s.fieldCount + 4)

/-- `41_framer_write.md` R123: TX_WRITE as a whole. From any state that accepts it, the sequencer runs to
`Idle` and leaves the result, the accumulator, the record of stream calls and the use of the environment's
answers exactly as the loop of R123 does; the configuration is unchanged. That it reaches `Idle` is the
liveness assumption of `70_reset_and_hazards.md` R263, the model's choice of answered calls (log 5). -/
def Obligations.TxWriteRunsItsAlgorithm : Prop :=
  ∀ (a c : Byte) (vals : List (BitVec 32)) (s : State),
    s.phase = .idle → s.linkOpen = true → s.cfgRetries ≠ 0#8 →
    (∀ m, s.params.maxFields = some m → vals.length ≤ m) →
    ∃ (s1 : State) (n : Nat), exec (.txWrite a c vals) s = .next s1 ∧
      let t := s1.sequenceN n
      let r := writeLoop a c vals s.cfgRetries.toNat s
      t.phase = .idle ∧ t.resCode = some r.1 ∧
      t.resCount = (if r.1 = .timeout then some s.cfgRetries else none) ∧
      t.resFld = some [] ∧ t.resVal = none ∧ t.resBytes = none ∧
      t.streamView = r.2.streamView ∧
      t.cfgAddress = s.cfgAddress ∧ t.cfgRetries = s.cfgRetries ∧ t.cfgTimeout = s.cfgTimeout ∧
      t.linkOpen = true ∧ t.port = s.port ∧ t.params = s.params

/-- `42_deframer_read.md` R152: TX_READ with legal widths as a whole, compared with the loop of R152 in the
same way; the fields are the loop's. That it reaches `Idle` is the liveness assumption of
`70_reset_and_hazards.md` R263, the model's choice of answered calls (log 5). -/
def Obligations.TxReadRunsItsAlgorithm : Prop :=
  ∀ (a c : Byte) (widths : List (BitVec 8)) (ws : List FieldWidth) (s : State),
    s.phase = .idle → s.linkOpen = true → s.cfgRetries ≠ 0#8 →
    (∀ m, s.params.maxFields = some m → widths.length ≤ m) →
    widths.map BitVec.toNat = ws.map FieldWidth.size →
    ∃ (s1 : State) (n : Nat), exec (.txRead a c widths) s = .next s1 ∧
      let t := s1.sequenceN n
      let r := readLoop a c ws s.cfgRetries.toNat .none s
      t.phase = .idle ∧ t.resCode = some r.1 ∧
      t.resCount = (if r.1 = .timeout then some s.cfgRetries else none) ∧
      t.resFld = some r.2.1 ∧ t.resVal = none ∧ t.resBytes = none ∧
      t.streamView = r.2.2.streamView ∧
      t.cfgAddress = s.cfgAddress ∧ t.cfgRetries = s.cfgRetries ∧ t.cfgTimeout = s.cfgTimeout ∧
      t.linkOpen = true ∧ t.port = s.port ∧ t.params = s.params

/-- `41_framer_write.md` R133 and R134 (inferences the spec marks as its own): the outcomes of TX_WRITE in
its stream trace. `Success` on attempt `j`: `j - 1` whole attempts without a `0xFF`, one with it, and `j`
copies of the frame have been sent. `Timeout`: `cfg_retries` whole attempts without a `0xFF`. `IoFailure` in
attempt `j`: `j - 1` whole attempts without a `0xFF`, and then the calls of an attempt up to one that was
answered `io_fail`. `crc` is the trailer's value after the first two; after the third it is what had been
fed: the value of before if the call was `StreamClear`, and otherwise the CRC of the bytes handed to the
calls of the attempt, the failed one included and the trailer not. In every outcome no field is shown and
the kind and the configuration are as they were. That the operation ends at all is the liveness assumption
of `70_reset_and_hazards.md` R263 (log 5). -/
def Obligations.TxWriteOutcomes : Prop :=
  ∀ (a c : Byte) (vals : List (BitVec 32)) (s s1 : State),
    s.linkOpen = true → s.cfgRetries ≠ 0#8 → exec (.txWrite a c vals) s = .next s1 →
    ∃ (n : Nat) (events : List StreamEvent),
      let t := s1.sequenceN n
      t.phase = .idle ∧ t.history = s.history ++ events ∧ t.resFld = some [] ∧ t.kind = .write ∧
      t.cfgAddress = s.cfgAddress ∧ t.cfgRetries = s.cfgRetries ∧ t.cfgTimeout = s.cfgTimeout ∧
      t.linkOpen = true ∧
      ((t.resCode = some .success ∧ t.resCount = none ∧ ∃ acks : List ReadResult,
          (∀ ack ∈ acks, notAcknowledged ack) ∧ acks.length + 1 = t.attempt.toNat ∧
          events = acks.flatMap (writeTrace a c vals) ++ writeTrace a c vals (.bytes [ackByte]) ∧
          sentBytes events = (List.replicate t.attempt.toNat (frameWrite a c vals)).flatten ∧
          t.crc = crcBytes crcInit (frameBody a c vals)) ∨
       (t.resCode = some .timeout ∧ t.resCount = some s.cfgRetries ∧ t.attempt = s.cfgRetries ∧
          ∃ acks : List ReadResult,
          (∀ ack ∈ acks, notAcknowledged ack) ∧ acks.length = s.cfgRetries.toNat ∧
          events = acks.flatMap (writeTrace a c vals) ∧
          sentBytes events = (List.replicate s.cfgRetries.toNat (frameWrite a c vals)).flatten ∧
          t.crc = crcBytes crcInit (frameBody a c vals)) ∨
       (t.resCode = some .ioFailure ∧ t.resCount = none ∧
          ∃ (acks : List ReadResult) (part : List StreamEvent) (call : StreamEvent)
            (rest : List StreamEvent) (accepted : Nat),
          (∀ ack ∈ acks, notAcknowledged ack) ∧ acks.length + 1 = t.attempt.toNat ∧
          writeTrace a c vals .timeout = part ++ call :: rest ∧
          events = acks.flatMap (writeTrace a c vals) ++ (part ++ [call.failing accepted]) ∧
          t.crc =
            if part = [] then if acks = [] then s.crc else crcBytes crcInit (frameBody a c vals)
            else crcBytes crcInit ((sentBytes (part ++ [call])).take (frameBody a c vals).length)))

/-- `42_deframer_read.md` R161 and R163 (inferences the spec marks as its own): whenever a TX_READ is over,
it has fields to show only after `Success`, and then its last attempt received exactly the field bytes
asked for and a trailer that is valid for this request, `res_fld` is what these bytes decode to, and `crc`
is zero. -/
def Obligations.SuccessfulReadIsVerified : Prop :=
  ∀ (a c : Byte) (widths : List (BitVec 8)) (ws : List FieldWidth) (s s1 : State) (n : Nat),
    s.linkOpen = true → s.cfgRetries ≠ 0#8 →
    widths.map BitVec.toNat = ws.map FieldWidth.size →
    exec (.txRead a c widths) s = .next s1 →
    let t := s1.sequenceN n
    t.phase = .idle →
    (t.resCode ≠ some .success → t.resFld = some []) ∧
    (t.resCode = some .success →
      ∃ (before : List StreamEvent) (fields : List (List Byte)) (trailer : List Byte),
        t.history = before ++ readTrace a c fields trailer ∧
        fields.map List.length = ws.map FieldWidth.size ∧ trailer.length = 2 ∧
        respValid a c fields trailer ∧ t.resFld = some (respFields fields) ∧ t.crc = 0x0000#16)

/-- `60_exceptions.md` R219 ("must attempt exactly `retries` times before failing with Timeout"): at every
point of a transaction the history shows exactly `attempt` Reset steps since acceptance, never more than
`cfg_retries`, and `Timeout` and a retried `CrcMismatch` come only after all of them. -/
def Obligations.AttemptsAreCounted : Prop :=
  ∀ (s : State) (n : Nat), s.Legal → s.phase = .reset → s.attempt = 0#8 →
    let t := s.sequenceN n
    attemptsIn t.history = attemptsIn s.history + t.attempt.toNat ∧
    t.attempt.toNat ≤ s.cfgRetries.toNat ∧
    (t.phase = .idle → t.resCode = some .timeout →
      t.attempt = s.cfgRetries ∧ t.resCount = some s.cfgRetries) ∧
    (t.phase = .idle → t.resCode = some .crcMismatch → s.params.mismatchPolicy = .retry →
      t.attempt = s.cfgRetries)

/-- `20_memory.md` R41: the link address and the command byte are passed through and no decision of a
write depends on them: two writes that differ in nothing else run through the same phases, attempts and
results, and use up the same answers, for any number of steps. -/
def Obligations.WriteIgnoresAddressAndCommand : Prop :=
  ∀ (s s' : State) (n : Nat), s.kind = .write → s.hideAddressing = s'.hideAddressing →
    (s.sequenceN n).hideAddressing = (s'.sequenceN n).hideAddressing

/-! ## Rules of the whole machine -/

/-- `10_state.md` R13: "No operation other than ENG_INIT writes these registers", and the configuration is
immutable once the link is open. That no step writes the parameters is the model's choice (log 8). -/
def Obligations.ConfigurationIsImmutable : Prop :=
  (∀ s t : State, step s = .next t → t.params = s.params ∧
    (s.linkOpen = true → t.cfgAddress = s.cfgAddress ∧ t.cfgRetries = s.cfgRetries ∧
      t.cfgTimeout = s.cfgTimeout ∧ t.linkOpen = true)) ∧
  ∀ (i : Instr) (s t : State), i.op ≠ 0x8#4 → exec i s = .next t →
    t.cfgAddress = s.cfgAddress ∧ t.cfgRetries = s.cfgRetries ∧ t.cfgTimeout = s.cfgTimeout ∧
    t.linkOpen = s.linkOpen

/-- `10_state.md` R17 and `20_memory.md` R57: during a transaction no request is taken from the port, and
the kind, the address, the command, the values and the widths latched at acceptance do not change. -/
def Obligations.LatchedOperandsStay : Prop :=
  ∀ s t : State, s.phase ≠ .idle → step s = .next t →
    t.port = s.port ∧ t.kind = s.kind ∧ t.opAddr = s.opAddr ∧ t.opCmd = s.opCmd ∧
    t.opVals = s.opVals ∧ t.opWidths = s.opWidths ∧ t.openAnswers = s.openAnswers

/-- `20_memory.md` R49 (the spec's decision D14), with R40, R52 and R53: in each phase of a transaction a
step makes exactly the calls R49 lists for it, in their order, appends them with their answers to the
history, and calls nothing else. The acceptance of an operation other than ENG_INIT makes no stream call
and uses up no answer. No step removes anything from the history or makes more than two calls; that a step
is one phase, so that two calls is the most, is the model's grain (log 12, D29). -/
def Obligations.StreamCallsOfEachPhase : Prop :=
  (∀ s t : State, s.phase ≠ .idle → step s = .next t → t.history = s.history ++ s.calls) ∧
  (∀ s t : State, step s = .next t →
    ∃ events : List StreamEvent, t.history = s.history ++ events ∧ events.length ≤ 2) ∧
  ∀ (i : Instr) (s t : State), i.op ≠ 0x8#4 → exec i s = .next t →
    t.history = s.history ∧ t.openAnswers = s.openAnswers ∧ t.clearAnswers = s.clearAnswers ∧
    t.writeAnswers = s.writeAnswers ∧ t.readAnswers = s.readAnswers ∧ t.freeIdx = s.freeIdx

/-- `60_exceptions.md` R211 (an inference the spec marks as its own): an operation that completes without
leaving `Idle` leaves one of its conditions, and a transaction leaves one of those of its kind. -/
def Obligations.ConditionsPerOperation : Prop :=
  (∀ (i : Instr) (s t : State), exec i s = .next t → t.phase = .idle →
    ∃ cond ∈ conditionsOf i, t.resCode = some cond) ∧
  (∀ s t : State, s.phase ≠ .idle → step s = .next t → t.phase = .idle → s.kind = .write →
    t.resCode = some .success ∨ t.resCode = some .timeout ∨ t.resCode = some .ioFailure) ∧
  (∀ s t : State, s.phase ≠ .idle → step s = .next t → t.phase = .idle → s.kind = .read →
    t.resCode = some .success ∨ t.resCode = some .timeout ∨ t.resCode = some .crcMismatch ∨
    t.resCode = some .ioFailure)

/-- `42_deframer_read.md` R159 and `60_exceptions.md` R217: no step shows field values but the one that
completes a read whose trailer matched, and these are the values decoded in that attempt. -/
def Obligations.FieldsOnlyAfterAMatchedTrailer : Prop :=
  ∀ (s t : State) (v : BitVec 32) (vs : List (BitVec 32)),
    step s = .next t → s.phase ≠ .idle → s.resFld = some [] → t.resFld = some (v :: vs) →
    s.phase = .trailerExchange ∧ s.kind = .read ∧ t.phase = .idle ∧ t.resCode = some .success ∧
    s.fld = v :: vs ∧ ∃ bs : List Byte, s.readResult 2 = .bytes bs ∧ trailerValue bs = s.crc

/-- `10_state.md` R11: the register is the CRC of exactly the bytes fed since the last explicit clear;
every step of the machine keeps this, the sequencer's included. -/
def Obligations.CrcIsOfTheBytesFed : Prop :=
  ∀ s t : State, s.crc = crcBytes 0x0000#16 s.fed → step s = .next t →
    t.crc = crcBytes 0x0000#16 t.fed

/-- The invariant of the machine, from `10_state.md` R11 to R15, `41_framer_write.md` R126 to R130,
`42_deframer_read.md` R157 to R159 and `60_exceptions.md` R217, R219 (`MAX_FIELDS` bounds the latched lists
where it is bounded, R14): every step from a legal state leads to a legal state, whatever the host requests
and the environment answers. -/
def Obligations.StepKeepsLegal : Prop :=
  ∀ s t : State, s.Legal → step s = .next t → t.Legal

/-- The state after reset is legal. -/
def Obligations.ResetIsLegal : Prop := State.reset.Legal

/-- `10_state.md` R23 and `70_reset_and_hazards.md` R250 (the spec's decision D12): what hardware reset
leaves, of the values the spec gives; the event on a running block leaves the stream alone. -/
def Obligations.HardwareReset : Prop :=
  (State.reset.crc = 0x0000#16 ∧ State.reset.phase = .idle ∧ State.reset.linkOpen = false ∧
    State.reset.resCode = none ∧ State.reset.resCount = none ∧ State.reset.resFld = none ∧
    State.reset.resVal = none ∧ State.reset.resBytes = none) ∧
  ∀ s : State,
    s.hardwareReset.crc = 0x0000#16 ∧ s.hardwareReset.phase = .idle ∧
    s.hardwareReset.linkOpen = false ∧ s.hardwareReset.resCode = none ∧
    s.hardwareReset.resCount = none ∧ s.hardwareReset.resFld = none ∧
    s.hardwareReset.resVal = none ∧ s.hardwareReset.resBytes = none ∧
    s.hardwareReset.history = s.history ∧ s.hardwareReset.readAnswers = s.readAnswers ∧
    s.hardwareReset.writeAnswers = s.writeAnswers ∧ s.hardwareReset.clearAnswers = s.clearAnswers ∧
    s.hardwareReset.openAnswers = s.openAnswers

/-! ## Requests at the command port -/

/-- One step of the machine: in `Idle` a request at the port is decoded and executed on the state without
its bytes, with none there the block waits, and bytes that spell no request are refused; during a
transaction the sequencer takes its next step (`10_state.md` R16, R17; the port is log 1 and log 2). -/
def Obligations.StepRunsTheDecodedRequest : Prop :=
  ∀ s : State,
    (s.phase = .idle →
      (∀ (i : Instr) (rest : List Byte), decode s.port = .ok (i, rest) →
        step s = exec i { s with port := rest }) ∧
      (s.port = [] → step s = .next s) ∧
      (∀ why : Reject, s.port ≠ [] → decode s.port = .error why →
        step s = .refused (.badRequest why))) ∧
    (s.phase ≠ .idle → step s = .next s.sequence)

/-- Decoding the encoding of any request gives it back, with every operand at every value, whatever bytes
follow (the layout is log 1; the operation-select code is `30_encoding.md` R80's). -/
def Obligations.DecodeInvertsEncode : Prop :=
  ∀ (i : Instr) (rest : List Byte), decode (encode i ++ rest) = .ok (i, rest)

/-- Every byte string that decodes is the encoding of what it decodes to: each request has one encoding,
and no bit of it is ignored (log 1). -/
def Obligations.EncodeInvertsDecode : Prop :=
  ∀ (bs rest : List Byte) (i : Instr), decode bs = .ok (i, rest) → bs = encode i ++ rest

/-- `30_encoding.md` R82 (U1): operation codes 0x9 to 0xF are refused by name. That the port holds bytes
and a step takes a request from it is the model's choice (log 2), and so is the place of the code in the
first byte (log 1). -/
def Obligations.ReservedCodesRefused : Prop :=
  ∀ (op : BitVec 4) (rest : List Byte) (s : State), 9 ≤ op.toNat →
    s.phase = .idle → s.port = op.setWidth 8 :: rest →
    step s = .refused (.badRequest (.reservedOp op))

/-- A word of each format, written out from `30_encoding.md` R80 and the layout of log 1, decodes to the
operation it stands for. -/
def Obligations.RequestWordsDecode : Prop :=
  decodeTableWord 8 0x0 = some .crcClear ∧
  decodeTableWord 16 0xFF01 = some (.crcUpdate 0xFF#8) ∧
  decodeTableWord 8 0x2 = some .crcGet ∧
  decodeTableWord 40 0x2C01000003 = some (.fldEnc 300#32) ∧
  decodeTableWord 56 0x002C0101010204 = some (.fldDec 2#8 [0x01#8, 0x2C#8]) ∧
  decodeTableWord 72 0x004000000001008005 = some (.txWrite 0x80#8 0x00#8 [64#32]) ∧
  decodeTableWord 64 0x0001010401108006 = some (.txRead 0x80#8 0x10#8 [4#8, 1#8]) ∧
  decodeTableWord 112 0x80001BB70000CA9A3B0000000007 =
    some (.posRecon 1000000000#64 12000000#32 0x80#8) ∧
  decodeTableWord 48 0x028000000008 = some (.engInit [] [] [] 0x80#8 2#8) ∧
  decodeTableWord 8 0x9 = none ∧ decodeTableWord 8 0xF = none
end

