-- ==== Sys2Proof/Laws/State.lean ====
section
/-! SUPPORT. What each named update of State does to each field, true by `rfl`, so that no proof unfolds a
record update. -/

namespace Sys2Proof.Machine

variable (s : State)

/-! ### `feed` -/

@[simp] theorem State.feed_crc (bs : List Byte) : (s.feed bs).crc = crcBytes s.crc bs := rfl
@[simp] theorem State.feed_cfgAddress (bs : List Byte) : (s.feed bs).cfgAddress = s.cfgAddress := rfl
@[simp] theorem State.feed_cfgRetries (bs : List Byte) : (s.feed bs).cfgRetries = s.cfgRetries := rfl
@[simp] theorem State.feed_cfgTimeout (bs : List Byte) : (s.feed bs).cfgTimeout = s.cfgTimeout := rfl
@[simp] theorem State.feed_linkOpen (bs : List Byte) : (s.feed bs).linkOpen = s.linkOpen := rfl
@[simp] theorem State.feed_phase (bs : List Byte) : (s.feed bs).phase = s.phase := rfl
@[simp] theorem State.feed_kind (bs : List Byte) : (s.feed bs).kind = s.kind := rfl
@[simp] theorem State.feed_attempt (bs : List Byte) : (s.feed bs).attempt = s.attempt := rfl
@[simp] theorem State.feed_fidx (bs : List Byte) : (s.feed bs).fidx = s.fidx := rfl
@[simp] theorem State.feed_lastFail (bs : List Byte) : (s.feed bs).lastFail = s.lastFail := rfl
@[simp] theorem State.feed_opAddr (bs : List Byte) : (s.feed bs).opAddr = s.opAddr := rfl
@[simp] theorem State.feed_opCmd (bs : List Byte) : (s.feed bs).opCmd = s.opCmd := rfl
@[simp] theorem State.feed_opVals (bs : List Byte) : (s.feed bs).opVals = s.opVals := rfl
@[simp] theorem State.feed_opWidths (bs : List Byte) : (s.feed bs).opWidths = s.opWidths := rfl
@[simp] theorem State.feed_fld (bs : List Byte) : (s.feed bs).fld = s.fld := rfl
@[simp] theorem State.feed_crcPre (bs : List Byte) : (s.feed bs).crcPre = s.crcPre := rfl
@[simp] theorem State.feed_resCode (bs : List Byte) : (s.feed bs).resCode = s.resCode := rfl
@[simp] theorem State.feed_resCount (bs : List Byte) : (s.feed bs).resCount = s.resCount := rfl
@[simp] theorem State.feed_resFld (bs : List Byte) : (s.feed bs).resFld = s.resFld := rfl
@[simp] theorem State.feed_resVal (bs : List Byte) : (s.feed bs).resVal = s.resVal := rfl
@[simp] theorem State.feed_resBytes (bs : List Byte) : (s.feed bs).resBytes = s.resBytes := rfl
@[simp] theorem State.feed_fed (bs : List Byte) : (s.feed bs).fed = s.fed ++ bs := rfl
@[simp] theorem State.feed_history (bs : List Byte) : (s.feed bs).history = s.history := rfl
@[simp] theorem State.feed_params (bs : List Byte) : (s.feed bs).params = s.params := rfl
@[simp] theorem State.feed_port (bs : List Byte) : (s.feed bs).port = s.port := rfl
@[simp] theorem State.feed_openAnswers (bs : List Byte) : (s.feed bs).openAnswers = s.openAnswers := rfl
@[simp] theorem State.feed_clearAnswers (bs : List Byte) : (s.feed bs).clearAnswers = s.clearAnswers := rfl
@[simp] theorem State.feed_writeAnswers (bs : List Byte) : (s.feed bs).writeAnswers = s.writeAnswers := rfl
@[simp] theorem State.feed_readAnswers (bs : List Byte) : (s.feed bs).readAnswers = s.readAnswers := rfl
@[simp] theorem State.feed_freeIdx (bs : List Byte) : (s.feed bs).freeIdx = s.freeIdx := rfl
@[simp] theorem State.feed_clearAnswer (bs : List Byte) : (s.feed bs).clearAnswer = s.clearAnswer := rfl
@[simp] theorem State.feed_writeAnswer (bs : List Byte) : (s.feed bs).writeAnswer = s.writeAnswer := rfl
@[simp] theorem State.feed_readResult (bs : List Byte) (k : Nat) : (s.feed bs).readResult k = s.readResult k := rfl
@[simp] theorem State.feed_openAnswer (bs : List Byte) : (s.feed bs).openAnswer = s.openAnswer := rfl

/-! ### `clearCrc` -/

@[simp] theorem State.clearCrc_crc : s.clearCrc.crc = crcInit := rfl
@[simp] theorem State.clearCrc_cfgAddress : s.clearCrc.cfgAddress = s.cfgAddress := rfl
@[simp] theorem State.clearCrc_cfgRetries : s.clearCrc.cfgRetries = s.cfgRetries := rfl
@[simp] theorem State.clearCrc_cfgTimeout : s.clearCrc.cfgTimeout = s.cfgTimeout := rfl
@[simp] theorem State.clearCrc_linkOpen : s.clearCrc.linkOpen = s.linkOpen := rfl
@[simp] theorem State.clearCrc_phase : s.clearCrc.phase = s.phase := rfl
@[simp] theorem State.clearCrc_kind : s.clearCrc.kind = s.kind := rfl
@[simp] theorem State.clearCrc_attempt : s.clearCrc.attempt = s.attempt := rfl
@[simp] theorem State.clearCrc_fidx : s.clearCrc.fidx = s.fidx := rfl
@[simp] theorem State.clearCrc_lastFail : s.clearCrc.lastFail = s.lastFail := rfl
@[simp] theorem State.clearCrc_opAddr : s.clearCrc.opAddr = s.opAddr := rfl
@[simp] theorem State.clearCrc_opCmd : s.clearCrc.opCmd = s.opCmd := rfl
@[simp] theorem State.clearCrc_opVals : s.clearCrc.opVals = s.opVals := rfl
@[simp] theorem State.clearCrc_opWidths : s.clearCrc.opWidths = s.opWidths := rfl
@[simp] theorem State.clearCrc_fld : s.clearCrc.fld = s.fld := rfl
@[simp] theorem State.clearCrc_crcPre : s.clearCrc.crcPre = s.crcPre := rfl
@[simp] theorem State.clearCrc_resCode : s.clearCrc.resCode = s.resCode := rfl
@[simp] theorem State.clearCrc_resCount : s.clearCrc.resCount = s.resCount := rfl
@[simp] theorem State.clearCrc_resFld : s.clearCrc.resFld = s.resFld := rfl
@[simp] theorem State.clearCrc_resVal : s.clearCrc.resVal = s.resVal := rfl
@[simp] theorem State.clearCrc_resBytes : s.clearCrc.resBytes = s.resBytes := rfl
@[simp] theorem State.clearCrc_fed : s.clearCrc.fed = [] := rfl
@[simp] theorem State.clearCrc_history : s.clearCrc.history = s.history := rfl
@[simp] theorem State.clearCrc_params : s.clearCrc.params = s.params := rfl
@[simp] theorem State.clearCrc_port : s.clearCrc.port = s.port := rfl
@[simp] theorem State.clearCrc_openAnswers : s.clearCrc.openAnswers = s.openAnswers := rfl
@[simp] theorem State.clearCrc_clearAnswers : s.clearCrc.clearAnswers = s.clearAnswers := rfl
@[simp] theorem State.clearCrc_writeAnswers : s.clearCrc.writeAnswers = s.writeAnswers := rfl
@[simp] theorem State.clearCrc_readAnswers : s.clearCrc.readAnswers = s.readAnswers := rfl
@[simp] theorem State.clearCrc_freeIdx : s.clearCrc.freeIdx = s.freeIdx := rfl
@[simp] theorem State.clearCrc_clearAnswer : s.clearCrc.clearAnswer = s.clearAnswer := rfl
@[simp] theorem State.clearCrc_writeAnswer : s.clearCrc.writeAnswer = s.writeAnswer := rfl
@[simp] theorem State.clearCrc_readResult (k : Nat) : s.clearCrc.readResult k = s.readResult k := rfl
@[simp] theorem State.clearCrc_openAnswer : s.clearCrc.openAnswer = s.openAnswer := rfl

/-! ### `afterOpen` -/

@[simp] theorem State.afterOpen_crc (p b t : OpaqueValue) : (s.afterOpen p b t).crc = s.crc := rfl
@[simp] theorem State.afterOpen_cfgAddress (p b t : OpaqueValue) : (s.afterOpen p b t).cfgAddress = s.cfgAddress := rfl
@[simp] theorem State.afterOpen_cfgRetries (p b t : OpaqueValue) : (s.afterOpen p b t).cfgRetries = s.cfgRetries := rfl
@[simp] theorem State.afterOpen_cfgTimeout (p b t : OpaqueValue) : (s.afterOpen p b t).cfgTimeout = s.cfgTimeout := rfl
@[simp] theorem State.afterOpen_linkOpen (p b t : OpaqueValue) : (s.afterOpen p b t).linkOpen = s.linkOpen := rfl
@[simp] theorem State.afterOpen_phase (p b t : OpaqueValue) : (s.afterOpen p b t).phase = s.phase := rfl
@[simp] theorem State.afterOpen_kind (p b t : OpaqueValue) : (s.afterOpen p b t).kind = s.kind := rfl
@[simp] theorem State.afterOpen_attempt (p b t : OpaqueValue) : (s.afterOpen p b t).attempt = s.attempt := rfl
@[simp] theorem State.afterOpen_fidx (p b t : OpaqueValue) : (s.afterOpen p b t).fidx = s.fidx := rfl
@[simp] theorem State.afterOpen_lastFail (p b t : OpaqueValue) : (s.afterOpen p b t).lastFail = s.lastFail := rfl
@[simp] theorem State.afterOpen_opAddr (p b t : OpaqueValue) : (s.afterOpen p b t).opAddr = s.opAddr := rfl
@[simp] theorem State.afterOpen_opCmd (p b t : OpaqueValue) : (s.afterOpen p b t).opCmd = s.opCmd := rfl
@[simp] theorem State.afterOpen_opVals (p b t : OpaqueValue) : (s.afterOpen p b t).opVals = s.opVals := rfl
@[simp] theorem State.afterOpen_opWidths (p b t : OpaqueValue) : (s.afterOpen p b t).opWidths = s.opWidths := rfl
@[simp] theorem State.afterOpen_fld (p b t : OpaqueValue) : (s.afterOpen p b t).fld = s.fld := rfl
@[simp] theorem State.afterOpen_crcPre (p b t : OpaqueValue) : (s.afterOpen p b t).crcPre = s.crcPre := rfl
@[simp] theorem State.afterOpen_resCode (p b t : OpaqueValue) : (s.afterOpen p b t).resCode = s.resCode := rfl
@[simp] theorem State.afterOpen_resCount (p b t : OpaqueValue) : (s.afterOpen p b t).resCount = s.resCount := rfl
@[simp] theorem State.afterOpen_resFld (p b t : OpaqueValue) : (s.afterOpen p b t).resFld = s.resFld := rfl
@[simp] theorem State.afterOpen_resVal (p b t : OpaqueValue) : (s.afterOpen p b t).resVal = s.resVal := rfl
@[simp] theorem State.afterOpen_resBytes (p b t : OpaqueValue) : (s.afterOpen p b t).resBytes = s.resBytes := rfl
@[simp] theorem State.afterOpen_fed (p b t : OpaqueValue) : (s.afterOpen p b t).fed = s.fed := rfl
@[simp] theorem State.afterOpen_history (p b t : OpaqueValue) : (s.afterOpen p b t).history = s.history ++ [.opened p b t s.openAnswer] := rfl
@[simp] theorem State.afterOpen_params (p b t : OpaqueValue) : (s.afterOpen p b t).params = s.params := rfl
@[simp] theorem State.afterOpen_port (p b t : OpaqueValue) : (s.afterOpen p b t).port = s.port := rfl
@[simp] theorem State.afterOpen_openAnswers (p b t : OpaqueValue) : (s.afterOpen p b t).openAnswers = s.openAnswers.tail := rfl
@[simp] theorem State.afterOpen_clearAnswers (p b t : OpaqueValue) : (s.afterOpen p b t).clearAnswers = s.clearAnswers := rfl
@[simp] theorem State.afterOpen_writeAnswers (p b t : OpaqueValue) : (s.afterOpen p b t).writeAnswers = s.writeAnswers := rfl
@[simp] theorem State.afterOpen_readAnswers (p b t : OpaqueValue) : (s.afterOpen p b t).readAnswers = s.readAnswers := rfl
@[simp] theorem State.afterOpen_freeIdx (p b t : OpaqueValue) : (s.afterOpen p b t).freeIdx = if s.openAnswers.isEmpty then s.freeIdx + 1 else s.freeIdx := rfl

/-! ### `afterClear` -/

@[simp] theorem State.afterClear_crc : s.afterClear.crc = s.crc := rfl
@[simp] theorem State.afterClear_cfgAddress : s.afterClear.cfgAddress = s.cfgAddress := rfl
@[simp] theorem State.afterClear_cfgRetries : s.afterClear.cfgRetries = s.cfgRetries := rfl
@[simp] theorem State.afterClear_cfgTimeout : s.afterClear.cfgTimeout = s.cfgTimeout := rfl
@[simp] theorem State.afterClear_linkOpen : s.afterClear.linkOpen = s.linkOpen := rfl
@[simp] theorem State.afterClear_phase : s.afterClear.phase = s.phase := rfl
@[simp] theorem State.afterClear_kind : s.afterClear.kind = s.kind := rfl
@[simp] theorem State.afterClear_attempt : s.afterClear.attempt = s.attempt := rfl
@[simp] theorem State.afterClear_fidx : s.afterClear.fidx = s.fidx := rfl
@[simp] theorem State.afterClear_lastFail : s.afterClear.lastFail = s.lastFail := rfl
@[simp] theorem State.afterClear_opAddr : s.afterClear.opAddr = s.opAddr := rfl
@[simp] theorem State.afterClear_opCmd : s.afterClear.opCmd = s.opCmd := rfl
@[simp] theorem State.afterClear_opVals : s.afterClear.opVals = s.opVals := rfl
@[simp] theorem State.afterClear_opWidths : s.afterClear.opWidths = s.opWidths := rfl
@[simp] theorem State.afterClear_fld : s.afterClear.fld = s.fld := rfl
@[simp] theorem State.afterClear_crcPre : s.afterClear.crcPre = s.crcPre := rfl
@[simp] theorem State.afterClear_resCode : s.afterClear.resCode = s.resCode := rfl
@[simp] theorem State.afterClear_resCount : s.afterClear.resCount = s.resCount := rfl
@[simp] theorem State.afterClear_resFld : s.afterClear.resFld = s.resFld := rfl
@[simp] theorem State.afterClear_resVal : s.afterClear.resVal = s.resVal := rfl
@[simp] theorem State.afterClear_resBytes : s.afterClear.resBytes = s.resBytes := rfl
@[simp] theorem State.afterClear_fed : s.afterClear.fed = s.fed := rfl
@[simp] theorem State.afterClear_history : s.afterClear.history = s.history ++ [.cleared s.clearAnswer] := rfl
@[simp] theorem State.afterClear_params : s.afterClear.params = s.params := rfl
@[simp] theorem State.afterClear_port : s.afterClear.port = s.port := rfl
@[simp] theorem State.afterClear_openAnswers : s.afterClear.openAnswers = s.openAnswers := rfl
@[simp] theorem State.afterClear_clearAnswers : s.afterClear.clearAnswers = s.clearAnswers.tail := rfl
@[simp] theorem State.afterClear_writeAnswers : s.afterClear.writeAnswers = s.writeAnswers := rfl
@[simp] theorem State.afterClear_readAnswers : s.afterClear.readAnswers = s.readAnswers := rfl
@[simp] theorem State.afterClear_freeIdx : s.afterClear.freeIdx = if s.clearAnswers.isEmpty then s.freeIdx + 1 else s.freeIdx := rfl

/-! ### `afterWrite` -/

@[simp] theorem State.afterWrite_crc (bs : List Byte) : (s.afterWrite bs).crc = s.crc := rfl
@[simp] theorem State.afterWrite_cfgAddress (bs : List Byte) : (s.afterWrite bs).cfgAddress = s.cfgAddress := rfl
@[simp] theorem State.afterWrite_cfgRetries (bs : List Byte) : (s.afterWrite bs).cfgRetries = s.cfgRetries := rfl
@[simp] theorem State.afterWrite_cfgTimeout (bs : List Byte) : (s.afterWrite bs).cfgTimeout = s.cfgTimeout := rfl
@[simp] theorem State.afterWrite_linkOpen (bs : List Byte) : (s.afterWrite bs).linkOpen = s.linkOpen := rfl
@[simp] theorem State.afterWrite_phase (bs : List Byte) : (s.afterWrite bs).phase = s.phase := rfl
@[simp] theorem State.afterWrite_kind (bs : List Byte) : (s.afterWrite bs).kind = s.kind := rfl
@[simp] theorem State.afterWrite_attempt (bs : List Byte) : (s.afterWrite bs).attempt = s.attempt := rfl
@[simp] theorem State.afterWrite_fidx (bs : List Byte) : (s.afterWrite bs).fidx = s.fidx := rfl
@[simp] theorem State.afterWrite_lastFail (bs : List Byte) : (s.afterWrite bs).lastFail = s.lastFail := rfl
@[simp] theorem State.afterWrite_opAddr (bs : List Byte) : (s.afterWrite bs).opAddr = s.opAddr := rfl
@[simp] theorem State.afterWrite_opCmd (bs : List Byte) : (s.afterWrite bs).opCmd = s.opCmd := rfl
@[simp] theorem State.afterWrite_opVals (bs : List Byte) : (s.afterWrite bs).opVals = s.opVals := rfl
@[simp] theorem State.afterWrite_opWidths (bs : List Byte) : (s.afterWrite bs).opWidths = s.opWidths := rfl
@[simp] theorem State.afterWrite_fld (bs : List Byte) : (s.afterWrite bs).fld = s.fld := rfl
@[simp] theorem State.afterWrite_crcPre (bs : List Byte) : (s.afterWrite bs).crcPre = s.crcPre := rfl
@[simp] theorem State.afterWrite_resCode (bs : List Byte) : (s.afterWrite bs).resCode = s.resCode := rfl
@[simp] theorem State.afterWrite_resCount (bs : List Byte) : (s.afterWrite bs).resCount = s.resCount := rfl
@[simp] theorem State.afterWrite_resFld (bs : List Byte) : (s.afterWrite bs).resFld = s.resFld := rfl
@[simp] theorem State.afterWrite_resVal (bs : List Byte) : (s.afterWrite bs).resVal = s.resVal := rfl
@[simp] theorem State.afterWrite_resBytes (bs : List Byte) : (s.afterWrite bs).resBytes = s.resBytes := rfl
@[simp] theorem State.afterWrite_fed (bs : List Byte) : (s.afterWrite bs).fed = s.fed := rfl
@[simp] theorem State.afterWrite_history (bs : List Byte) : (s.afterWrite bs).history = s.history ++ [.wrote bs s.writeAnswer] := rfl
@[simp] theorem State.afterWrite_params (bs : List Byte) : (s.afterWrite bs).params = s.params := rfl
@[simp] theorem State.afterWrite_port (bs : List Byte) : (s.afterWrite bs).port = s.port := rfl
@[simp] theorem State.afterWrite_openAnswers (bs : List Byte) : (s.afterWrite bs).openAnswers = s.openAnswers := rfl
@[simp] theorem State.afterWrite_clearAnswers (bs : List Byte) : (s.afterWrite bs).clearAnswers = s.clearAnswers := rfl
@[simp] theorem State.afterWrite_writeAnswers (bs : List Byte) : (s.afterWrite bs).writeAnswers = s.writeAnswers.tail := rfl
@[simp] theorem State.afterWrite_readAnswers (bs : List Byte) : (s.afterWrite bs).readAnswers = s.readAnswers := rfl
@[simp] theorem State.afterWrite_freeIdx (bs : List Byte) : (s.afterWrite bs).freeIdx = if s.writeAnswers.isEmpty then s.freeIdx + 1 else s.freeIdx := rfl

/-! ### `afterRead` -/

@[simp] theorem State.afterRead_crc (n : Nat) : (s.afterRead n).crc = s.crc := rfl
@[simp] theorem State.afterRead_cfgAddress (n : Nat) : (s.afterRead n).cfgAddress = s.cfgAddress := rfl
@[simp] theorem State.afterRead_cfgRetries (n : Nat) : (s.afterRead n).cfgRetries = s.cfgRetries := rfl
@[simp] theorem State.afterRead_cfgTimeout (n : Nat) : (s.afterRead n).cfgTimeout = s.cfgTimeout := rfl
@[simp] theorem State.afterRead_linkOpen (n : Nat) : (s.afterRead n).linkOpen = s.linkOpen := rfl
@[simp] theorem State.afterRead_phase (n : Nat) : (s.afterRead n).phase = s.phase := rfl
@[simp] theorem State.afterRead_kind (n : Nat) : (s.afterRead n).kind = s.kind := rfl
@[simp] theorem State.afterRead_attempt (n : Nat) : (s.afterRead n).attempt = s.attempt := rfl
@[simp] theorem State.afterRead_fidx (n : Nat) : (s.afterRead n).fidx = s.fidx := rfl
@[simp] theorem State.afterRead_lastFail (n : Nat) : (s.afterRead n).lastFail = s.lastFail := rfl
@[simp] theorem State.afterRead_opAddr (n : Nat) : (s.afterRead n).opAddr = s.opAddr := rfl
@[simp] theorem State.afterRead_opCmd (n : Nat) : (s.afterRead n).opCmd = s.opCmd := rfl
@[simp] theorem State.afterRead_opVals (n : Nat) : (s.afterRead n).opVals = s.opVals := rfl
@[simp] theorem State.afterRead_opWidths (n : Nat) : (s.afterRead n).opWidths = s.opWidths := rfl
@[simp] theorem State.afterRead_fld (n : Nat) : (s.afterRead n).fld = s.fld := rfl
@[simp] theorem State.afterRead_crcPre (n : Nat) : (s.afterRead n).crcPre = s.crcPre := rfl
@[simp] theorem State.afterRead_resCode (n : Nat) : (s.afterRead n).resCode = s.resCode := rfl
@[simp] theorem State.afterRead_resCount (n : Nat) : (s.afterRead n).resCount = s.resCount := rfl
@[simp] theorem State.afterRead_resFld (n : Nat) : (s.afterRead n).resFld = s.resFld := rfl
@[simp] theorem State.afterRead_resVal (n : Nat) : (s.afterRead n).resVal = s.resVal := rfl
@[simp] theorem State.afterRead_resBytes (n : Nat) : (s.afterRead n).resBytes = s.resBytes := rfl
@[simp] theorem State.afterRead_fed (n : Nat) : (s.afterRead n).fed = s.fed := rfl
@[simp] theorem State.afterRead_history (n : Nat) : (s.afterRead n).history = s.history ++ [.read n (s.readResult n)] := rfl
@[simp] theorem State.afterRead_params (n : Nat) : (s.afterRead n).params = s.params := rfl
@[simp] theorem State.afterRead_port (n : Nat) : (s.afterRead n).port = s.port := rfl
@[simp] theorem State.afterRead_openAnswers (n : Nat) : (s.afterRead n).openAnswers = s.openAnswers := rfl
@[simp] theorem State.afterRead_clearAnswers (n : Nat) : (s.afterRead n).clearAnswers = s.clearAnswers := rfl
@[simp] theorem State.afterRead_writeAnswers (n : Nat) : (s.afterRead n).writeAnswers = s.writeAnswers := rfl
@[simp] theorem State.afterRead_readAnswers (n : Nat) : (s.afterRead n).readAnswers = s.readAnswers.tail := rfl
@[simp] theorem State.afterRead_freeIdx (n : Nat) : (s.afterRead n).freeIdx = if s.readAnswers.isEmpty then s.freeIdx + 1 else s.freeIdx := rfl

/-! ### `loseResults` -/

@[simp] theorem State.loseResults_crc : s.loseResults.crc = s.crc := rfl
@[simp] theorem State.loseResults_cfgAddress : s.loseResults.cfgAddress = s.cfgAddress := rfl
@[simp] theorem State.loseResults_cfgRetries : s.loseResults.cfgRetries = s.cfgRetries := rfl
@[simp] theorem State.loseResults_cfgTimeout : s.loseResults.cfgTimeout = s.cfgTimeout := rfl
@[simp] theorem State.loseResults_linkOpen : s.loseResults.linkOpen = s.linkOpen := rfl
@[simp] theorem State.loseResults_phase : s.loseResults.phase = s.phase := rfl
@[simp] theorem State.loseResults_kind : s.loseResults.kind = s.kind := rfl
@[simp] theorem State.loseResults_attempt : s.loseResults.attempt = s.attempt := rfl
@[simp] theorem State.loseResults_fidx : s.loseResults.fidx = s.fidx := rfl
@[simp] theorem State.loseResults_lastFail : s.loseResults.lastFail = s.lastFail := rfl
@[simp] theorem State.loseResults_opAddr : s.loseResults.opAddr = s.opAddr := rfl
@[simp] theorem State.loseResults_opCmd : s.loseResults.opCmd = s.opCmd := rfl
@[simp] theorem State.loseResults_opVals : s.loseResults.opVals = s.opVals := rfl
@[simp] theorem State.loseResults_opWidths : s.loseResults.opWidths = s.opWidths := rfl
@[simp] theorem State.loseResults_fld : s.loseResults.fld = s.fld := rfl
@[simp] theorem State.loseResults_crcPre : s.loseResults.crcPre = s.crcPre := rfl
@[simp] theorem State.loseResults_resCode : s.loseResults.resCode = none := rfl
@[simp] theorem State.loseResults_resCount : s.loseResults.resCount = none := rfl
@[simp] theorem State.loseResults_resFld : s.loseResults.resFld = none := rfl
@[simp] theorem State.loseResults_resVal : s.loseResults.resVal = none := rfl
@[simp] theorem State.loseResults_resBytes : s.loseResults.resBytes = none := rfl
@[simp] theorem State.loseResults_fed : s.loseResults.fed = s.fed := rfl
@[simp] theorem State.loseResults_history : s.loseResults.history = s.history := rfl
@[simp] theorem State.loseResults_params : s.loseResults.params = s.params := rfl
@[simp] theorem State.loseResults_port : s.loseResults.port = s.port := rfl
@[simp] theorem State.loseResults_openAnswers : s.loseResults.openAnswers = s.openAnswers := rfl
@[simp] theorem State.loseResults_clearAnswers : s.loseResults.clearAnswers = s.clearAnswers := rfl
@[simp] theorem State.loseResults_writeAnswers : s.loseResults.writeAnswers = s.writeAnswers := rfl
@[simp] theorem State.loseResults_readAnswers : s.loseResults.readAnswers = s.readAnswers := rfl
@[simp] theorem State.loseResults_freeIdx : s.loseResults.freeIdx = s.freeIdx := rfl
@[simp] theorem State.loseResults_clearAnswer : s.loseResults.clearAnswer = s.clearAnswer := rfl
@[simp] theorem State.loseResults_writeAnswer : s.loseResults.writeAnswer = s.writeAnswer := rfl
@[simp] theorem State.loseResults_readResult (k : Nat) : s.loseResults.readResult k = s.readResult k := rfl
@[simp] theorem State.loseResults_openAnswer : s.loseResults.openAnswer = s.openAnswer := rfl

/-! ### `endOperation` -/

@[simp] theorem State.endOperation_crc (c : Condition) : (s.endOperation c).crc = s.crc := rfl
@[simp] theorem State.endOperation_cfgAddress (c : Condition) : (s.endOperation c).cfgAddress = s.cfgAddress := rfl
@[simp] theorem State.endOperation_cfgRetries (c : Condition) : (s.endOperation c).cfgRetries = s.cfgRetries := rfl
@[simp] theorem State.endOperation_cfgTimeout (c : Condition) : (s.endOperation c).cfgTimeout = s.cfgTimeout := rfl
@[simp] theorem State.endOperation_linkOpen (c : Condition) : (s.endOperation c).linkOpen = s.linkOpen := rfl
@[simp] theorem State.endOperation_phase (c : Condition) : (s.endOperation c).phase = s.phase := rfl
@[simp] theorem State.endOperation_kind (c : Condition) : (s.endOperation c).kind = s.kind := rfl
@[simp] theorem State.endOperation_attempt (c : Condition) : (s.endOperation c).attempt = s.attempt := rfl
@[simp] theorem State.endOperation_fidx (c : Condition) : (s.endOperation c).fidx = s.fidx := rfl
@[simp] theorem State.endOperation_lastFail (c : Condition) : (s.endOperation c).lastFail = s.lastFail := rfl
@[simp] theorem State.endOperation_opAddr (c : Condition) : (s.endOperation c).opAddr = s.opAddr := rfl
@[simp] theorem State.endOperation_opCmd (c : Condition) : (s.endOperation c).opCmd = s.opCmd := rfl
@[simp] theorem State.endOperation_opVals (c : Condition) : (s.endOperation c).opVals = s.opVals := rfl
@[simp] theorem State.endOperation_opWidths (c : Condition) : (s.endOperation c).opWidths = s.opWidths := rfl
@[simp] theorem State.endOperation_fld (c : Condition) : (s.endOperation c).fld = s.fld := rfl
@[simp] theorem State.endOperation_crcPre (c : Condition) : (s.endOperation c).crcPre = s.crcPre := rfl
@[simp] theorem State.endOperation_resCode (c : Condition) : (s.endOperation c).resCode = some c := rfl
@[simp] theorem State.endOperation_resCount (c : Condition) : (s.endOperation c).resCount = s.resCount := rfl
@[simp] theorem State.endOperation_resFld (c : Condition) : (s.endOperation c).resFld = s.resFld := rfl
@[simp] theorem State.endOperation_resVal (c : Condition) : (s.endOperation c).resVal = s.resVal := rfl
@[simp] theorem State.endOperation_resBytes (c : Condition) : (s.endOperation c).resBytes = s.resBytes := rfl
@[simp] theorem State.endOperation_fed (c : Condition) : (s.endOperation c).fed = s.fed := rfl
@[simp] theorem State.endOperation_history (c : Condition) : (s.endOperation c).history = s.history := rfl
@[simp] theorem State.endOperation_params (c : Condition) : (s.endOperation c).params = s.params := rfl
@[simp] theorem State.endOperation_port (c : Condition) : (s.endOperation c).port = s.port := rfl
@[simp] theorem State.endOperation_openAnswers (c : Condition) : (s.endOperation c).openAnswers = s.openAnswers := rfl
@[simp] theorem State.endOperation_clearAnswers (c : Condition) : (s.endOperation c).clearAnswers = s.clearAnswers := rfl
@[simp] theorem State.endOperation_writeAnswers (c : Condition) : (s.endOperation c).writeAnswers = s.writeAnswers := rfl
@[simp] theorem State.endOperation_readAnswers (c : Condition) : (s.endOperation c).readAnswers = s.readAnswers := rfl
@[simp] theorem State.endOperation_freeIdx (c : Condition) : (s.endOperation c).freeIdx = s.freeIdx := rfl
@[simp] theorem State.endOperation_clearAnswer (c : Condition) : (s.endOperation c).clearAnswer = s.clearAnswer := rfl
@[simp] theorem State.endOperation_writeAnswer (c : Condition) : (s.endOperation c).writeAnswer = s.writeAnswer := rfl
@[simp] theorem State.endOperation_readResult (c : Condition) (k : Nat) : (s.endOperation c).readResult k = s.readResult k := rfl
@[simp] theorem State.endOperation_openAnswer (c : Condition) : (s.endOperation c).openAnswer = s.openAnswer := rfl

/-! ### `endTransaction` -/

@[simp] theorem State.endTransaction_crc (c : Condition) : (s.endTransaction c).crc = s.crc := rfl
@[simp] theorem State.endTransaction_cfgAddress (c : Condition) : (s.endTransaction c).cfgAddress = s.cfgAddress := rfl
@[simp] theorem State.endTransaction_cfgRetries (c : Condition) : (s.endTransaction c).cfgRetries = s.cfgRetries := rfl
@[simp] theorem State.endTransaction_cfgTimeout (c : Condition) : (s.endTransaction c).cfgTimeout = s.cfgTimeout := rfl
@[simp] theorem State.endTransaction_linkOpen (c : Condition) : (s.endTransaction c).linkOpen = s.linkOpen := rfl
@[simp] theorem State.endTransaction_phase (c : Condition) : (s.endTransaction c).phase = .idle := rfl
@[simp] theorem State.endTransaction_kind (c : Condition) : (s.endTransaction c).kind = s.kind := rfl
@[simp] theorem State.endTransaction_attempt (c : Condition) : (s.endTransaction c).attempt = s.attempt := rfl
@[simp] theorem State.endTransaction_fidx (c : Condition) : (s.endTransaction c).fidx = s.fidx := rfl
@[simp] theorem State.endTransaction_lastFail (c : Condition) : (s.endTransaction c).lastFail = s.lastFail := rfl
@[simp] theorem State.endTransaction_opAddr (c : Condition) : (s.endTransaction c).opAddr = s.opAddr := rfl
@[simp] theorem State.endTransaction_opCmd (c : Condition) : (s.endTransaction c).opCmd = s.opCmd := rfl
@[simp] theorem State.endTransaction_opVals (c : Condition) : (s.endTransaction c).opVals = s.opVals := rfl
@[simp] theorem State.endTransaction_opWidths (c : Condition) : (s.endTransaction c).opWidths = s.opWidths := rfl
@[simp] theorem State.endTransaction_fld (c : Condition) : (s.endTransaction c).fld = s.fld := rfl
@[simp] theorem State.endTransaction_crcPre (c : Condition) : (s.endTransaction c).crcPre = s.crcPre := rfl
@[simp] theorem State.endTransaction_resCode (c : Condition) : (s.endTransaction c).resCode = some c := rfl
@[simp] theorem State.endTransaction_resCount (c : Condition) : (s.endTransaction c).resCount = if c = .timeout then some s.cfgRetries else none := rfl
@[simp] theorem State.endTransaction_resFld (c : Condition) : (s.endTransaction c).resFld = some (if s.kind = .read ∧ c = .success then s.fld else []) := rfl
@[simp] theorem State.endTransaction_resVal (c : Condition) : (s.endTransaction c).resVal = s.resVal := rfl
@[simp] theorem State.endTransaction_resBytes (c : Condition) : (s.endTransaction c).resBytes = s.resBytes := rfl
@[simp] theorem State.endTransaction_fed (c : Condition) : (s.endTransaction c).fed = s.fed := rfl
@[simp] theorem State.endTransaction_history (c : Condition) : (s.endTransaction c).history = s.history := rfl
@[simp] theorem State.endTransaction_params (c : Condition) : (s.endTransaction c).params = s.params := rfl
@[simp] theorem State.endTransaction_port (c : Condition) : (s.endTransaction c).port = s.port := rfl
@[simp] theorem State.endTransaction_openAnswers (c : Condition) : (s.endTransaction c).openAnswers = s.openAnswers := rfl
@[simp] theorem State.endTransaction_clearAnswers (c : Condition) : (s.endTransaction c).clearAnswers = s.clearAnswers := rfl
@[simp] theorem State.endTransaction_writeAnswers (c : Condition) : (s.endTransaction c).writeAnswers = s.writeAnswers := rfl
@[simp] theorem State.endTransaction_readAnswers (c : Condition) : (s.endTransaction c).readAnswers = s.readAnswers := rfl
@[simp] theorem State.endTransaction_freeIdx (c : Condition) : (s.endTransaction c).freeIdx = s.freeIdx := rfl
@[simp] theorem State.endTransaction_clearAnswer (c : Condition) : (s.endTransaction c).clearAnswer = s.clearAnswer := rfl
@[simp] theorem State.endTransaction_writeAnswer (c : Condition) : (s.endTransaction c).writeAnswer = s.writeAnswer := rfl
@[simp] theorem State.endTransaction_readResult (c : Condition) (k : Nat) : (s.endTransaction c).readResult k = s.readResult k := rfl
@[simp] theorem State.endTransaction_openAnswer (c : Condition) : (s.endTransaction c).openAnswer = s.openAnswer := rfl

/-! ### `failAttempt` -/

@[simp] theorem State.failAttempt_crc (w : LastFail) : (s.failAttempt w).crc = s.crc := rfl
@[simp] theorem State.failAttempt_cfgAddress (w : LastFail) : (s.failAttempt w).cfgAddress = s.cfgAddress := rfl
@[simp] theorem State.failAttempt_cfgRetries (w : LastFail) : (s.failAttempt w).cfgRetries = s.cfgRetries := rfl
@[simp] theorem State.failAttempt_cfgTimeout (w : LastFail) : (s.failAttempt w).cfgTimeout = s.cfgTimeout := rfl
@[simp] theorem State.failAttempt_linkOpen (w : LastFail) : (s.failAttempt w).linkOpen = s.linkOpen := rfl
@[simp] theorem State.failAttempt_phase (w : LastFail) : (s.failAttempt w).phase = .retryOrFail := rfl
@[simp] theorem State.failAttempt_kind (w : LastFail) : (s.failAttempt w).kind = s.kind := rfl
@[simp] theorem State.failAttempt_attempt (w : LastFail) : (s.failAttempt w).attempt = s.attempt := rfl
@[simp] theorem State.failAttempt_fidx (w : LastFail) : (s.failAttempt w).fidx = s.fidx := rfl
@[simp] theorem State.failAttempt_lastFail (w : LastFail) : (s.failAttempt w).lastFail = w := rfl
@[simp] theorem State.failAttempt_opAddr (w : LastFail) : (s.failAttempt w).opAddr = s.opAddr := rfl
@[simp] theorem State.failAttempt_opCmd (w : LastFail) : (s.failAttempt w).opCmd = s.opCmd := rfl
@[simp] theorem State.failAttempt_opVals (w : LastFail) : (s.failAttempt w).opVals = s.opVals := rfl
@[simp] theorem State.failAttempt_opWidths (w : LastFail) : (s.failAttempt w).opWidths = s.opWidths := rfl
@[simp] theorem State.failAttempt_fld (w : LastFail) : (s.failAttempt w).fld = s.fld := rfl
@[simp] theorem State.failAttempt_crcPre (w : LastFail) : (s.failAttempt w).crcPre = s.crcPre := rfl
@[simp] theorem State.failAttempt_resCode (w : LastFail) : (s.failAttempt w).resCode = s.resCode := rfl
@[simp] theorem State.failAttempt_resCount (w : LastFail) : (s.failAttempt w).resCount = s.resCount := rfl
@[simp] theorem State.failAttempt_resFld (w : LastFail) : (s.failAttempt w).resFld = s.resFld := rfl
@[simp] theorem State.failAttempt_resVal (w : LastFail) : (s.failAttempt w).resVal = s.resVal := rfl
@[simp] theorem State.failAttempt_resBytes (w : LastFail) : (s.failAttempt w).resBytes = s.resBytes := rfl
@[simp] theorem State.failAttempt_fed (w : LastFail) : (s.failAttempt w).fed = s.fed := rfl
@[simp] theorem State.failAttempt_history (w : LastFail) : (s.failAttempt w).history = s.history := rfl
@[simp] theorem State.failAttempt_params (w : LastFail) : (s.failAttempt w).params = s.params := rfl
@[simp] theorem State.failAttempt_port (w : LastFail) : (s.failAttempt w).port = s.port := rfl
@[simp] theorem State.failAttempt_openAnswers (w : LastFail) : (s.failAttempt w).openAnswers = s.openAnswers := rfl
@[simp] theorem State.failAttempt_clearAnswers (w : LastFail) : (s.failAttempt w).clearAnswers = s.clearAnswers := rfl
@[simp] theorem State.failAttempt_writeAnswers (w : LastFail) : (s.failAttempt w).writeAnswers = s.writeAnswers := rfl
@[simp] theorem State.failAttempt_readAnswers (w : LastFail) : (s.failAttempt w).readAnswers = s.readAnswers := rfl
@[simp] theorem State.failAttempt_freeIdx (w : LastFail) : (s.failAttempt w).freeIdx = s.freeIdx := rfl
@[simp] theorem State.failAttempt_clearAnswer (w : LastFail) : (s.failAttempt w).clearAnswer = s.clearAnswer := rfl
@[simp] theorem State.failAttempt_writeAnswer (w : LastFail) : (s.failAttempt w).writeAnswer = s.writeAnswer := rfl
@[simp] theorem State.failAttempt_readResult (w : LastFail) (k : Nat) : (s.failAttempt w).readResult k = s.readResult k := rfl
@[simp] theorem State.failAttempt_openAnswer (w : LastFail) : (s.failAttempt w).openAnswer = s.openAnswer := rfl

/-! ### `beginWrite` -/

@[simp] theorem State.beginWrite_crc (a c : Byte) (vs : List (BitVec 32)) : (s.beginWrite a c vs).crc = s.crc := rfl
@[simp] theorem State.beginWrite_cfgAddress (a c : Byte) (vs : List (BitVec 32)) : (s.beginWrite a c vs).cfgAddress = s.cfgAddress := rfl
@[simp] theorem State.beginWrite_cfgRetries (a c : Byte) (vs : List (BitVec 32)) : (s.beginWrite a c vs).cfgRetries = s.cfgRetries := rfl
@[simp] theorem State.beginWrite_cfgTimeout (a c : Byte) (vs : List (BitVec 32)) : (s.beginWrite a c vs).cfgTimeout = s.cfgTimeout := rfl
@[simp] theorem State.beginWrite_linkOpen (a c : Byte) (vs : List (BitVec 32)) : (s.beginWrite a c vs).linkOpen = s.linkOpen := rfl
@[simp] theorem State.beginWrite_phase (a c : Byte) (vs : List (BitVec 32)) : (s.beginWrite a c vs).phase = .reset := rfl
@[simp] theorem State.beginWrite_kind (a c : Byte) (vs : List (BitVec 32)) : (s.beginWrite a c vs).kind = .write := rfl
@[simp] theorem State.beginWrite_attempt (a c : Byte) (vs : List (BitVec 32)) : (s.beginWrite a c vs).attempt = 0#8 := rfl
@[simp] theorem State.beginWrite_fidx (a c : Byte) (vs : List (BitVec 32)) : (s.beginWrite a c vs).fidx = s.fidx := rfl
@[simp] theorem State.beginWrite_lastFail (a c : Byte) (vs : List (BitVec 32)) : (s.beginWrite a c vs).lastFail = .none := rfl
@[simp] theorem State.beginWrite_opAddr (a c : Byte) (vs : List (BitVec 32)) : (s.beginWrite a c vs).opAddr = a := rfl
@[simp] theorem State.beginWrite_opCmd (a c : Byte) (vs : List (BitVec 32)) : (s.beginWrite a c vs).opCmd = c := rfl
@[simp] theorem State.beginWrite_opVals (a c : Byte) (vs : List (BitVec 32)) : (s.beginWrite a c vs).opVals = vs := rfl
@[simp] theorem State.beginWrite_opWidths (a c : Byte) (vs : List (BitVec 32)) : (s.beginWrite a c vs).opWidths = s.opWidths := rfl
@[simp] theorem State.beginWrite_fld (a c : Byte) (vs : List (BitVec 32)) : (s.beginWrite a c vs).fld = s.fld := rfl
@[simp] theorem State.beginWrite_crcPre (a c : Byte) (vs : List (BitVec 32)) : (s.beginWrite a c vs).crcPre = s.crcPre := rfl
@[simp] theorem State.beginWrite_resCode (a c : Byte) (vs : List (BitVec 32)) : (s.beginWrite a c vs).resCode = s.resCode := rfl
@[simp] theorem State.beginWrite_resCount (a c : Byte) (vs : List (BitVec 32)) : (s.beginWrite a c vs).resCount = s.resCount := rfl
@[simp] theorem State.beginWrite_resFld (a c : Byte) (vs : List (BitVec 32)) : (s.beginWrite a c vs).resFld = some [] := rfl
@[simp] theorem State.beginWrite_resVal (a c : Byte) (vs : List (BitVec 32)) : (s.beginWrite a c vs).resVal = s.resVal := rfl
@[simp] theorem State.beginWrite_resBytes (a c : Byte) (vs : List (BitVec 32)) : (s.beginWrite a c vs).resBytes = s.resBytes := rfl
@[simp] theorem State.beginWrite_fed (a c : Byte) (vs : List (BitVec 32)) : (s.beginWrite a c vs).fed = s.fed := rfl
@[simp] theorem State.beginWrite_history (a c : Byte) (vs : List (BitVec 32)) : (s.beginWrite a c vs).history = s.history := rfl
@[simp] theorem State.beginWrite_params (a c : Byte) (vs : List (BitVec 32)) : (s.beginWrite a c vs).params = s.params := rfl
@[simp] theorem State.beginWrite_port (a c : Byte) (vs : List (BitVec 32)) : (s.beginWrite a c vs).port = s.port := rfl
@[simp] theorem State.beginWrite_openAnswers (a c : Byte) (vs : List (BitVec 32)) : (s.beginWrite a c vs).openAnswers = s.openAnswers := rfl
@[simp] theorem State.beginWrite_clearAnswers (a c : Byte) (vs : List (BitVec 32)) : (s.beginWrite a c vs).clearAnswers = s.clearAnswers := rfl
@[simp] theorem State.beginWrite_writeAnswers (a c : Byte) (vs : List (BitVec 32)) : (s.beginWrite a c vs).writeAnswers = s.writeAnswers := rfl
@[simp] theorem State.beginWrite_readAnswers (a c : Byte) (vs : List (BitVec 32)) : (s.beginWrite a c vs).readAnswers = s.readAnswers := rfl
@[simp] theorem State.beginWrite_freeIdx (a c : Byte) (vs : List (BitVec 32)) : (s.beginWrite a c vs).freeIdx = s.freeIdx := rfl
@[simp] theorem State.beginWrite_clearAnswer (a c : Byte) (vs : List (BitVec 32)) : (s.beginWrite a c vs).clearAnswer = s.clearAnswer := rfl
@[simp] theorem State.beginWrite_writeAnswer (a c : Byte) (vs : List (BitVec 32)) : (s.beginWrite a c vs).writeAnswer = s.writeAnswer := rfl
@[simp] theorem State.beginWrite_readResult (a c : Byte) (vs : List (BitVec 32)) (k : Nat) : (s.beginWrite a c vs).readResult k = s.readResult k := rfl
@[simp] theorem State.beginWrite_openAnswer (a c : Byte) (vs : List (BitVec 32)) : (s.beginWrite a c vs).openAnswer = s.openAnswer := rfl

/-! ### `beginRead` -/

@[simp] theorem State.beginRead_crc (a c : Byte) (ws : List FieldWidth) : (s.beginRead a c ws).crc = s.crc := rfl
@[simp] theorem State.beginRead_cfgAddress (a c : Byte) (ws : List FieldWidth) : (s.beginRead a c ws).cfgAddress = s.cfgAddress := rfl
@[simp] theorem State.beginRead_cfgRetries (a c : Byte) (ws : List FieldWidth) : (s.beginRead a c ws).cfgRetries = s.cfgRetries := rfl
@[simp] theorem State.beginRead_cfgTimeout (a c : Byte) (ws : List FieldWidth) : (s.beginRead a c ws).cfgTimeout = s.cfgTimeout := rfl
@[simp] theorem State.beginRead_linkOpen (a c : Byte) (ws : List FieldWidth) : (s.beginRead a c ws).linkOpen = s.linkOpen := rfl
@[simp] theorem State.beginRead_phase (a c : Byte) (ws : List FieldWidth) : (s.beginRead a c ws).phase = .reset := rfl
@[simp] theorem State.beginRead_kind (a c : Byte) (ws : List FieldWidth) : (s.beginRead a c ws).kind = .read := rfl
@[simp] theorem State.beginRead_attempt (a c : Byte) (ws : List FieldWidth) : (s.beginRead a c ws).attempt = 0#8 := rfl
@[simp] theorem State.beginRead_fidx (a c : Byte) (ws : List FieldWidth) : (s.beginRead a c ws).fidx = s.fidx := rfl
@[simp] theorem State.beginRead_lastFail (a c : Byte) (ws : List FieldWidth) : (s.beginRead a c ws).lastFail = .none := rfl
@[simp] theorem State.beginRead_opAddr (a c : Byte) (ws : List FieldWidth) : (s.beginRead a c ws).opAddr = a := rfl
@[simp] theorem State.beginRead_opCmd (a c : Byte) (ws : List FieldWidth) : (s.beginRead a c ws).opCmd = c := rfl
@[simp] theorem State.beginRead_opVals (a c : Byte) (ws : List FieldWidth) : (s.beginRead a c ws).opVals = s.opVals := rfl
@[simp] theorem State.beginRead_opWidths (a c : Byte) (ws : List FieldWidth) : (s.beginRead a c ws).opWidths = ws := rfl
@[simp] theorem State.beginRead_fld (a c : Byte) (ws : List FieldWidth) : (s.beginRead a c ws).fld = s.fld := rfl
@[simp] theorem State.beginRead_crcPre (a c : Byte) (ws : List FieldWidth) : (s.beginRead a c ws).crcPre = s.crcPre := rfl
@[simp] theorem State.beginRead_resCode (a c : Byte) (ws : List FieldWidth) : (s.beginRead a c ws).resCode = s.resCode := rfl
@[simp] theorem State.beginRead_resCount (a c : Byte) (ws : List FieldWidth) : (s.beginRead a c ws).resCount = s.resCount := rfl
@[simp] theorem State.beginRead_resFld (a c : Byte) (ws : List FieldWidth) : (s.beginRead a c ws).resFld = some [] := rfl
@[simp] theorem State.beginRead_resVal (a c : Byte) (ws : List FieldWidth) : (s.beginRead a c ws).resVal = s.resVal := rfl
@[simp] theorem State.beginRead_resBytes (a c : Byte) (ws : List FieldWidth) : (s.beginRead a c ws).resBytes = s.resBytes := rfl
@[simp] theorem State.beginRead_fed (a c : Byte) (ws : List FieldWidth) : (s.beginRead a c ws).fed = s.fed := rfl
@[simp] theorem State.beginRead_history (a c : Byte) (ws : List FieldWidth) : (s.beginRead a c ws).history = s.history := rfl
@[simp] theorem State.beginRead_params (a c : Byte) (ws : List FieldWidth) : (s.beginRead a c ws).params = s.params := rfl
@[simp] theorem State.beginRead_port (a c : Byte) (ws : List FieldWidth) : (s.beginRead a c ws).port = s.port := rfl
@[simp] theorem State.beginRead_openAnswers (a c : Byte) (ws : List FieldWidth) : (s.beginRead a c ws).openAnswers = s.openAnswers := rfl
@[simp] theorem State.beginRead_clearAnswers (a c : Byte) (ws : List FieldWidth) : (s.beginRead a c ws).clearAnswers = s.clearAnswers := rfl
@[simp] theorem State.beginRead_writeAnswers (a c : Byte) (ws : List FieldWidth) : (s.beginRead a c ws).writeAnswers = s.writeAnswers := rfl
@[simp] theorem State.beginRead_readAnswers (a c : Byte) (ws : List FieldWidth) : (s.beginRead a c ws).readAnswers = s.readAnswers := rfl
@[simp] theorem State.beginRead_freeIdx (a c : Byte) (ws : List FieldWidth) : (s.beginRead a c ws).freeIdx = s.freeIdx := rfl
@[simp] theorem State.beginRead_clearAnswer (a c : Byte) (ws : List FieldWidth) : (s.beginRead a c ws).clearAnswer = s.clearAnswer := rfl
@[simp] theorem State.beginRead_writeAnswer (a c : Byte) (ws : List FieldWidth) : (s.beginRead a c ws).writeAnswer = s.writeAnswer := rfl
@[simp] theorem State.beginRead_readResult (a c : Byte) (ws : List FieldWidth) (k : Nat) : (s.beginRead a c ws).readResult k = s.readResult k := rfl
@[simp] theorem State.beginRead_openAnswer (a c : Byte) (ws : List FieldWidth) : (s.beginRead a c ws).openAnswer = s.openAnswer := rfl

/-! ### `configure` -/

@[simp] theorem State.configure_crc (a : Byte) (r : BitVec 8) (t : OpaqueValue) : (s.configure a r t).crc = crcInit := rfl
@[simp] theorem State.configure_cfgAddress (a : Byte) (r : BitVec 8) (t : OpaqueValue) : (s.configure a r t).cfgAddress = a := rfl
@[simp] theorem State.configure_cfgRetries (a : Byte) (r : BitVec 8) (t : OpaqueValue) : (s.configure a r t).cfgRetries = r := rfl
@[simp] theorem State.configure_cfgTimeout (a : Byte) (r : BitVec 8) (t : OpaqueValue) : (s.configure a r t).cfgTimeout = t := rfl
@[simp] theorem State.configure_linkOpen (a : Byte) (r : BitVec 8) (t : OpaqueValue) : (s.configure a r t).linkOpen = true := rfl
@[simp] theorem State.configure_phase (a : Byte) (r : BitVec 8) (t : OpaqueValue) : (s.configure a r t).phase = s.phase := rfl
@[simp] theorem State.configure_kind (a : Byte) (r : BitVec 8) (t : OpaqueValue) : (s.configure a r t).kind = s.kind := rfl
@[simp] theorem State.configure_attempt (a : Byte) (r : BitVec 8) (t : OpaqueValue) : (s.configure a r t).attempt = s.attempt := rfl
@[simp] theorem State.configure_fidx (a : Byte) (r : BitVec 8) (t : OpaqueValue) : (s.configure a r t).fidx = s.fidx := rfl
@[simp] theorem State.configure_lastFail (a : Byte) (r : BitVec 8) (t : OpaqueValue) : (s.configure a r t).lastFail = s.lastFail := rfl
@[simp] theorem State.configure_opAddr (a : Byte) (r : BitVec 8) (t : OpaqueValue) : (s.configure a r t).opAddr = s.opAddr := rfl
@[simp] theorem State.configure_opCmd (a : Byte) (r : BitVec 8) (t : OpaqueValue) : (s.configure a r t).opCmd = s.opCmd := rfl
@[simp] theorem State.configure_opVals (a : Byte) (r : BitVec 8) (t : OpaqueValue) : (s.configure a r t).opVals = s.opVals := rfl
@[simp] theorem State.configure_opWidths (a : Byte) (r : BitVec 8) (t : OpaqueValue) : (s.configure a r t).opWidths = s.opWidths := rfl
@[simp] theorem State.configure_fld (a : Byte) (r : BitVec 8) (t : OpaqueValue) : (s.configure a r t).fld = s.fld := rfl
@[simp] theorem State.configure_crcPre (a : Byte) (r : BitVec 8) (t : OpaqueValue) : (s.configure a r t).crcPre = s.crcPre := rfl
@[simp] theorem State.configure_resCode (a : Byte) (r : BitVec 8) (t : OpaqueValue) : (s.configure a r t).resCode = s.resCode := rfl
@[simp] theorem State.configure_resCount (a : Byte) (r : BitVec 8) (t : OpaqueValue) : (s.configure a r t).resCount = s.resCount := rfl
@[simp] theorem State.configure_resFld (a : Byte) (r : BitVec 8) (t : OpaqueValue) : (s.configure a r t).resFld = s.resFld := rfl
@[simp] theorem State.configure_resVal (a : Byte) (r : BitVec 8) (t : OpaqueValue) : (s.configure a r t).resVal = s.resVal := rfl
@[simp] theorem State.configure_resBytes (a : Byte) (r : BitVec 8) (t : OpaqueValue) : (s.configure a r t).resBytes = s.resBytes := rfl
@[simp] theorem State.configure_fed (a : Byte) (r : BitVec 8) (t : OpaqueValue) : (s.configure a r t).fed = [] := rfl
@[simp] theorem State.configure_history (a : Byte) (r : BitVec 8) (t : OpaqueValue) : (s.configure a r t).history = s.history := rfl
@[simp] theorem State.configure_params (a : Byte) (r : BitVec 8) (t : OpaqueValue) : (s.configure a r t).params = s.params := rfl
@[simp] theorem State.configure_port (a : Byte) (r : BitVec 8) (t : OpaqueValue) : (s.configure a r t).port = s.port := rfl
@[simp] theorem State.configure_openAnswers (a : Byte) (r : BitVec 8) (t : OpaqueValue) : (s.configure a r t).openAnswers = s.openAnswers := rfl
@[simp] theorem State.configure_clearAnswers (a : Byte) (r : BitVec 8) (t : OpaqueValue) : (s.configure a r t).clearAnswers = s.clearAnswers := rfl
@[simp] theorem State.configure_writeAnswers (a : Byte) (r : BitVec 8) (t : OpaqueValue) : (s.configure a r t).writeAnswers = s.writeAnswers := rfl
@[simp] theorem State.configure_readAnswers (a : Byte) (r : BitVec 8) (t : OpaqueValue) : (s.configure a r t).readAnswers = s.readAnswers := rfl
@[simp] theorem State.configure_freeIdx (a : Byte) (r : BitVec 8) (t : OpaqueValue) : (s.configure a r t).freeIdx = s.freeIdx := rfl
@[simp] theorem State.configure_clearAnswer (a : Byte) (r : BitVec 8) (t : OpaqueValue) : (s.configure a r t).clearAnswer = s.clearAnswer := rfl
@[simp] theorem State.configure_writeAnswer (a : Byte) (r : BitVec 8) (t : OpaqueValue) : (s.configure a r t).writeAnswer = s.writeAnswer := rfl
@[simp] theorem State.configure_readResult (a : Byte) (r : BitVec 8) (t : OpaqueValue) (k : Nat) : (s.configure a r t).readResult k = s.readResult k := rfl
@[simp] theorem State.configure_openAnswer (a : Byte) (r : BitVec 8) (t : OpaqueValue) : (s.configure a r t).openAnswer = s.openAnswer := rfl

/-! ### `sampleCrc` -/

@[simp] theorem State.sampleCrc_crc : s.sampleCrc.crc = s.crc := rfl
@[simp] theorem State.sampleCrc_cfgAddress : s.sampleCrc.cfgAddress = s.cfgAddress := rfl
@[simp] theorem State.sampleCrc_cfgRetries : s.sampleCrc.cfgRetries = s.cfgRetries := rfl
@[simp] theorem State.sampleCrc_cfgTimeout : s.sampleCrc.cfgTimeout = s.cfgTimeout := rfl
@[simp] theorem State.sampleCrc_linkOpen : s.sampleCrc.linkOpen = s.linkOpen := rfl
@[simp] theorem State.sampleCrc_phase : s.sampleCrc.phase = s.phase := rfl
@[simp] theorem State.sampleCrc_kind : s.sampleCrc.kind = s.kind := rfl
@[simp] theorem State.sampleCrc_attempt : s.sampleCrc.attempt = s.attempt := rfl
@[simp] theorem State.sampleCrc_fidx : s.sampleCrc.fidx = s.fidx := rfl
@[simp] theorem State.sampleCrc_lastFail : s.sampleCrc.lastFail = s.lastFail := rfl
@[simp] theorem State.sampleCrc_opAddr : s.sampleCrc.opAddr = s.opAddr := rfl
@[simp] theorem State.sampleCrc_opCmd : s.sampleCrc.opCmd = s.opCmd := rfl
@[simp] theorem State.sampleCrc_opVals : s.sampleCrc.opVals = s.opVals := rfl
@[simp] theorem State.sampleCrc_opWidths : s.sampleCrc.opWidths = s.opWidths := rfl
@[simp] theorem State.sampleCrc_fld : s.sampleCrc.fld = s.fld := rfl
@[simp] theorem State.sampleCrc_crcPre : s.sampleCrc.crcPre = s.crc := rfl
@[simp] theorem State.sampleCrc_resCode : s.sampleCrc.resCode = s.resCode := rfl
@[simp] theorem State.sampleCrc_resCount : s.sampleCrc.resCount = s.resCount := rfl
@[simp] theorem State.sampleCrc_resFld : s.sampleCrc.resFld = s.resFld := rfl
@[simp] theorem State.sampleCrc_resVal : s.sampleCrc.resVal = s.resVal := rfl
@[simp] theorem State.sampleCrc_resBytes : s.sampleCrc.resBytes = s.resBytes := rfl
@[simp] theorem State.sampleCrc_fed : s.sampleCrc.fed = s.fed := rfl
@[simp] theorem State.sampleCrc_history : s.sampleCrc.history = s.history := rfl
@[simp] theorem State.sampleCrc_params : s.sampleCrc.params = s.params := rfl
@[simp] theorem State.sampleCrc_port : s.sampleCrc.port = s.port := rfl
@[simp] theorem State.sampleCrc_openAnswers : s.sampleCrc.openAnswers = s.openAnswers := rfl
@[simp] theorem State.sampleCrc_clearAnswers : s.sampleCrc.clearAnswers = s.clearAnswers := rfl
@[simp] theorem State.sampleCrc_writeAnswers : s.sampleCrc.writeAnswers = s.writeAnswers := rfl
@[simp] theorem State.sampleCrc_readAnswers : s.sampleCrc.readAnswers = s.readAnswers := rfl
@[simp] theorem State.sampleCrc_freeIdx : s.sampleCrc.freeIdx = s.freeIdx := rfl
@[simp] theorem State.sampleCrc_clearAnswer : s.sampleCrc.clearAnswer = s.clearAnswer := rfl
@[simp] theorem State.sampleCrc_writeAnswer : s.sampleCrc.writeAnswer = s.writeAnswer := rfl
@[simp] theorem State.sampleCrc_readResult (k : Nat) : s.sampleCrc.readResult k = s.readResult k := rfl
@[simp] theorem State.sampleCrc_openAnswer : s.sampleCrc.openAnswer = s.openAnswer := rfl

/-! ### `goto` -/

@[simp] theorem State.goto_crc (p : Phase) : (s.goto p).crc = s.crc := rfl
@[simp] theorem State.goto_cfgAddress (p : Phase) : (s.goto p).cfgAddress = s.cfgAddress := rfl
@[simp] theorem State.goto_cfgRetries (p : Phase) : (s.goto p).cfgRetries = s.cfgRetries := rfl
@[simp] theorem State.goto_cfgTimeout (p : Phase) : (s.goto p).cfgTimeout = s.cfgTimeout := rfl
@[simp] theorem State.goto_linkOpen (p : Phase) : (s.goto p).linkOpen = s.linkOpen := rfl
@[simp] theorem State.goto_phase (p : Phase) : (s.goto p).phase = p := rfl
@[simp] theorem State.goto_kind (p : Phase) : (s.goto p).kind = s.kind := rfl
@[simp] theorem State.goto_attempt (p : Phase) : (s.goto p).attempt = s.attempt := rfl
@[simp] theorem State.goto_fidx (p : Phase) : (s.goto p).fidx = s.fidx := rfl
@[simp] theorem State.goto_lastFail (p : Phase) : (s.goto p).lastFail = s.lastFail := rfl
@[simp] theorem State.goto_opAddr (p : Phase) : (s.goto p).opAddr = s.opAddr := rfl
@[simp] theorem State.goto_opCmd (p : Phase) : (s.goto p).opCmd = s.opCmd := rfl
@[simp] theorem State.goto_opVals (p : Phase) : (s.goto p).opVals = s.opVals := rfl
@[simp] theorem State.goto_opWidths (p : Phase) : (s.goto p).opWidths = s.opWidths := rfl
@[simp] theorem State.goto_fld (p : Phase) : (s.goto p).fld = s.fld := rfl
@[simp] theorem State.goto_crcPre (p : Phase) : (s.goto p).crcPre = s.crcPre := rfl
@[simp] theorem State.goto_resCode (p : Phase) : (s.goto p).resCode = s.resCode := rfl
@[simp] theorem State.goto_resCount (p : Phase) : (s.goto p).resCount = s.resCount := rfl
@[simp] theorem State.goto_resFld (p : Phase) : (s.goto p).resFld = s.resFld := rfl
@[simp] theorem State.goto_resVal (p : Phase) : (s.goto p).resVal = s.resVal := rfl
@[simp] theorem State.goto_resBytes (p : Phase) : (s.goto p).resBytes = s.resBytes := rfl
@[simp] theorem State.goto_fed (p : Phase) : (s.goto p).fed = s.fed := rfl
@[simp] theorem State.goto_history (p : Phase) : (s.goto p).history = s.history := rfl
@[simp] theorem State.goto_params (p : Phase) : (s.goto p).params = s.params := rfl
@[simp] theorem State.goto_port (p : Phase) : (s.goto p).port = s.port := rfl
@[simp] theorem State.goto_openAnswers (p : Phase) : (s.goto p).openAnswers = s.openAnswers := rfl
@[simp] theorem State.goto_clearAnswers (p : Phase) : (s.goto p).clearAnswers = s.clearAnswers := rfl
@[simp] theorem State.goto_writeAnswers (p : Phase) : (s.goto p).writeAnswers = s.writeAnswers := rfl
@[simp] theorem State.goto_readAnswers (p : Phase) : (s.goto p).readAnswers = s.readAnswers := rfl
@[simp] theorem State.goto_freeIdx (p : Phase) : (s.goto p).freeIdx = s.freeIdx := rfl
@[simp] theorem State.goto_clearAnswer (p : Phase) : (s.goto p).clearAnswer = s.clearAnswer := rfl
@[simp] theorem State.goto_writeAnswer (p : Phase) : (s.goto p).writeAnswer = s.writeAnswer := rfl
@[simp] theorem State.goto_readResult (p : Phase) (k : Nat) : (s.goto p).readResult k = s.readResult k := rfl
@[simp] theorem State.goto_openAnswer (p : Phase) : (s.goto p).openAnswer = s.openAnswer := rfl

/-! ### `countAttempt` -/

@[simp] theorem State.countAttempt_crc : s.countAttempt.crc = s.crc := rfl
@[simp] theorem State.countAttempt_cfgAddress : s.countAttempt.cfgAddress = s.cfgAddress := rfl
@[simp] theorem State.countAttempt_cfgRetries : s.countAttempt.cfgRetries = s.cfgRetries := rfl
@[simp] theorem State.countAttempt_cfgTimeout : s.countAttempt.cfgTimeout = s.cfgTimeout := rfl
@[simp] theorem State.countAttempt_linkOpen : s.countAttempt.linkOpen = s.linkOpen := rfl
@[simp] theorem State.countAttempt_phase : s.countAttempt.phase = s.phase := rfl
@[simp] theorem State.countAttempt_kind : s.countAttempt.kind = s.kind := rfl
@[simp] theorem State.countAttempt_attempt : s.countAttempt.attempt = s.attempt + 1#8 := rfl
@[simp] theorem State.countAttempt_fidx : s.countAttempt.fidx = s.fidx := rfl
@[simp] theorem State.countAttempt_lastFail : s.countAttempt.lastFail = s.lastFail := rfl
@[simp] theorem State.countAttempt_opAddr : s.countAttempt.opAddr = s.opAddr := rfl
@[simp] theorem State.countAttempt_opCmd : s.countAttempt.opCmd = s.opCmd := rfl
@[simp] theorem State.countAttempt_opVals : s.countAttempt.opVals = s.opVals := rfl
@[simp] theorem State.countAttempt_opWidths : s.countAttempt.opWidths = s.opWidths := rfl
@[simp] theorem State.countAttempt_fld : s.countAttempt.fld = s.fld := rfl
@[simp] theorem State.countAttempt_crcPre : s.countAttempt.crcPre = s.crcPre := rfl
@[simp] theorem State.countAttempt_resCode : s.countAttempt.resCode = s.resCode := rfl
@[simp] theorem State.countAttempt_resCount : s.countAttempt.resCount = s.resCount := rfl
@[simp] theorem State.countAttempt_resFld : s.countAttempt.resFld = s.resFld := rfl
@[simp] theorem State.countAttempt_resVal : s.countAttempt.resVal = s.resVal := rfl
@[simp] theorem State.countAttempt_resBytes : s.countAttempt.resBytes = s.resBytes := rfl
@[simp] theorem State.countAttempt_fed : s.countAttempt.fed = s.fed := rfl
@[simp] theorem State.countAttempt_history : s.countAttempt.history = s.history := rfl
@[simp] theorem State.countAttempt_params : s.countAttempt.params = s.params := rfl
@[simp] theorem State.countAttempt_port : s.countAttempt.port = s.port := rfl
@[simp] theorem State.countAttempt_openAnswers : s.countAttempt.openAnswers = s.openAnswers := rfl
@[simp] theorem State.countAttempt_clearAnswers : s.countAttempt.clearAnswers = s.clearAnswers := rfl
@[simp] theorem State.countAttempt_writeAnswers : s.countAttempt.writeAnswers = s.writeAnswers := rfl
@[simp] theorem State.countAttempt_readAnswers : s.countAttempt.readAnswers = s.readAnswers := rfl
@[simp] theorem State.countAttempt_freeIdx : s.countAttempt.freeIdx = s.freeIdx := rfl
@[simp] theorem State.countAttempt_clearAnswer : s.countAttempt.clearAnswer = s.clearAnswer := rfl
@[simp] theorem State.countAttempt_writeAnswer : s.countAttempt.writeAnswer = s.writeAnswer := rfl
@[simp] theorem State.countAttempt_readResult (k : Nat) : s.countAttempt.readResult k = s.readResult k := rfl
@[simp] theorem State.countAttempt_openAnswer : s.countAttempt.openAnswer = s.openAnswer := rfl

/-! ### `restartFields` -/

@[simp] theorem State.restartFields_crc : s.restartFields.crc = s.crc := rfl
@[simp] theorem State.restartFields_cfgAddress : s.restartFields.cfgAddress = s.cfgAddress := rfl
@[simp] theorem State.restartFields_cfgRetries : s.restartFields.cfgRetries = s.cfgRetries := rfl
@[simp] theorem State.restartFields_cfgTimeout : s.restartFields.cfgTimeout = s.cfgTimeout := rfl
@[simp] theorem State.restartFields_linkOpen : s.restartFields.linkOpen = s.linkOpen := rfl
@[simp] theorem State.restartFields_phase : s.restartFields.phase = s.phase := rfl
@[simp] theorem State.restartFields_kind : s.restartFields.kind = s.kind := rfl
@[simp] theorem State.restartFields_attempt : s.restartFields.attempt = s.attempt := rfl
@[simp] theorem State.restartFields_fidx : s.restartFields.fidx = 0 := rfl
@[simp] theorem State.restartFields_lastFail : s.restartFields.lastFail = s.lastFail := rfl
@[simp] theorem State.restartFields_opAddr : s.restartFields.opAddr = s.opAddr := rfl
@[simp] theorem State.restartFields_opCmd : s.restartFields.opCmd = s.opCmd := rfl
@[simp] theorem State.restartFields_opVals : s.restartFields.opVals = s.opVals := rfl
@[simp] theorem State.restartFields_opWidths : s.restartFields.opWidths = s.opWidths := rfl
@[simp] theorem State.restartFields_fld : s.restartFields.fld = [] := rfl
@[simp] theorem State.restartFields_crcPre : s.restartFields.crcPre = s.crcPre := rfl
@[simp] theorem State.restartFields_resCode : s.restartFields.resCode = s.resCode := rfl
@[simp] theorem State.restartFields_resCount : s.restartFields.resCount = s.resCount := rfl
@[simp] theorem State.restartFields_resFld : s.restartFields.resFld = s.resFld := rfl
@[simp] theorem State.restartFields_resVal : s.restartFields.resVal = s.resVal := rfl
@[simp] theorem State.restartFields_resBytes : s.restartFields.resBytes = s.resBytes := rfl
@[simp] theorem State.restartFields_fed : s.restartFields.fed = s.fed := rfl
@[simp] theorem State.restartFields_history : s.restartFields.history = s.history := rfl
@[simp] theorem State.restartFields_params : s.restartFields.params = s.params := rfl
@[simp] theorem State.restartFields_port : s.restartFields.port = s.port := rfl
@[simp] theorem State.restartFields_openAnswers : s.restartFields.openAnswers = s.openAnswers := rfl
@[simp] theorem State.restartFields_clearAnswers : s.restartFields.clearAnswers = s.clearAnswers := rfl
@[simp] theorem State.restartFields_writeAnswers : s.restartFields.writeAnswers = s.writeAnswers := rfl
@[simp] theorem State.restartFields_readAnswers : s.restartFields.readAnswers = s.readAnswers := rfl
@[simp] theorem State.restartFields_freeIdx : s.restartFields.freeIdx = s.freeIdx := rfl
@[simp] theorem State.restartFields_clearAnswer : s.restartFields.clearAnswer = s.clearAnswer := rfl
@[simp] theorem State.restartFields_writeAnswer : s.restartFields.writeAnswer = s.writeAnswer := rfl
@[simp] theorem State.restartFields_readResult (k : Nat) : s.restartFields.readResult k = s.readResult k := rfl
@[simp] theorem State.restartFields_openAnswer : s.restartFields.openAnswer = s.openAnswer := rfl

/-! ### `advanceField` -/

@[simp] theorem State.advanceField_crc : s.advanceField.crc = s.crc := rfl
@[simp] theorem State.advanceField_cfgAddress : s.advanceField.cfgAddress = s.cfgAddress := rfl
@[simp] theorem State.advanceField_cfgRetries : s.advanceField.cfgRetries = s.cfgRetries := rfl
@[simp] theorem State.advanceField_cfgTimeout : s.advanceField.cfgTimeout = s.cfgTimeout := rfl
@[simp] theorem State.advanceField_linkOpen : s.advanceField.linkOpen = s.linkOpen := rfl
@[simp] theorem State.advanceField_phase : s.advanceField.phase = s.phase := rfl
@[simp] theorem State.advanceField_kind : s.advanceField.kind = s.kind := rfl
@[simp] theorem State.advanceField_attempt : s.advanceField.attempt = s.attempt := rfl
@[simp] theorem State.advanceField_fidx : s.advanceField.fidx = s.fidx + 1 := rfl
@[simp] theorem State.advanceField_lastFail : s.advanceField.lastFail = s.lastFail := rfl
@[simp] theorem State.advanceField_opAddr : s.advanceField.opAddr = s.opAddr := rfl
@[simp] theorem State.advanceField_opCmd : s.advanceField.opCmd = s.opCmd := rfl
@[simp] theorem State.advanceField_opVals : s.advanceField.opVals = s.opVals := rfl
@[simp] theorem State.advanceField_opWidths : s.advanceField.opWidths = s.opWidths := rfl
@[simp] theorem State.advanceField_fld : s.advanceField.fld = s.fld := rfl
@[simp] theorem State.advanceField_crcPre : s.advanceField.crcPre = s.crcPre := rfl
@[simp] theorem State.advanceField_resCode : s.advanceField.resCode = s.resCode := rfl
@[simp] theorem State.advanceField_resCount : s.advanceField.resCount = s.resCount := rfl
@[simp] theorem State.advanceField_resFld : s.advanceField.resFld = s.resFld := rfl
@[simp] theorem State.advanceField_resVal : s.advanceField.resVal = s.resVal := rfl
@[simp] theorem State.advanceField_resBytes : s.advanceField.resBytes = s.resBytes := rfl
@[simp] theorem State.advanceField_fed : s.advanceField.fed = s.fed := rfl
@[simp] theorem State.advanceField_history : s.advanceField.history = s.history := rfl
@[simp] theorem State.advanceField_params : s.advanceField.params = s.params := rfl
@[simp] theorem State.advanceField_port : s.advanceField.port = s.port := rfl
@[simp] theorem State.advanceField_openAnswers : s.advanceField.openAnswers = s.openAnswers := rfl
@[simp] theorem State.advanceField_clearAnswers : s.advanceField.clearAnswers = s.clearAnswers := rfl
@[simp] theorem State.advanceField_writeAnswers : s.advanceField.writeAnswers = s.writeAnswers := rfl
@[simp] theorem State.advanceField_readAnswers : s.advanceField.readAnswers = s.readAnswers := rfl
@[simp] theorem State.advanceField_freeIdx : s.advanceField.freeIdx = s.freeIdx := rfl
@[simp] theorem State.advanceField_clearAnswer : s.advanceField.clearAnswer = s.clearAnswer := rfl
@[simp] theorem State.advanceField_writeAnswer : s.advanceField.writeAnswer = s.writeAnswer := rfl
@[simp] theorem State.advanceField_readResult (k : Nat) : s.advanceField.readResult k = s.readResult k := rfl
@[simp] theorem State.advanceField_openAnswer : s.advanceField.openAnswer = s.openAnswer := rfl

/-! ### `storeField` -/

@[simp] theorem State.storeField_crc (v : BitVec 32) : (s.storeField v).crc = s.crc := rfl
@[simp] theorem State.storeField_cfgAddress (v : BitVec 32) : (s.storeField v).cfgAddress = s.cfgAddress := rfl
@[simp] theorem State.storeField_cfgRetries (v : BitVec 32) : (s.storeField v).cfgRetries = s.cfgRetries := rfl
@[simp] theorem State.storeField_cfgTimeout (v : BitVec 32) : (s.storeField v).cfgTimeout = s.cfgTimeout := rfl
@[simp] theorem State.storeField_linkOpen (v : BitVec 32) : (s.storeField v).linkOpen = s.linkOpen := rfl
@[simp] theorem State.storeField_phase (v : BitVec 32) : (s.storeField v).phase = s.phase := rfl
@[simp] theorem State.storeField_kind (v : BitVec 32) : (s.storeField v).kind = s.kind := rfl
@[simp] theorem State.storeField_attempt (v : BitVec 32) : (s.storeField v).attempt = s.attempt := rfl
@[simp] theorem State.storeField_fidx (v : BitVec 32) : (s.storeField v).fidx = s.fidx + 1 := rfl
@[simp] theorem State.storeField_lastFail (v : BitVec 32) : (s.storeField v).lastFail = s.lastFail := rfl
@[simp] theorem State.storeField_opAddr (v : BitVec 32) : (s.storeField v).opAddr = s.opAddr := rfl
@[simp] theorem State.storeField_opCmd (v : BitVec 32) : (s.storeField v).opCmd = s.opCmd := rfl
@[simp] theorem State.storeField_opVals (v : BitVec 32) : (s.storeField v).opVals = s.opVals := rfl
@[simp] theorem State.storeField_opWidths (v : BitVec 32) : (s.storeField v).opWidths = s.opWidths := rfl
@[simp] theorem State.storeField_fld (v : BitVec 32) : (s.storeField v).fld = s.fld ++ [v] := rfl
@[simp] theorem State.storeField_crcPre (v : BitVec 32) : (s.storeField v).crcPre = s.crcPre := rfl
@[simp] theorem State.storeField_resCode (v : BitVec 32) : (s.storeField v).resCode = s.resCode := rfl
@[simp] theorem State.storeField_resCount (v : BitVec 32) : (s.storeField v).resCount = s.resCount := rfl
@[simp] theorem State.storeField_resFld (v : BitVec 32) : (s.storeField v).resFld = s.resFld := rfl
@[simp] theorem State.storeField_resVal (v : BitVec 32) : (s.storeField v).resVal = s.resVal := rfl
@[simp] theorem State.storeField_resBytes (v : BitVec 32) : (s.storeField v).resBytes = s.resBytes := rfl
@[simp] theorem State.storeField_fed (v : BitVec 32) : (s.storeField v).fed = s.fed := rfl
@[simp] theorem State.storeField_history (v : BitVec 32) : (s.storeField v).history = s.history := rfl
@[simp] theorem State.storeField_params (v : BitVec 32) : (s.storeField v).params = s.params := rfl
@[simp] theorem State.storeField_port (v : BitVec 32) : (s.storeField v).port = s.port := rfl
@[simp] theorem State.storeField_openAnswers (v : BitVec 32) : (s.storeField v).openAnswers = s.openAnswers := rfl
@[simp] theorem State.storeField_clearAnswers (v : BitVec 32) : (s.storeField v).clearAnswers = s.clearAnswers := rfl
@[simp] theorem State.storeField_writeAnswers (v : BitVec 32) : (s.storeField v).writeAnswers = s.writeAnswers := rfl
@[simp] theorem State.storeField_readAnswers (v : BitVec 32) : (s.storeField v).readAnswers = s.readAnswers := rfl
@[simp] theorem State.storeField_freeIdx (v : BitVec 32) : (s.storeField v).freeIdx = s.freeIdx := rfl
@[simp] theorem State.storeField_clearAnswer (v : BitVec 32) : (s.storeField v).clearAnswer = s.clearAnswer := rfl
@[simp] theorem State.storeField_writeAnswer (v : BitVec 32) : (s.storeField v).writeAnswer = s.writeAnswer := rfl
@[simp] theorem State.storeField_readResult (v : BitVec 32) (k : Nat) : (s.storeField v).readResult k = s.readResult k := rfl
@[simp] theorem State.storeField_openAnswer (v : BitVec 32) : (s.storeField v).openAnswer = s.openAnswer := rfl

/-! ### `giveVal` -/

@[simp] theorem State.giveVal_crc (v : BitVec 64) : (s.giveVal v).crc = s.crc := rfl
@[simp] theorem State.giveVal_cfgAddress (v : BitVec 64) : (s.giveVal v).cfgAddress = s.cfgAddress := rfl
@[simp] theorem State.giveVal_cfgRetries (v : BitVec 64) : (s.giveVal v).cfgRetries = s.cfgRetries := rfl
@[simp] theorem State.giveVal_cfgTimeout (v : BitVec 64) : (s.giveVal v).cfgTimeout = s.cfgTimeout := rfl
@[simp] theorem State.giveVal_linkOpen (v : BitVec 64) : (s.giveVal v).linkOpen = s.linkOpen := rfl
@[simp] theorem State.giveVal_phase (v : BitVec 64) : (s.giveVal v).phase = s.phase := rfl
@[simp] theorem State.giveVal_kind (v : BitVec 64) : (s.giveVal v).kind = s.kind := rfl
@[simp] theorem State.giveVal_attempt (v : BitVec 64) : (s.giveVal v).attempt = s.attempt := rfl
@[simp] theorem State.giveVal_fidx (v : BitVec 64) : (s.giveVal v).fidx = s.fidx := rfl
@[simp] theorem State.giveVal_lastFail (v : BitVec 64) : (s.giveVal v).lastFail = s.lastFail := rfl
@[simp] theorem State.giveVal_opAddr (v : BitVec 64) : (s.giveVal v).opAddr = s.opAddr := rfl
@[simp] theorem State.giveVal_opCmd (v : BitVec 64) : (s.giveVal v).opCmd = s.opCmd := rfl
@[simp] theorem State.giveVal_opVals (v : BitVec 64) : (s.giveVal v).opVals = s.opVals := rfl
@[simp] theorem State.giveVal_opWidths (v : BitVec 64) : (s.giveVal v).opWidths = s.opWidths := rfl
@[simp] theorem State.giveVal_fld (v : BitVec 64) : (s.giveVal v).fld = s.fld := rfl
@[simp] theorem State.giveVal_crcPre (v : BitVec 64) : (s.giveVal v).crcPre = s.crcPre := rfl
@[simp] theorem State.giveVal_resCode (v : BitVec 64) : (s.giveVal v).resCode = s.resCode := rfl
@[simp] theorem State.giveVal_resCount (v : BitVec 64) : (s.giveVal v).resCount = s.resCount := rfl
@[simp] theorem State.giveVal_resFld (v : BitVec 64) : (s.giveVal v).resFld = s.resFld := rfl
@[simp] theorem State.giveVal_resVal (v : BitVec 64) : (s.giveVal v).resVal = some v := rfl
@[simp] theorem State.giveVal_resBytes (v : BitVec 64) : (s.giveVal v).resBytes = s.resBytes := rfl
@[simp] theorem State.giveVal_fed (v : BitVec 64) : (s.giveVal v).fed = s.fed := rfl
@[simp] theorem State.giveVal_history (v : BitVec 64) : (s.giveVal v).history = s.history := rfl
@[simp] theorem State.giveVal_params (v : BitVec 64) : (s.giveVal v).params = s.params := rfl
@[simp] theorem State.giveVal_port (v : BitVec 64) : (s.giveVal v).port = s.port := rfl
@[simp] theorem State.giveVal_openAnswers (v : BitVec 64) : (s.giveVal v).openAnswers = s.openAnswers := rfl
@[simp] theorem State.giveVal_clearAnswers (v : BitVec 64) : (s.giveVal v).clearAnswers = s.clearAnswers := rfl
@[simp] theorem State.giveVal_writeAnswers (v : BitVec 64) : (s.giveVal v).writeAnswers = s.writeAnswers := rfl
@[simp] theorem State.giveVal_readAnswers (v : BitVec 64) : (s.giveVal v).readAnswers = s.readAnswers := rfl
@[simp] theorem State.giveVal_freeIdx (v : BitVec 64) : (s.giveVal v).freeIdx = s.freeIdx := rfl
@[simp] theorem State.giveVal_clearAnswer (v : BitVec 64) : (s.giveVal v).clearAnswer = s.clearAnswer := rfl
@[simp] theorem State.giveVal_writeAnswer (v : BitVec 64) : (s.giveVal v).writeAnswer = s.writeAnswer := rfl
@[simp] theorem State.giveVal_readResult (v : BitVec 64) (k : Nat) : (s.giveVal v).readResult k = s.readResult k := rfl
@[simp] theorem State.giveVal_openAnswer (v : BitVec 64) : (s.giveVal v).openAnswer = s.openAnswer := rfl

/-! ### `giveBytes` -/

@[simp] theorem State.giveBytes_crc (bs : List Byte) : (s.giveBytes bs).crc = s.crc := rfl
@[simp] theorem State.giveBytes_cfgAddress (bs : List Byte) : (s.giveBytes bs).cfgAddress = s.cfgAddress := rfl
@[simp] theorem State.giveBytes_cfgRetries (bs : List Byte) : (s.giveBytes bs).cfgRetries = s.cfgRetries := rfl
@[simp] theorem State.giveBytes_cfgTimeout (bs : List Byte) : (s.giveBytes bs).cfgTimeout = s.cfgTimeout := rfl
@[simp] theorem State.giveBytes_linkOpen (bs : List Byte) : (s.giveBytes bs).linkOpen = s.linkOpen := rfl
@[simp] theorem State.giveBytes_phase (bs : List Byte) : (s.giveBytes bs).phase = s.phase := rfl
@[simp] theorem State.giveBytes_kind (bs : List Byte) : (s.giveBytes bs).kind = s.kind := rfl
@[simp] theorem State.giveBytes_attempt (bs : List Byte) : (s.giveBytes bs).attempt = s.attempt := rfl
@[simp] theorem State.giveBytes_fidx (bs : List Byte) : (s.giveBytes bs).fidx = s.fidx := rfl
@[simp] theorem State.giveBytes_lastFail (bs : List Byte) : (s.giveBytes bs).lastFail = s.lastFail := rfl
@[simp] theorem State.giveBytes_opAddr (bs : List Byte) : (s.giveBytes bs).opAddr = s.opAddr := rfl
@[simp] theorem State.giveBytes_opCmd (bs : List Byte) : (s.giveBytes bs).opCmd = s.opCmd := rfl
@[simp] theorem State.giveBytes_opVals (bs : List Byte) : (s.giveBytes bs).opVals = s.opVals := rfl
@[simp] theorem State.giveBytes_opWidths (bs : List Byte) : (s.giveBytes bs).opWidths = s.opWidths := rfl
@[simp] theorem State.giveBytes_fld (bs : List Byte) : (s.giveBytes bs).fld = s.fld := rfl
@[simp] theorem State.giveBytes_crcPre (bs : List Byte) : (s.giveBytes bs).crcPre = s.crcPre := rfl
@[simp] theorem State.giveBytes_resCode (bs : List Byte) : (s.giveBytes bs).resCode = s.resCode := rfl
@[simp] theorem State.giveBytes_resCount (bs : List Byte) : (s.giveBytes bs).resCount = s.resCount := rfl
@[simp] theorem State.giveBytes_resFld (bs : List Byte) : (s.giveBytes bs).resFld = s.resFld := rfl
@[simp] theorem State.giveBytes_resVal (bs : List Byte) : (s.giveBytes bs).resVal = s.resVal := rfl
@[simp] theorem State.giveBytes_resBytes (bs : List Byte) : (s.giveBytes bs).resBytes = some bs := rfl
@[simp] theorem State.giveBytes_fed (bs : List Byte) : (s.giveBytes bs).fed = s.fed := rfl
@[simp] theorem State.giveBytes_history (bs : List Byte) : (s.giveBytes bs).history = s.history := rfl
@[simp] theorem State.giveBytes_params (bs : List Byte) : (s.giveBytes bs).params = s.params := rfl
@[simp] theorem State.giveBytes_port (bs : List Byte) : (s.giveBytes bs).port = s.port := rfl
@[simp] theorem State.giveBytes_openAnswers (bs : List Byte) : (s.giveBytes bs).openAnswers = s.openAnswers := rfl
@[simp] theorem State.giveBytes_clearAnswers (bs : List Byte) : (s.giveBytes bs).clearAnswers = s.clearAnswers := rfl
@[simp] theorem State.giveBytes_writeAnswers (bs : List Byte) : (s.giveBytes bs).writeAnswers = s.writeAnswers := rfl
@[simp] theorem State.giveBytes_readAnswers (bs : List Byte) : (s.giveBytes bs).readAnswers = s.readAnswers := rfl
@[simp] theorem State.giveBytes_freeIdx (bs : List Byte) : (s.giveBytes bs).freeIdx = s.freeIdx := rfl
@[simp] theorem State.giveBytes_clearAnswer (bs : List Byte) : (s.giveBytes bs).clearAnswer = s.clearAnswer := rfl
@[simp] theorem State.giveBytes_writeAnswer (bs : List Byte) : (s.giveBytes bs).writeAnswer = s.writeAnswer := rfl
@[simp] theorem State.giveBytes_readResult (bs : List Byte) (k : Nat) : (s.giveBytes bs).readResult k = s.readResult k := rfl
@[simp] theorem State.giveBytes_openAnswer (bs : List Byte) : (s.giveBytes bs).openAnswer = s.openAnswer := rfl

/-! ### `withRequest` -/

@[simp] theorem State.withRequest_crc (bs : List Byte) : (s.withRequest bs).crc = s.crc := rfl
@[simp] theorem State.withRequest_cfgAddress (bs : List Byte) : (s.withRequest bs).cfgAddress = s.cfgAddress := rfl
@[simp] theorem State.withRequest_cfgRetries (bs : List Byte) : (s.withRequest bs).cfgRetries = s.cfgRetries := rfl
@[simp] theorem State.withRequest_cfgTimeout (bs : List Byte) : (s.withRequest bs).cfgTimeout = s.cfgTimeout := rfl
@[simp] theorem State.withRequest_linkOpen (bs : List Byte) : (s.withRequest bs).linkOpen = s.linkOpen := rfl
@[simp] theorem State.withRequest_phase (bs : List Byte) : (s.withRequest bs).phase = .idle := rfl
@[simp] theorem State.withRequest_kind (bs : List Byte) : (s.withRequest bs).kind = s.kind := rfl
@[simp] theorem State.withRequest_attempt (bs : List Byte) : (s.withRequest bs).attempt = s.attempt := rfl
@[simp] theorem State.withRequest_fidx (bs : List Byte) : (s.withRequest bs).fidx = s.fidx := rfl
@[simp] theorem State.withRequest_lastFail (bs : List Byte) : (s.withRequest bs).lastFail = s.lastFail := rfl
@[simp] theorem State.withRequest_opAddr (bs : List Byte) : (s.withRequest bs).opAddr = s.opAddr := rfl
@[simp] theorem State.withRequest_opCmd (bs : List Byte) : (s.withRequest bs).opCmd = s.opCmd := rfl
@[simp] theorem State.withRequest_opVals (bs : List Byte) : (s.withRequest bs).opVals = s.opVals := rfl
@[simp] theorem State.withRequest_opWidths (bs : List Byte) : (s.withRequest bs).opWidths = s.opWidths := rfl
@[simp] theorem State.withRequest_fld (bs : List Byte) : (s.withRequest bs).fld = s.fld := rfl
@[simp] theorem State.withRequest_crcPre (bs : List Byte) : (s.withRequest bs).crcPre = s.crcPre := rfl
@[simp] theorem State.withRequest_resCode (bs : List Byte) : (s.withRequest bs).resCode = s.resCode := rfl
@[simp] theorem State.withRequest_resCount (bs : List Byte) : (s.withRequest bs).resCount = s.resCount := rfl
@[simp] theorem State.withRequest_resFld (bs : List Byte) : (s.withRequest bs).resFld = s.resFld := rfl
@[simp] theorem State.withRequest_resVal (bs : List Byte) : (s.withRequest bs).resVal = s.resVal := rfl
@[simp] theorem State.withRequest_resBytes (bs : List Byte) : (s.withRequest bs).resBytes = s.resBytes := rfl
@[simp] theorem State.withRequest_fed (bs : List Byte) : (s.withRequest bs).fed = s.fed := rfl
@[simp] theorem State.withRequest_history (bs : List Byte) : (s.withRequest bs).history = s.history := rfl
@[simp] theorem State.withRequest_params (bs : List Byte) : (s.withRequest bs).params = s.params := rfl
@[simp] theorem State.withRequest_port (bs : List Byte) : (s.withRequest bs).port = bs := rfl
@[simp] theorem State.withRequest_openAnswers (bs : List Byte) : (s.withRequest bs).openAnswers = s.openAnswers := rfl
@[simp] theorem State.withRequest_clearAnswers (bs : List Byte) : (s.withRequest bs).clearAnswers = s.clearAnswers := rfl
@[simp] theorem State.withRequest_writeAnswers (bs : List Byte) : (s.withRequest bs).writeAnswers = s.writeAnswers := rfl
@[simp] theorem State.withRequest_readAnswers (bs : List Byte) : (s.withRequest bs).readAnswers = s.readAnswers := rfl
@[simp] theorem State.withRequest_freeIdx (bs : List Byte) : (s.withRequest bs).freeIdx = s.freeIdx := rfl
@[simp] theorem State.withRequest_clearAnswer (bs : List Byte) : (s.withRequest bs).clearAnswer = s.clearAnswer := rfl
@[simp] theorem State.withRequest_writeAnswer (bs : List Byte) : (s.withRequest bs).writeAnswer = s.writeAnswer := rfl
@[simp] theorem State.withRequest_readResult (bs : List Byte) (k : Nat) : (s.withRequest bs).readResult k = s.readResult k := rfl
@[simp] theorem State.withRequest_openAnswer (bs : List Byte) : (s.withRequest bs).openAnswer = s.openAnswer := rfl

end Sys2Proof.Machine
end

