-- ==== Sys2Proof/Laws/Ops.lean ====
section
/-! SUPPORT. What the shared operations can do, said once: the accumulator, the stream primitives,
acceptance, and one inversion lemma per phase of the sequencer. Later proofs cite these and do not unfold
the operations. -/

namespace Sys2Proof.Machine

/-! ## The accumulator -/

@[simp] theorem crcBytes_nil (c : BitVec 16) : crcBytes c [] = c := rfl

theorem crcBytes_cons (c : BitVec 16) (b : Byte) (bs : List Byte) :
    crcBytes c (b :: bs) = crcBytes (crcStep c b) bs := rfl

theorem crcBytes_append (c : BitVec 16) (xs ys : List Byte) :
    crcBytes c (xs ++ ys) = crcBytes (crcBytes c xs) ys := List.foldl_append

/-- Feeding keeps `crc` the CRC of the bytes fed (`10_state.md` R11). -/
theorem State.feed_keeps_crc {s : State} (h : s.crc = crcBytes crcInit s.fed) (bs : List Byte) :
    (s.feed bs).crc = crcBytes crcInit (s.feed bs).fed := by
  simp [crcBytes_append, h]

theorem State.feed_feed (s : State) (xs ys : List Byte) :
    (s.feed xs).feed ys = s.feed (xs ++ ys) := by
  simp [State.feed, crcBytes_append]

/-! ## The stream primitives -/

theorem FieldWidth.size_le (w : FieldWidth) : w.size ≤ 4 := by cases w <;> decide

theorem FieldWidth.size_pos (w : FieldWidth) : 0 < w.size := by cases w <;> decide

/-- A read delivers exactly as many bytes as were asked for (`20_memory.md` R44, R49). -/
theorem State.readResult_length {s : State} {n : Nat} {bs : List Byte}
    (h : s.readResult n = .bytes bs) (hn : n ≤ 4) : bs.length = n := by
  have deliver : ∀ a : ReadAnswer, ReadAnswer.deliver n a = .bytes bs → bs.length = n := by
    intro a ha
    cases a <;> simp only [ReadAnswer.deliver, ReadResult.bytes.injEq, reduceCtorEq] at ha
    subst ha; simp [List.length_take]; omega
  unfold State.readResult at h
  split at h <;> exact deliver _ h

theorem exists_byte_of_length_one {bs : List Byte} (h : bs.length = 1) : ∃ b : Byte, bs = [b] :=
  List.length_eq_one_iff.1 h

theorem exists_bytes_of_length_two {bs : List Byte} (h : bs.length = 2) :
    ∃ t0 t1 : Byte, bs = [t0, t1] := List.length_eq_two.1 h

/-! ## Acceptance -/

theorem State.accept_idle {s : State} (h : s.phase = .idle) (op : State → Result) :
    s.accept op = op s.loseResults := by simp [State.accept, h]

theorem State.accept_busy {s : State} (h : s.phase ≠ .idle) (op : State → Result) :
    s.accept op = .refused .portNotReady := by simp [State.accept, h]

/-- An operation that answers a next state was accepted in `Idle` (`10_state.md` R17). -/
theorem State.accept_next {s t : State} {op : State → Result} (h : s.accept op = .next t) :
    s.phase = .idle ∧ op s.loseResults = .next t := by
  unfold State.accept at h
  split at h
  · exact ⟨‹_›, h⟩
  · cases h

/-! ## One step -/

theorem step_busy {s : State} (h : s.phase ≠ .idle) : step s = .next s.sequence := by
  simp [step, h]

/-- What a step can do when it answers a next state. -/
theorem step_next {s t : State} (h : step s = .next t) :
    (s.phase ≠ .idle ∧ t = s.sequence) ∨
    (s.phase = .idle ∧ s.port = [] ∧ t = s) ∨
    (s.phase = .idle ∧ ∃ (i : Instr) (left : List Byte), decode s.port = .ok (i, left) ∧
      exec i { s with port := left } = .next t) := by
  unfold step at h
  split at h
  · next hp =>
    unfold State.readPort at h
    split at h
    · next he =>
      split at he
      · next hport => cases h; exact .inr (.inl ⟨hp, hport, rfl⟩)
      · split at he <;> cases he
    · next i s' he =>
      split at he
      · cases he
      · next b bs hport =>
        split at he
        · next j left hd =>
          cases he
          exact .inr (.inr ⟨hp, i, left, by rw [hport]; exact hd, h⟩)
        · cases he
    · cases h
  · next hp => cases h; exact .inl ⟨hp, rfl⟩

/-! ## What each operation does when it answers a next state -/

theorem execCrcClear_next {s t : State} (h : execCrcClear s = .next t) :
    s.phase = .idle ∧ t = s.loseResults.clearCrc.endOperation .success := by
  obtain ⟨hp, h⟩ := State.accept_next h
  cases h; exact ⟨hp, rfl⟩

theorem execCrcUpdate_next {b : Byte} {s t : State} (h : execCrcUpdate b s = .next t) :
    s.phase = .idle ∧ t = (s.loseResults.feed [b]).endOperation .success := by
  obtain ⟨hp, h⟩ := State.accept_next h
  cases h; exact ⟨hp, rfl⟩

theorem execCrcGet_next {s t : State} (h : execCrcGet s = .next t) :
    s.phase = .idle ∧
    t = (s.loseResults.giveVal (s.crc.setWidth 64)).endOperation .success := by
  obtain ⟨hp, h⟩ := State.accept_next h
  cases h; exact ⟨hp, rfl⟩

theorem execFldEnc_next {v : BitVec 32} {s t : State} (h : execFldEnc v s = .next t) :
    s.phase = .idle ∧
    t = (s.loseResults.giveBytes (encBe v)).endOperation .success := by
  obtain ⟨hp, h⟩ := State.accept_next h
  cases h; exact ⟨hp, rfl⟩

theorem execPosRecon_next {p : BitVec 64} {d : BitVec 32} {st : Byte} {s t : State}
    (h : execPosRecon p d st s = .next t) :
    s.phase = .idle ∧
    t = (s.loseResults.giveVal (posRecon p d st)).endOperation .success := by
  obtain ⟨hp, h⟩ := State.accept_next h
  cases h; exact ⟨hp, rfl⟩

theorem execFldDec_next {w : BitVec 8} {bs : List Byte} {s t : State}
    (h : execFldDec w bs s = .next t) :
    s.phase = .idle ∧ bs.length = w.toNat ∧
    ((legalWidth w = none ∧ t = s.loseResults.endOperation .invalidValue) ∨
     ((legalWidth w).isSome ∧
      t = (s.loseResults.giveVal ((decBe bs).setWidth 64)).endOperation .success)) := by
  obtain ⟨hp, h⟩ := State.accept_next h
  split at h
  · cases h
  · next hl =>
    refine ⟨hp, not_not.1 hl, ?_⟩
    split at h
    · next hw => cases h; exact .inl ⟨hw, rfl⟩
    · next hw => cases h; exact .inr ⟨by simp [hw], rfl⟩

theorem execTxWrite_next {a c : Byte} {vals : List (BitVec 32)} {s t : State}
    (h : execTxWrite a c vals s = .next t) :
    s.phase = .idle ∧ s.linkOpen = true ∧ Params.admits s.params vals.length = true ∧
    t = s.loseResults.beginWrite a c vals := by
  obtain ⟨hp, h⟩ := State.accept_next h
  split at h
  · cases h
  · next hl =>
    split at h
    · cases h
    · next ha => cases h; exact ⟨hp, by simpa using hl, by simpa using ha, rfl⟩

theorem execTxRead_next {a c : Byte} {widths : List (BitVec 8)} {s t : State}
    (h : execTxRead a c widths s = .next t) :
    s.phase = .idle ∧ s.linkOpen = true ∧ Params.admits s.params widths.length = true ∧
    ((legalWidths widths = none ∧ t = s.loseResults.endTransaction .invalidValue) ∨
     ∃ ws, legalWidths widths = some ws ∧ t = s.loseResults.beginRead a c ws) := by
  obtain ⟨hp, h⟩ := State.accept_next h
  split at h
  · cases h
  · next hl =>
    split at h
    · cases h
    · next ha =>
      refine ⟨hp, by simpa using hl, by simpa using ha, ?_⟩
      split at h
      · next hw => cases h; exact .inl ⟨hw, rfl⟩
      · next ws hw => cases h; exact .inr ⟨ws, hw, rfl⟩

theorem execEngInit_next {port baud timeout : OpaqueValue} {a : Byte} {r : BitVec 8} {s t : State}
    (h : execEngInit port baud timeout a r s = .next t) :
    s.phase = .idle ∧ s.linkOpen = false ∧ r ≠ 0#8 ∧
    ((s.openAnswer = .fail ∧
        t = (s.loseResults.afterOpen port baud timeout).endOperation .transportOpenFailure) ∨
     (s.openAnswer = .handle ∧
        t = ((s.loseResults.afterOpen port baud timeout).configure a r timeout).endOperation
          .success)) := by
  obtain ⟨hp, h⟩ := State.accept_next h
  split at h
  · cases h
  · next hl =>
    split at h
    · cases h
    · next hr =>
      cases h
      refine ⟨hp, by simpa using hl, hr, ?_⟩
      unfold State.initialise
      split
      · next ho => exact .inl ⟨ho, rfl⟩
      · next ho => exact .inr ⟨ho, rfl⟩

/-! ## What each phase of the sequencer can do -/

theorem State.resetAttempt_cases (s : State) :
    (s.clearAnswer = .ioFail ∧
      s.resetAttempt = s.countAttempt.afterClear.endTransaction .ioFailure) ∨
    (s.clearAnswer = .ok ∧
      s.resetAttempt = s.countAttempt.afterClear.clearCrc.restartFields.goto .sendHeader) := by
  unfold State.resetAttempt
  dsimp only
  split
  · next h => exact .inl ⟨h, rfl⟩
  · next h => exact .inr ⟨h, rfl⟩

theorem State.sendHeader_cases (s : State) :
    (∃ k, s.writeAnswer = .ioFail k ∧
      s.sendHeader = ((s.feed [s.opAddr, s.opCmd]).afterWrite [s.opAddr, s.opCmd]).endTransaction
        .ioFailure) ∨
    (s.writeAnswer = .ok ∧
      s.sendHeader = ((s.feed [s.opAddr, s.opCmd]).afterWrite [s.opAddr, s.opCmd]).goto
        (TxKind.bodyPhase s.kind)) := by
  unfold State.sendHeader
  dsimp only
  split
  · next k h => exact .inl ⟨k, h, rfl⟩
  · next h => exact .inr ⟨h, rfl⟩

theorem State.sendPayload_cases (s : State) :
    (s.opVals.length ≤ s.fidx ∧ s.sendPayload = s.goto .trailerExchange) ∨
    ∃ v, s.opVals[s.fidx]? = some v ∧
      ((∃ k, s.writeAnswer = .ioFail k ∧
        s.sendPayload = ((s.feed (encBe v)).afterWrite (encBe v)).endTransaction .ioFailure) ∨
       (s.writeAnswer = .ok ∧
        s.sendPayload = ((s.feed (encBe v)).afterWrite (encBe v)).advanceField)) := by
  unfold State.sendPayload
  split
  · next v hv =>
    refine .inr ⟨v, hv, ?_⟩
    dsimp only
    split
    · next k h => exact .inl ⟨k, h, rfl⟩
    · next h => exact .inr ⟨h, rfl⟩
  · next hn => exact .inl ⟨List.getElem?_eq_none_iff.1 hn, rfl⟩

theorem State.writeTrailer_cases (s : State) :
    (∃ k, s.writeAnswer = .ioFail k ∧
      s.writeTrailer = (s.afterWrite (trailerBytes s.crc)).endTransaction .ioFailure) ∨
    (s.writeAnswer = .ok ∧
      (((s.afterWrite (trailerBytes s.crc)).readResult 1 = .bytes [ackByte] ∧
          s.writeTrailer = ((s.afterWrite (trailerBytes s.crc)).afterRead 1).endTransaction .success) ∨
       (∃ b, b ≠ ackByte ∧ (s.afterWrite (trailerBytes s.crc)).readResult 1 = .bytes [b] ∧
          s.writeTrailer = ((s.afterWrite (trailerBytes s.crc)).afterRead 1).failAttempt .badAck) ∨
       ((s.afterWrite (trailerBytes s.crc)).readResult 1 = .timeout ∧
          s.writeTrailer = ((s.afterWrite (trailerBytes s.crc)).afterRead 1).failAttempt .timedOut) ∨
       ((s.afterWrite (trailerBytes s.crc)).readResult 1 = .ioFail ∧
          s.writeTrailer =
            ((s.afterWrite (trailerBytes s.crc)).afterRead 1).endTransaction .ioFailure))) := by
  unfold State.writeTrailer
  split
  · next k h => exact .inl ⟨k, h, rfl⟩
  · next h =>
    refine .inr ⟨h, ?_⟩
    unfold State.readAck
    split
    · next bs hr =>
      obtain ⟨b, rfl⟩ := exists_byte_of_length_one (State.readResult_length hr (by decide))
      by_cases hb : b = ackByte
      · subst hb; exact .inl ⟨hr, if_pos rfl⟩
      · exact .inr (.inl ⟨b, hb, hr, if_neg (by simpa using hb)⟩)
    · next hr => exact .inr (.inr (.inl ⟨hr, rfl⟩))
    · next hr => exact .inr (.inr (.inr ⟨hr, rfl⟩))

theorem State.receiveFields_cases (s : State) :
    (s.opWidths.length ≤ s.fidx ∧ s.receiveFields = s.goto .trailerExchange) ∨
    ∃ w, s.opWidths[s.fidx]? = some w ∧
      ((∃ bs, s.readResult w.size = .bytes bs ∧ bs.length = w.size ∧
          s.receiveFields = ((s.afterRead w.size).feed bs).storeField (decBe bs)) ∨
       (s.readResult w.size = .timeout ∧
          s.receiveFields = (s.afterRead w.size).failAttempt .timedOut) ∨
       (s.readResult w.size = .ioFail ∧
          s.receiveFields = (s.afterRead w.size).endTransaction .ioFailure)) := by
  unfold State.receiveFields
  split
  · next w hw =>
    refine .inr ⟨w, hw, ?_⟩
    split
    · next bs hr => exact .inl ⟨bs, hr, State.readResult_length hr w.size_le, rfl⟩
    · next hr => exact .inr (.inl ⟨hr, rfl⟩)
    · next hr => exact .inr (.inr ⟨hr, rfl⟩)
  · next hn => exact .inl ⟨List.getElem?_eq_none_iff.1 hn, rfl⟩

theorem State.judgeTrailer_cases (s : State) (r : BitVec 16) :
    (r = s.crcPre ∧ s.judgeTrailer r = s.endTransaction .success) ∨
    (r ≠ s.crcPre ∧ s.params.mismatchPolicy = .fail ∧
      s.judgeTrailer r = s.endTransaction .crcMismatch) ∨
    (r ≠ s.crcPre ∧ s.params.mismatchPolicy = .retry ∧
      s.judgeTrailer r = s.failAttempt .crcBad) := by
  unfold State.judgeTrailer
  split
  · next h => exact .inl ⟨h, rfl⟩
  · next h =>
    split
    · next hp => exact .inr (.inl ⟨h, hp, rfl⟩)
    · next hp => exact .inr (.inr ⟨h, hp, rfl⟩)

theorem State.readTrailer_cases (s : State) :
    (∃ bs, s.readResult 2 = .bytes bs ∧ bs.length = 2 ∧
      ((trailerValue bs = s.crc ∧
          s.readTrailer = ((s.sampleCrc.afterRead 2).feed bs).endTransaction .success) ∨
       (trailerValue bs ≠ s.crc ∧ s.params.mismatchPolicy = .fail ∧
          s.readTrailer = ((s.sampleCrc.afterRead 2).feed bs).endTransaction .crcMismatch) ∨
       (trailerValue bs ≠ s.crc ∧ s.params.mismatchPolicy = .retry ∧
          s.readTrailer = ((s.sampleCrc.afterRead 2).feed bs).failAttempt .crcBad))) ∨
    (s.readResult 2 = .timeout ∧ s.readTrailer = (s.sampleCrc.afterRead 2).failAttempt .timedOut) ∨
    (s.readResult 2 = .ioFail ∧ s.readTrailer = (s.sampleCrc.afterRead 2).endTransaction .ioFailure) := by
  unfold State.readTrailer
  simp only [State.sampleCrc_readResult]
  split
  · next bs hr =>
    exact .inl ⟨bs, hr, State.readResult_length hr (by decide),
      ((s.sampleCrc.afterRead 2).feed bs).judgeTrailer_cases (trailerValue bs)⟩
  · next hr => exact .inr (.inl ⟨hr, rfl⟩)
  · next hr => exact .inr (.inr ⟨hr, rfl⟩)

theorem State.retryOrFail_cases (s : State) :
    (s.attempt < s.cfgRetries ∧ s.retryOrFail = s.goto .reset) ∨
    (¬ s.attempt < s.cfgRetries ∧ s.kind = .read ∧ s.lastFail = .crcBad ∧
      s.retryOrFail = s.endTransaction .crcMismatch) ∨
    (¬ s.attempt < s.cfgRetries ∧ ¬ (s.kind = .read ∧ s.lastFail = .crcBad) ∧
      s.retryOrFail = s.endTransaction .timeout) := by
  unfold State.retryOrFail
  split
  · next h => exact .inl ⟨h, rfl⟩
  · next h =>
    split
    · next hk => exact .inr (.inl ⟨h, hk.1, hk.2, rfl⟩)
    · next hk => exact .inr (.inr ⟨h, hk, rfl⟩)

/-- The sequencer rests in `Idle`. -/
theorem State.sequence_idle {s : State} (h : s.phase = .idle) : s.sequence = s := by
  simp [State.sequence, h]

end Sys2Proof.Machine
end

