-- ==== Sys2Proof/Laws/Operands.lean ====
section
/-! SUPPORT. What the operand forms compute: bytes and numbers, field encodings, widths, trailers. -/

namespace Sys2Proof

@[simp] theorem beBytes_length (n v : Nat) : (beBytes n v).length = n := by
  induction n with
  | zero => rfl
  | succ n ih => simp [beBytes, ih]

theorem beNat_append (xs ys : List Byte) :
    beNat (xs ++ ys) = beNat xs * 256 ^ ys.length + beNat ys := by
  induction xs with
  | nil => simp [beNat]
  | cons x xs ih =>
    simp only [List.cons_append, beNat, ih, List.length_append, Nat.pow_add]; ring

theorem beNat_lt (bs : List Byte) : beNat bs < 256 ^ bs.length := by
  induction bs with
  | nil => simp [beNat]
  | cons b bs ih =>
    have hb : b.toNat ≤ 255 := by have := b.isLt; omega
    have : b.toNat * 256 ^ bs.length ≤ 255 * 256 ^ bs.length := Nat.mul_le_mul_right _ hb
    simp only [beNat, List.length_cons, Nat.pow_succ]; omega

/-- The number spelled by the `n` low bytes of `v`. -/
theorem beNat_beBytes (n v : Nat) : beNat (beBytes n v) = v % 256 ^ n := by
  induction n with
  | zero => simp [beBytes, beNat, Nat.mod_one]
  | succ n ih =>
    simp only [beBytes, beNat, beBytes_length, ih, BitVec.toNat_ofNat]
    rw [show (2 : Nat) ^ 8 = 256 from rfl, Nat.pow_succ, Nat.mod_mul, Nat.mul_comm, Nat.add_comm]

/-- The bytes of the number that a byte string spells are that byte string. -/
theorem beBytes_beNat (bs : List Byte) : beBytes bs.length (beNat bs) = bs := by
  suffices h : ∀ (bs : List Byte) (k : Nat),
      beBytes bs.length (k * 256 ^ bs.length + beNat bs) = bs by
    simpa using h bs 0
  intro bs
  induction bs with
  | nil => intro k; rfl
  | cons b bs ih =>
    intro k
    have hlt := beNat_lt bs
    have hpos : 0 < 256 ^ bs.length := Nat.pow_pos (by decide)
    have e : k * 256 ^ (bs.length + 1) + (b.toNat * 256 ^ bs.length + beNat bs)
        = (k * 256 + b.toNat) * 256 ^ bs.length + beNat bs := by rw [Nat.pow_succ]; ring
    have hd : ((k * 256 + b.toNat) * 256 ^ bs.length + beNat bs) / 256 ^ bs.length
        = k * 256 + b.toNat := by
      rw [Nat.mul_comm, Nat.mul_add_div hpos, Nat.div_eq_of_lt hlt, Nat.add_zero]
    simp only [List.length_cons, beBytes, beNat, e, hd]
    congr 1
    · apply BitVec.eq_of_toNat_eq; have := b.isLt; simp; omega
    · exact ih _

end Sys2Proof

namespace Sys2Proof.Machine

/-! ## Widths -/

theorem legalWidth_eq_some {w : BitVec 8} {f : FieldWidth} :
    legalWidth w = some f ↔ w.toNat = f.size := by
  unfold legalWidth
  constructor
  · intro h
    split at h
    · cases h; simp_all [FieldWidth.size]
    · split at h
      · cases h; simp_all [FieldWidth.size]
      · split at h
        · cases h; simp_all [FieldWidth.size]
        · cases h
  · intro h
    have hw : w = BitVec.ofNat 8 f.size := BitVec.eq_of_toNat_eq (by cases f <;> simpa [FieldWidth.size] using h)
    subst hw
    cases f <;> decide

theorem legalWidth_eq_none {w : BitVec 8} :
    legalWidth w = none ↔ w.toNat ≠ 1 ∧ w.toNat ≠ 2 ∧ w.toNat ≠ 4 := by
  constructor
  · intro h
    refine ⟨fun e => ?_, fun e => ?_, fun e => ?_⟩
    · rw [(legalWidth_eq_some (f := .one)).2 e] at h; cases h
    · rw [(legalWidth_eq_some (f := .two)).2 e] at h; cases h
    · rw [(legalWidth_eq_some (f := .four)).2 e] at h; cases h
  · rintro ⟨h1, h2, h4⟩
    cases hf : legalWidth w with
    | none => rfl
    | some f =>
      have := legalWidth_eq_some.1 hf
      cases f <;> simp_all [FieldWidth.size]

/-- The width check of TX_READ passes exactly when every width is the size of a field width. -/
theorem legalWidths_eq_some {ws : List (BitVec 8)} {fs : List FieldWidth} :
    legalWidths ws = some fs ↔ ws.map BitVec.toNat = fs.map FieldWidth.size := by
  induction ws generalizing fs with
  | nil => cases fs <;> simp [legalWidths]
  | cons w ws ih =>
    cases fs with
    | nil =>
      simp only [legalWidths, List.map_cons, List.map_nil, reduceCtorEq, iff_false]
      split <;> simp
    | cons f fs =>
      simp only [legalWidths, List.map_cons, List.cons.injEq, ← legalWidth_eq_some, ← ih]
      split
      · next g gs hg hgs => simp [hg, hgs]
      · next hno =>
        refine iff_of_false (by simp) ?_
        rintro ⟨hw, hws⟩
        exact hno f fs hw hws

/-- The width check of TX_READ fails exactly when some width is illegal (`42_deframer_read.md` R154). -/
theorem legalWidths_eq_none {ws : List (BitVec 8)} :
    legalWidths ws = none ↔ ∃ w ∈ ws, w.toNat ≠ 1 ∧ w.toNat ≠ 2 ∧ w.toNat ≠ 4 := by
  simp only [← legalWidth_eq_none]
  induction ws with
  | nil => simp [legalWidths]
  | cons w ws ih =>
    simp only [List.mem_cons, exists_eq_or_imp, ← ih, legalWidths]
    cases legalWidth w <;> cases legalWidths ws <;> simp

theorem Params.admits_eq_true {p : Params} {n : Nat} :
    Params.admits p n = true ↔ ∀ m, p.maxFields = some m → n ≤ m := by
  unfold Params.admits
  cases p.maxFields <;> simp

/-! ## Fields and trailers -/

theorem widthOf_cases (v : BitVec 32) : widthOf v = 1 ∨ widthOf v = 2 ∨ widthOf v = 4 := by
  unfold widthOf; split
  · exact .inl rfl
  · split
    · exact .inr (.inl rfl)
    · exact .inr (.inr rfl)

@[simp] theorem encBe_length (v : BitVec 32) : (encBe v).length = widthOf v := by
  unfold encBe
  rcases widthOf_cases v with h | h | h <;> simp [h]

/-- A field as sent is the low bytes of its value, as many as the width the value selects. -/
theorem encBe_eq_beBytes (v : BitVec 32) : encBe v = beBytes (widthOf v) v.toNat := by
  have byte : ∀ k, v.extractLsb' k 8 = BitVec.ofNat 8 (v.toNat / 2 ^ k) := by
    intro k; apply BitVec.eq_of_toNat_eq; simp [BitVec.extractLsb'_toNat, Nat.shiftRight_eq_div_pow]
  unfold encBe
  rcases widthOf_cases v with h | h | h <;> simp [h, beBytes, byte]

theorem toNat_lt_of_widthOf (v : BitVec 32) : v.toNat < 256 ^ widthOf v := by
  have := v.isLt
  unfold widthOf; split
  · omega
  · split <;> omega

@[simp] theorem trailerBytes_length (t : BitVec 16) : (trailerBytes t).length = 2 := rfl

theorem trailerBytes_eq_beBytes (t : BitVec 16) : trailerBytes t = beBytes 2 t.toNat := by
  have byte : ∀ k, t.extractLsb' k 8 = BitVec.ofNat 8 (t.toNat / 2 ^ k) := by
    intro k; apply BitVec.eq_of_toNat_eq; simp [BitVec.extractLsb'_toNat, Nat.shiftRight_eq_div_pow]
  simp [trailerBytes, beBytes, byte]

/-- The trailer as sent and the trailer as received are inverse (`30_encoding.md` R78). -/
@[simp] theorem trailerValue_trailerBytes (t : BitVec 16) : trailerValue (trailerBytes t) = t := by
  apply BitVec.eq_of_toNat_eq
  have := t.isLt
  simp only [trailerValue, trailerBytes_eq_beBytes, beNat_beBytes, BitVec.toNat_ofNat]
  omega

theorem trailerBytes_trailerValue {bs : List Byte} (h : bs.length = 2) :
    trailerBytes (trailerValue bs) = bs := by
  have hlt := beNat_lt bs
  rw [h] at hlt
  have : (trailerValue bs).toNat = beNat bs := by
    simp only [trailerValue, BitVec.toNat_ofNat]; omega
  rw [trailerBytes_eq_beBytes, this, ← h, beBytes_beNat]

theorem trailerValue_pair (t0 t1 : Byte) : trailerValue [t0, t1] = (t0 ++ t1 : BitVec 16) := by
  apply BitVec.eq_of_toNat_eq
  have h0 := t0.isLt
  have h1 := t1.isLt
  rw [BitVec.toNat_append, ← Nat.shiftLeft_add_eq_or_of_lt h1, Nat.shiftLeft_eq]
  simp [trailerValue, beNat]; omega

/-- The bytes of a received field are those of its value at its width. -/
theorem fieldBytes_decBe {w : FieldWidth} {bs : List Byte} (h : bs.length = w.size) :
    beBytes w.size (decBe bs).toNat = bs := by
  have hlt := beNat_lt bs
  have : (decBe bs).toNat = beNat bs := by
    simp only [decBe, BitVec.toNat_ofNat]
    apply Nat.mod_eq_of_lt
    rw [h] at hlt
    cases w <;> simp_all [FieldWidth.size] <;> omega
  rw [this, ← h, beBytes_beNat]

end Sys2Proof.Machine
end

