-- ==== Sys2Proof/Laws/Codec.lean ====
section
/-! SUPPORT. What the parts of the request decoder answer, both ways: on the bytes the encoder writes for a
part, and, when a part decodes, which bytes these were. -/

namespace Sys2Proof

open Sys2Proof.Machine

theorem Parsed.andThen_eq_ok {α β : Type} {p : Parsed α} {k : α → List Byte → Parsed β}
    {x : β × List Byte} (h : Parsed.andThen p k = .ok x) :
    ∃ (a : α) (left : List Byte), p = .ok (a, left) ∧ k a left = .ok x := by
  unfold Parsed.andThen at h
  split at h
  · exact ⟨_, _, rfl, h⟩
  · cases h

theorem decodeField_beBytes (n v : Nat) (rest : List Byte) (h : v < 256 ^ n) :
    decodeField n (beBytes n v ++ rest) = .ok (v, rest) := by
  rw [decodeField, if_pos (by simp), List.take_left' (by simp), List.drop_left' (by simp),
    beNat_beBytes, Nat.mod_eq_of_lt h]

theorem decodeField_one (b : Byte) (rest : List Byte) :
    decodeField 1 (b :: rest) = .ok (b.toNat, rest) := by
  simp [decodeField, beNat]

theorem decodeField_eq_ok {n v : Nat} {bs rest : List Byte} (h : decodeField n bs = .ok (v, rest)) :
    bs = beBytes n v ++ rest ∧ v < 256 ^ n := by
  unfold decodeField at h
  split at h
  · next hl =>
    cases h
    have e : (bs.take n).length = n := by simp [hl]
    constructor
    · conv_rhs => enter [1, 1]; rw [← e]
      rw [beBytes_beNat]; simp
    · have := beNat_lt (bs.take n); rwa [e] at this
  · cases h

theorem decodeField_one_eq_ok {v : Nat} {bs rest : List Byte} (h : decodeField 1 bs = .ok (v, rest)) :
    bs = BitVec.ofNat 8 v :: rest := by
  simpa [beBytes] using (decodeField_eq_ok h).1

theorem decodeByteList_encode (bs rest : List Byte) :
    decodeByteList (encodeByteList bs ++ rest) = .ok (bs, rest) := by
  induction bs with
  | nil => cases rest <;> simp [encodeByteList, decodeByteList]
  | cons b bs ih => simp [encodeByteList, decodeByteList, ih]

theorem decodeByteList_eq_ok {bs l rest : List Byte} (h : decodeByteList bs = .ok (l, rest)) :
    bs = encodeByteList l ++ rest := by
  fun_induction decodeByteList bs generalizing l with
  | case1 => cases h
  | case2 => cases h; simp [encodeByteList]
  | case3 => cases h
  | case4 => cases h
  | case5 => cases h; simp [encodeByteList]
  | case6 _ _ _ _ hd _ ih => cases h; simp [encodeByteList, ih hd]
  | case7 => cases h
  | case8 => cases h

theorem decodeValueList_zero (rest : List Byte) :
    decodeValueList (0x00#8 :: rest) = .ok ([], rest) := by
  unfold decodeValueList; rw [if_pos rfl]

theorem decodeValueList_encode (vs : List (BitVec 32)) (rest : List Byte) :
    decodeValueList (encodeValueList vs ++ rest) = .ok (vs, rest) := by
  induction vs with
  | nil => exact decodeValueList_zero rest
  | cons v vs ih =>
    have h : beNat (beBytes 4 v.toNat) = v.toNat := by
      rw [beNat_beBytes, Nat.mod_eq_of_lt (by have := v.isLt; omega)]
    simp only [encodeValueList, beBytes, List.cons_append, List.nil_append] at h ⊢
    rw [decodeValueList, if_neg (by decide), if_pos rfl, ih]
    simp only []
    rw [h, BitVec.ofNat_toNat, BitVec.setWidth_eq]

theorem decodeValueList_eq_ok {bs rest : List Byte} {l : List (BitVec 32)}
    (h : decodeValueList bs = .ok (l, rest)) : bs = encodeValueList l ++ rest := by
  fun_induction decodeValueList bs generalizing l with
  | case1 => cases h
  | case2 => cases h; rfl
  | case3 b3 b2 b1 b0 _ _ _ hd _ ih =>
    cases h
    have hlt := beNat_lt [b3, b2, b1, b0]
    simp only [encodeValueList, BitVec.toNat_ofNat]
    rw [Nat.mod_eq_of_lt (by simpa using hlt), List.cons_append, List.append_assoc, ← ih hd,
      show beBytes 4 _ = _ from beBytes_beNat [b3, b2, b1, b0]]
    simp
  | case4 => cases h
  | case5 => cases h
  | case6 => cases h

end Sys2Proof
end

