-- ==== Sys2Proof/Laws/PerInstr.lean ====
section
/-! SUPPORT. Statements about every request as syntax, one lemma per constructor. -/

/-- The first byte of an encoded request is its operation-select code, which is below the reserved codes
(`30_encoding.md` R80, R82). -/
def Sys2Proof.Laws.OpcodeFirst.Statement (i : Sys2Proof.Instr) : Prop :=
  (Sys2Proof.encode i).head? = some (i.op.setWidth 8) ∧ i.op.toNat < 9

theorem Sys2Proof.Laws.OpcodeFirst.crcClear :
    Sys2Proof.Laws.OpcodeFirst.Statement .crcClear := ⟨rfl, by simp [Sys2Proof.Instr.op]⟩

theorem Sys2Proof.Laws.OpcodeFirst.crcUpdate (b : Sys2Proof.Byte) :
    Sys2Proof.Laws.OpcodeFirst.Statement (.crcUpdate b) := ⟨rfl, by simp [Sys2Proof.Instr.op]⟩

theorem Sys2Proof.Laws.OpcodeFirst.crcGet :
    Sys2Proof.Laws.OpcodeFirst.Statement .crcGet := ⟨rfl, by simp [Sys2Proof.Instr.op]⟩

theorem Sys2Proof.Laws.OpcodeFirst.fldEnc (v : BitVec 32) :
    Sys2Proof.Laws.OpcodeFirst.Statement (.fldEnc v) := ⟨rfl, by simp [Sys2Proof.Instr.op]⟩

theorem Sys2Proof.Laws.OpcodeFirst.fldDec (w : BitVec 8) (bs : List Sys2Proof.Byte) :
    Sys2Proof.Laws.OpcodeFirst.Statement (.fldDec w bs) := ⟨rfl, by simp [Sys2Proof.Instr.op]⟩

theorem Sys2Proof.Laws.OpcodeFirst.txWrite (a c : Sys2Proof.Byte) (vals : List (BitVec 32)) :
    Sys2Proof.Laws.OpcodeFirst.Statement (.txWrite a c vals) := ⟨rfl, by simp [Sys2Proof.Instr.op]⟩

theorem Sys2Proof.Laws.OpcodeFirst.txRead (a c : Sys2Proof.Byte) (widths : List (BitVec 8)) :
    Sys2Proof.Laws.OpcodeFirst.Statement (.txRead a c widths) := ⟨rfl, by simp [Sys2Proof.Instr.op]⟩

theorem Sys2Proof.Laws.OpcodeFirst.posRecon (prev : BitVec 64) (delta : BitVec 32)
    (status : Sys2Proof.Byte) :
    Sys2Proof.Laws.OpcodeFirst.Statement (.posRecon prev delta status) := ⟨rfl, by simp [Sys2Proof.Instr.op]⟩

theorem Sys2Proof.Laws.OpcodeFirst.engInit (port baud timeout : Sys2Proof.OpaqueValue)
    (address : Sys2Proof.Byte) (retries : BitVec 8) :
    Sys2Proof.Laws.OpcodeFirst.Statement (.engInit port baud timeout address retries) :=
  ⟨rfl, by simp [Sys2Proof.Instr.op]⟩
end

