-- ==== Sys2Proof/Laws/Sequencer.lean ====
section
/-! SUPPORT. Everything one step of the sequencer can do, said once: a relation with one constructor per
outcome of a phase, and the theorem that `State.sequence` is in it. -/

namespace Sys2Proof.Machine

/-- `SeqStep s t`: the sequencer takes `s` to `t`, by the outcomes of each phase (`60_exceptions.md` R220). -/
inductive SeqStep (s : State) : State → Prop where
  | resetFail (hp : s.phase = .reset) (hc : s.clearAnswer = .ioFail) :
      SeqStep s (s.countAttempt.afterClear.endTransaction .ioFailure)
  | resetOk (hp : s.phase = .reset) (hc : s.clearAnswer = .ok) :
      SeqStep s (s.countAttempt.afterClear.clearCrc.restartFields.goto .sendHeader)
  | headerFail (hp : s.phase = .sendHeader) (n : Nat) (hw : s.writeAnswer = .ioFail n) :
      SeqStep s (((s.feed [s.opAddr, s.opCmd]).afterWrite [s.opAddr, s.opCmd]).endTransaction .ioFailure)
  | headerOk (hp : s.phase = .sendHeader) (hw : s.writeAnswer = .ok) :
      SeqStep s (((s.feed [s.opAddr, s.opCmd]).afterWrite [s.opAddr, s.opCmd]).goto
        (TxKind.bodyPhase s.kind))
  | payloadDone (hp : s.phase = .sendPayload) (hle : s.opVals.length ≤ s.fidx) :
      SeqStep s (s.goto .trailerExchange)
  | payloadFail (hp : s.phase = .sendPayload) (v : BitVec 32) (hv : s.opVals[s.fidx]? = some v)
      (n : Nat) (hw : s.writeAnswer = .ioFail n) :
      SeqStep s (((s.feed (encBe v)).afterWrite (encBe v)).endTransaction .ioFailure)
  | payloadOk (hp : s.phase = .sendPayload) (v : BitVec 32) (hv : s.opVals[s.fidx]? = some v)
      (hw : s.writeAnswer = .ok) :
      SeqStep s ((s.feed (encBe v)).afterWrite (encBe v)).advanceField
  | fieldsDone (hp : s.phase = .receiveFields) (hle : s.opWidths.length ≤ s.fidx) :
      SeqStep s (s.goto .trailerExchange)
  | fieldOk (hp : s.phase = .receiveFields) (w : FieldWidth) (hw : s.opWidths[s.fidx]? = some w)
      (bs : List Byte) (hr : s.readResult w.size = .bytes bs) (hl : bs.length = w.size) :
      SeqStep s (((s.afterRead w.size).feed bs).storeField (decBe bs))
  | fieldTimeout (hp : s.phase = .receiveFields) (w : FieldWidth) (hw : s.opWidths[s.fidx]? = some w)
      (hr : s.readResult w.size = .timeout) :
      SeqStep s ((s.afterRead w.size).failAttempt .timedOut)
  | fieldFail (hp : s.phase = .receiveFields) (w : FieldWidth) (hw : s.opWidths[s.fidx]? = some w)
      (hr : s.readResult w.size = .ioFail) :
      SeqStep s ((s.afterRead w.size).endTransaction .ioFailure)
  | sendTrailerFail (hp : s.phase = .trailerExchange) (hk : s.kind = .write) (n : Nat)
      (hw : s.writeAnswer = .ioFail n) :
      SeqStep s ((s.afterWrite (trailerBytes s.crc)).endTransaction .ioFailure)
  | ackOk (hp : s.phase = .trailerExchange) (hk : s.kind = .write) (hw : s.writeAnswer = .ok)
      (hr : (s.afterWrite (trailerBytes s.crc)).readResult 1 = .bytes [ackByte]) :
      SeqStep s (((s.afterWrite (trailerBytes s.crc)).afterRead 1).endTransaction .success)
  | ackBad (hp : s.phase = .trailerExchange) (hk : s.kind = .write) (hw : s.writeAnswer = .ok)
      (b : Byte) (hb : b ≠ ackByte)
      (hr : (s.afterWrite (trailerBytes s.crc)).readResult 1 = .bytes [b]) :
      SeqStep s (((s.afterWrite (trailerBytes s.crc)).afterRead 1).failAttempt .badAck)
  | ackTimeout (hp : s.phase = .trailerExchange) (hk : s.kind = .write) (hw : s.writeAnswer = .ok)
      (hr : (s.afterWrite (trailerBytes s.crc)).readResult 1 = .timeout) :
      SeqStep s (((s.afterWrite (trailerBytes s.crc)).afterRead 1).failAttempt .timedOut)
  | ackFail (hp : s.phase = .trailerExchange) (hk : s.kind = .write) (hw : s.writeAnswer = .ok)
      (hr : (s.afterWrite (trailerBytes s.crc)).readResult 1 = .ioFail) :
      SeqStep s (((s.afterWrite (trailerBytes s.crc)).afterRead 1).endTransaction .ioFailure)
  | trailerMatch (hp : s.phase = .trailerExchange) (hk : s.kind = .read) (bs : List Byte)
      (hr : s.readResult 2 = .bytes bs) (hl : bs.length = 2) (hm : trailerValue bs = s.crc) :
      SeqStep s (((s.sampleCrc.afterRead 2).feed bs).endTransaction .success)
  | mismatchEnds (hp : s.phase = .trailerExchange) (hk : s.kind = .read) (bs : List Byte)
      (hr : s.readResult 2 = .bytes bs) (hl : bs.length = 2) (hm : trailerValue bs ≠ s.crc)
      (hq : s.params.mismatchPolicy = .fail) :
      SeqStep s (((s.sampleCrc.afterRead 2).feed bs).endTransaction .crcMismatch)
  | mismatchRetries (hp : s.phase = .trailerExchange) (hk : s.kind = .read) (bs : List Byte)
      (hr : s.readResult 2 = .bytes bs) (hl : bs.length = 2) (hm : trailerValue bs ≠ s.crc)
      (hq : s.params.mismatchPolicy = .retry) :
      SeqStep s (((s.sampleCrc.afterRead 2).feed bs).failAttempt .crcBad)
  | trailerTimeout (hp : s.phase = .trailerExchange) (hk : s.kind = .read)
      (hr : s.readResult 2 = .timeout) :
      SeqStep s ((s.sampleCrc.afterRead 2).failAttempt .timedOut)
  | trailerFail (hp : s.phase = .trailerExchange) (hk : s.kind = .read)
      (hr : s.readResult 2 = .ioFail) :
      SeqStep s ((s.sampleCrc.afterRead 2).endTransaction .ioFailure)
  | again (hp : s.phase = .retryOrFail) (hlt : s.attempt < s.cfgRetries) :
      SeqStep s (s.goto .reset)
  | exhaustedMismatch (hp : s.phase = .retryOrFail) (hlt : ¬ s.attempt < s.cfgRetries)
      (hk : s.kind = .read) (hf : s.lastFail = .crcBad) :
      SeqStep s (s.endTransaction .crcMismatch)
  | exhausted (hp : s.phase = .retryOrFail) (hlt : ¬ s.attempt < s.cfgRetries)
      (hk : ¬ (s.kind = .read ∧ s.lastFail = .crcBad)) :
      SeqStep s (s.endTransaction .timeout)

/-- One step of the sequencer is one of those. -/
theorem State.sequence_spec {s : State} (h : s.phase ≠ .idle) : SeqStep s s.sequence := by
  unfold State.sequence
  cases hp : s.phase with
  | idle => exact absurd hp h
  | reset =>
    rcases s.resetAttempt_cases with ⟨hc, e⟩ | ⟨hc, e⟩ <;> simp only [e]
    · exact .resetFail hp hc
    · exact .resetOk hp hc
  | sendHeader =>
    rcases s.sendHeader_cases with ⟨k, hc, e⟩ | ⟨hc, e⟩ <;> simp only [e]
    · exact .headerFail hp k hc
    · exact .headerOk hp hc
  | sendPayload =>
    rcases s.sendPayload_cases with ⟨hle, e⟩ | ⟨v, hv, ⟨k, hc, e⟩ | ⟨hc, e⟩⟩ <;> simp only [e]
    · exact .payloadDone hp hle
    · exact .payloadFail hp v hv k hc
    · exact .payloadOk hp v hv hc
  | receiveFields =>
    rcases s.receiveFields_cases with ⟨hle, e⟩ | ⟨w, hw, ⟨bs, hr, hl, e⟩ | ⟨hr, e⟩ | ⟨hr, e⟩⟩ <;>
      simp only [e]
    · exact .fieldsDone hp hle
    · exact .fieldOk hp w hw bs hr hl
    · exact .fieldTimeout hp w hw hr
    · exact .fieldFail hp w hw hr
  | trailerExchange =>
    simp only [State.trailerExchange]
    cases hk : s.kind with
    | write =>
      simp only []
      rcases s.writeTrailer_cases with
        ⟨k, hc, e⟩ | ⟨hc, ⟨hr, e⟩ | ⟨b, hb, hr, e⟩ | ⟨hr, e⟩ | ⟨hr, e⟩⟩ <;> simp only [e]
      · exact .sendTrailerFail hp hk k hc
      · exact .ackOk hp hk hc hr
      · exact .ackBad hp hk hc b hb hr
      · exact .ackTimeout hp hk hc hr
      · exact .ackFail hp hk hc hr
    | read =>
      simp only []
      rcases s.readTrailer_cases with
        ⟨bs, hr, hl, ⟨hm, e⟩ | ⟨hm, hq, e⟩ | ⟨hm, hq, e⟩⟩ | ⟨hr, e⟩ | ⟨hr, e⟩ <;> simp only [e]
      · exact .trailerMatch hp hk bs hr hl hm
      · exact .mismatchEnds hp hk bs hr hl hm hq
      · exact .mismatchRetries hp hk bs hr hl hm hq
      · exact .trailerTimeout hp hk hr
      · exact .trailerFail hp hk hr
  | retryOrFail =>
    rcases s.retryOrFail_cases with ⟨hlt, e⟩ | ⟨hlt, hk, hl, e⟩ | ⟨hlt, hk, e⟩ <;> simp only [e]
    · exact .again hp hlt
    · exact .exhaustedMismatch hp hlt hk hl
    · exact .exhausted hp hlt hk

end Sys2Proof.Machine
end

