-- ==== Sys2Proof/Tests/Slice0.lean ====
section
/-! SUPPORT. Tests of the model: requests that are not well formed, words written out from the spec's
encoding, single steps with values of `95_test_vectors.md`, and for every obligation with hypotheses a
state and operands that meet them. -/

namespace Sys2Proof.Tests

open Sys2Proof Sys2Proof.Machine

/-! ## Helpers -/

/-- The next state, if there is one. -/
def next? (r : Result) : Option State :=
  match r with
  | .next s => some s
  | .fault _ => none
  | .refused _ => none

/-- Why an operation was refused, if it was. -/
def refusal? (r : Result) : Option Refusal :=
  match r with
  | .next _ => none
  | .fault _ => none
  | .refused why => some why

/-- An engine after `ENG_INIT port, baud, timeout, 0x80, 2` (programs P2 to P5). -/
def linked : State := { State.reset with linkOpen := true, cfgAddress := 0x80#8, cfgRetries := 2#8 }

/-- `TX_WRITE 0x80, 0x00, [64]` in its first attempt, at a phase. -/
def writing (p : Phase) : State :=
  { linked with
    phase := p, kind := .write, attempt := 1#8, opAddr := 0x80#8, opCmd := 0x00#8, opVals := [64#32],
    resFld := some [] }

/-- `TX_READ 0x80, 0x18, [2]` in its first attempt, at a phase. -/
def reading (p : Phase) : State :=
  { linked with
    phase := p, kind := .read, attempt := 1#8, opAddr := 0x80#8, opCmd := 0x18#8, opWidths := [.two],
    resFld := some [] }

/-- The same with the one field `01 2C` received (section 2.7). -/
def received : State :=
  { reading .trailerExchange with
    fidx := 1, fld := [300#32], crc := 0xE125#16, fed := [0x80#8, 0x18#8, 0x01#8, 0x2C#8] }

/-- The first phase of a transaction that has just been accepted. -/
def accepted : State := { writing .reset with attempt := 0#8 }

/-! ## Well-formedness: each check refuses an ill-formed request -/

theorem test_wf_field_bytes : (Instr.fldDec 2#8 [0x01#8]).wf = false := by decide
theorem test_wf_retries : (Instr.engInit [] [] [] 0x80#8 0#8).wf = false := by decide
theorem test_wf_accepts : (Instr.fldDec 2#8 [0x01#8, 0x2C#8]).wf = true ∧
    (Instr.engInit [] [] [] 0x80#8 1#8).wf = true := by decide

/-! ## Decoding: words written out from `30_encoding.md` R80 and the layout of log 1 -/

theorem test_decode_crcClear : decode [0x00#8] = .ok (.crcClear, []) := by rfl
theorem test_decode_crcUpdate : decode [0x01#8, 0xFF#8, 0x02#8] = .ok (.crcUpdate 0xFF#8, [0x02#8]) := by
  rfl
theorem test_decode_crcGet : decode [0x02#8] = .ok (.crcGet, []) := by rfl
theorem test_decode_fldEnc :
    decode [0x03#8, 0x00#8, 0x00#8, 0x01#8, 0x2C#8] = .ok (.fldEnc 300#32, []) := by rfl
theorem test_decode_fldDec :
    decode [0x04#8, 0x02#8, 0x01#8, 0x01#8, 0x01#8, 0x2C#8, 0x00#8] =
      .ok (.fldDec 2#8 [0x01#8, 0x2C#8], []) := by rfl
theorem test_decode_txWrite :
    decode [0x05#8, 0x80#8, 0x28#8, 0x01#8, 0x00#8, 0x00#8, 0x03#8, 0xE8#8, 0x00#8] =
      .ok (.txWrite 0x80#8 0x28#8 [1000#32], []) := by rfl
theorem test_decode_txRead :
    decode [0x06#8, 0x80#8, 0x10#8, 0x01#8, 0x04#8, 0x01#8, 0x01#8, 0x00#8] =
      .ok (.txRead 0x80#8 0x10#8 [4#8, 1#8], []) := by rfl
theorem test_decode_posRecon :
    decode [0x07#8, 0x00#8, 0x00#8, 0x00#8, 0x00#8, 0x3B#8, 0x9A#8, 0xCA#8, 0x00#8,
        0x00#8, 0xB7#8, 0x1B#8, 0x00#8, 0x80#8] =
      .ok (.posRecon 1000000000#64 12000000#32 0x80#8, []) := by rfl
theorem test_decode_engInit :
    decode [0x08#8, 0x01#8, 0x31#8, 0x00#8, 0x00#8, 0x00#8, 0x80#8, 0x02#8] =
      .ok (.engInit [0x31#8] [] [] 0x80#8 2#8, []) := by rfl
theorem test_decode_reserved :
    decode [0x09#8] = .error (.reservedOp 0x9#4) ∧ decode [0x0F#8] = .error (.reservedOp 0xF#4) := by
  exact ⟨rfl, rfl⟩
theorem test_decode_not_a_request :
    decode [0x10#8] = .error (.notAnOperation 0x10#8) ∧ decode [0x03#8, 0x00#8] = .error .truncated ∧
      decode [0x04#8, 0x01#8, 0x02#8] = .error (.badListMark 0x02#8) := by exact ⟨rfl, rfl, rfl⟩

/-! ## Single steps (`95_test_vectors.md` sections 2.1 to 2.10) -/

theorem test_crc_step : crcStep 0x1EF0#16 0x1E#8 = 0xF000#16 ∧ crcStep 0x1234#16 0x56#8 = 0x3C40#16 ∧
    crcStep 0xFFFF#16 0xFF#8 = 0xFF00#16 := by decide
theorem test_crcUpdate : (next? (exec (.crcUpdate 0xFF#8) State.reset)).map State.crc = some 0x1EF0#16 := by
  decide
theorem test_crcGet : (next? (exec .crcGet { State.reset with crc := 0x31C3#16 })).map State.resVal =
    some (some 12739#64) := by decide
theorem test_crcClear : (next? (exec .crcClear { State.reset with crc := 0x31C3#16 })).map State.crc =
    some 0#16 := by decide
theorem test_fldEnc : (next? (exec (.fldEnc 65536#32) State.reset)).map State.resBytes =
    some (some [0x00#8, 0x01#8, 0x00#8, 0x00#8]) := by decide
theorem test_fldDec : (next? (exec (.fldDec 4#8 [0x80#8, 0x00#8, 0x00#8, 0x00#8]) State.reset)).map
    State.resVal = some (some 2147483648#64) := by decide
theorem test_fldDec_illegal : (next? (exec (.fldDec 3#8 [0x01#8, 0x02#8, 0x03#8]) State.reset)).map
    (fun t => (t.resCode, t.resVal)) = some (some .invalidValue, none) := by decide
theorem test_posRecon_wraps :
    posRecon 0x7FFFFFFFFFFFFFFF#64 1#32 0x00#8 = 0x8000000000000000#64 ∧
      posRecon 100#64 0xFFFFFFFE#32 0x20#8 = 4294967394#64 := by decide
theorem test_posRecon : (next? (exec (.posRecon 0#64 12000000#32 0x5F#8) State.reset)).map State.resVal =
    some (some 12000000#64) := by decide
set_option maxRecDepth 8000 in
theorem test_frameWrite : frameWrite 0x80#8 0x28#8 [1000#32, 0#32, 70000#32] =
    [0x80#8, 0x28#8, 0x03#8, 0xE8#8, 0x00#8, 0x00#8, 0x01#8, 0x11#8, 0x70#8, 0xFD#8, 0x1D#8] := by rfl
set_option maxRecDepth 8000 in
theorem test_respValid : respValid 0x80#8 0x18#8 [[0x01#8, 0x2C#8]] [0xE1#8, 0x25#8] := by
  unfold respValid; decide
theorem test_txWrite : (next? (exec (.txWrite 0x80#8 0x00#8 [64#32]) linked)).map
    (fun t => (t.phase, t.kind, t.opVals, t.attempt, t.resFld)) =
      some (.reset, .write, [64#32], 0#8, some []) := by decide
theorem test_txRead_illegal_width : (next? (exec (.txRead 0x80#8 0x10#8 [4#8, 3#8]) linked)).map
    (fun t => (t.resCode, t.resFld, t.phase)) = some (some .invalidValue, some [], .idle) := by decide
theorem test_txRead : (next? (exec (.txRead 0x80#8 0x10#8 [4#8, 1#8]) linked)).map
    (fun t => (t.phase, t.kind, t.opWidths)) = some (.reset, .read, [.four, .one]) := by decide
theorem test_engInit : (next? (exec (.engInit [] [] [0x05#8] 0x80#8 2#8)
    { State.reset with openAnswers := [.handle] })).map
      (fun t => (t.cfgAddress, t.cfgRetries, t.cfgTimeout, t.linkOpen, t.resCode)) =
        some (0x80#8, 2#8, [0x05#8], true, some .success) := by decide
theorem test_engInit_fail : (next? (exec (.engInit [] [] [] 0x80#8 2#8)
    { State.reset with openAnswers := [.fail] })).map (fun t => (t.linkOpen, t.resCode)) =
      some (false, some .transportOpenFailure) := by decide

/-- Scenario W8: a `StreamClear` that fails leaves `crc` as it was. -/
theorem test_reset_phase_fails :
    (fun t : State => (t.resCode, t.attempt, t.crc))
      { accepted with crc := 0x1EF0#16, clearAnswers := [.ioFail] }.sequence =
        (some .ioFailure, 1#8, 0x1EF0#16) := by decide
set_option maxRecDepth 8000 in
/-- Scenario W9: the header is fed before it is written. -/
theorem test_header_fails :
    (fun t : State => (t.resCode, t.crc))
      { writing .sendHeader with writeAnswers := [.ioFail 1] }.sequence =
        (some .ioFailure, 0x1B98#16) := by rfl
/-- Program P2, step 4. -/
theorem test_payload :
    (fun t : State => (t.crc, t.fidx, t.history))
      { writing .sendPayload with crc := 0x1B98#16, writeAnswers := [.ok] }.sequence =
        (0x739E#16, 1, [.wrote [0x40#8] .ok]) := by decide
/-- Scenario W1: the acknowledgement. -/
theorem test_acknowledged :
    (fun t : State => (t.resCode, t.history))
      { writing .trailerExchange with
        crc := 0x739E#16, writeAnswers := [.ok], readAnswers := [.bytes 0xFF#8 0#8 0#8 0#8] }.sequence =
        (some .success, [.wrote [0x73#8, 0x9E#8] .ok, .read 1 (.bytes [0xFF#8])]) := by decide
/-- Scenario W4: a wrong acknowledgement byte is recoverable. -/
theorem test_not_acknowledged :
    (fun t : State => (t.phase, t.lastFail))
      { writing .trailerExchange with
        writeAnswers := [.ok], readAnswers := [.bytes 0x00#8 0#8 0#8 0#8] }.sequence =
        (.retryOrFail, .badAck) := by decide
set_option maxRecDepth 8000 in
/-- Section 2.7, fourth row: one field. -/
theorem test_field :
    (fun t : State => (t.crc, t.fld))
      { reading .receiveFields with
        crc := 0x88A1#16, readAnswers := [.bytes 0x01#8 0x2C#8 0#8 0#8] }.sequence =
        (0xE125#16, [300#32]) := by rfl
set_option maxRecDepth 8000 in
/-- Section 2.7: a valid trailer. -/
theorem test_trailer_match :
    (fun t : State => (t.resCode, t.resFld, t.crc, t.crcPre))
      { received with readAnswers := [.bytes 0xE1#8 0x25#8 0#8 0#8] }.sequence =
        (some .success, some [300#32], 0#16, 0xE125#16) := by rfl
set_option maxRecDepth 8000 in
/-- Scenario R12: a mismatch under `Fail`. -/
theorem test_trailer_mismatch :
    (fun t : State => (t.resCode, t.resFld, t.crc))
      { received with readAnswers := [.bytes 0x00#8 0x00#8 0#8 0#8] }.sequence =
        (some .crcMismatch, some [], 0x5744#16) := by rfl
/-- Scenarios W3 and R4: what exhaustion raises. -/
theorem test_exhausted :
    { writing .retryOrFail with attempt := 2#8, lastFail := .badAck }.sequence.resCount = some 2#8 ∧
      { reading .retryOrFail with attempt := 2#8, lastFail := .crcBad }.sequence.resCode =
        some .crcMismatch := by decide
/-- Section 2.10: refusals. -/
theorem test_refusals :
    refusal? (exec (.engInit [] [] [] 0x80#8 0#8) State.reset) = some .zeroRetries ∧
      refusal? (exec (.engInit [] [] [] 0x80#8 2#8) linked) = some .linkAlreadyOpen ∧
      refusal? (exec (.txWrite 0x80#8 0x00#8 [64#32]) State.reset) = some .linkNotOpen ∧
      refusal? (exec (.fldDec 2#8 [0x01#8]) State.reset) = some .malformedFieldBytes := by decide
/-- The host's placing of a word: the next step runs it. -/
theorem test_withFetchWord :
    (next? (step (State.reset.withFetchWord 16 0xFF01))).map State.crc = some 0x1EF0#16 := by decide
/-- Program P3: the second request of READ_ENCODER. -/
theorem test_readEncoder :
    readEncoderFollowUp 1000000000#64
        { State.reset with resCode := some .success, resFld := some [12000000#32, 128#32] } =
      some (.posRecon 1000000000#64 12000000#32 0x80#8) := by decide

/-! ## Witnesses: states and operands that meet the hypotheses of each obligation -/

theorem witness_CrcClearResult : linked.phase = .idle := rfl
theorem witness_CrcUpdateResult : linked.phase = .idle := rfl
theorem witness_CrcReferenceVector : linked.phase = .idle := rfl
theorem witness_FldEncResult : linked.phase = .idle := rfl
theorem witness_PosReconResult : linked.phase = .idle := rfl
theorem witness_PosReconRequiredValues : linked.phase = .idle := rfl

theorem witness_CrcGetResult : linked.phase = .idle ∧
    ∃ s1, exec (.engInit [] [] [] 0x80#8 2#8) { State.reset with openAnswers := [.handle] } = .next s1 ∧
      s1.resCode = some .success := ⟨rfl, _, rfl, rfl⟩

theorem witness_CrcOfRequestsComputeTheCrc :
    ({ linked with port := (crcOf [0xFF#8]).flatMap encode ++ [0x09#8] } : State).phase = .idle ∧
      ({ linked with port := (crcOf [0xFF#8]).flatMap encode ++ [0x09#8] } : State).port =
        (crcOf [0xFF#8]).flatMap encode ++ [0x09#8] := ⟨rfl, rfl⟩

/-- Both ends of each range of magnitudes. -/
theorem witness_FieldEncodingFollowsMagnitude :
    ((0#32).toNat ≤ 255 ∧ (255#32).toNat ≤ 255) ∧
    ((256 ≤ (256#32).toNat ∧ (256#32).toNat ≤ 65535) ∧ (256 ≤ (65535#32).toNat ∧ (65535#32).toNat ≤ 65535)) ∧
    (65536 ≤ (65536#32).toNat ∧ 65536 ≤ (4294967295#32).toNat) := by decide

theorem witness_FieldDecodingInvertsEncoding :
    [0x05#8].length = 1 ∧ [0x00#8, 0x05#8].length = 2 ∧ [0x00#8, 0x00#8, 0x00#8, 0x05#8].length = 4 := by
  decide

/-- The three legal widths; illegal widths 0, 3 and 8; a list of another length. -/
theorem witness_FldDecResult : linked.phase = .idle ∧
    ([0xFF#8].length = (1#8).toNat ∧ [0xFF#8, 0xFF#8].length = (2#8).toNat ∧
      [0xFF#8, 0xFF#8, 0xFF#8, 0xFF#8].length = (4#8).toNat) ∧
    (([] : List Byte).length = (0#8).toNat ∧ ¬ (0#8 = 1#8 ∨ 0#8 = 2#8 ∨ 0#8 = 4#8)) ∧
    ([0x01#8, 0x02#8, 0x03#8].length = (3#8).toNat ∧ ¬ (3#8 = 1#8 ∨ 3#8 = 2#8 ∨ 3#8 = 4#8)) ∧
    [0x01#8].length ≠ (2#8).toNat := by decide

/-- The true sum at both ends of the signed range: no flag, the largest and the least `prev`. -/
theorem witness_PosReconIntegerValue :
    (-(2 ^ 63) ≤ (0x7FFFFFFFFFFFFFFF#64).toInt ∧ (0x7FFFFFFFFFFFFFFF#64).toInt < 2 ^ 63) ∧
      (-(2 ^ 63) ≤ (0x8000000000000000#64).toInt ∧ (0x8000000000000000#64).toInt < 2 ^ 63) := by decide

theorem witness_PosReconFlagCases :
    0x5F#8 &&& 0xA0#8 = 0x00#8 ∧ 0x20#8 &&& 0xA0#8 = 0x20#8 ∧ 0x80#8 &&& 0xA0#8 = 0x80#8 ∧
      0xFF#8 &&& 0xA0#8 = 0xA0#8 := by decide

/-- With either answer, for the least and the largest `retries`. -/
theorem witness_EngInitResult :
    State.reset.phase = .idle ∧ State.reset.linkOpen = false ∧ (1#8 ≠ 0#8 ∧ 255#8 ≠ 0#8) ∧
      ({ State.reset with openAnswers := [.handle] } : State).openAnswer = .handle ∧
      ({ State.reset with openAnswers := [.fail] } : State).openAnswer = .fail := by decide

theorem witness_EngInitRefused : (linked.phase = .idle ∧ linked.linkOpen = true) ∧
    State.reset.phase = .idle ∧ State.reset.linkOpen = false := by decide

theorem witness_OnlyTransactionsNeedTheLink :
    (State.reset.phase = .idle ∧ State.reset.linkOpen = false) ∧
    ((Instr.fldDec 0#8 []).wf = true ∧ (Instr.fldDec 0#8 []).op.toNat < 5) ∧
    ((Instr.posRecon 0#64 0#32 0#8).wf = true ∧ (Instr.posRecon 0#64 0#32 0#8).op = 0x7#4) := by decide

/-- The shortest list that is too long. -/
theorem witness_OverlongListsRefused :
    let s : State := { linked with params := { mismatchPolicy := .fail, maxFields := some 1 } }
    s.phase = .idle ∧ s.linkOpen = true ∧ s.params.maxFields = some 1 ∧
      1 < [0#32, 0#32].length ∧ 1 < [1#8, 1#8].length := by decide

/-- The longest list within a bounded `MAX_FIELDS`. -/
theorem witness_TxWriteAcceptance :
    let s : State := { linked with params := { mismatchPolicy := .fail, maxFields := some 1 } }
    s.phase = .idle ∧ s.linkOpen = true ∧ (∀ m, s.params.maxFields = some m → [64#32].length ≤ m) := by
  refine ⟨rfl, rfl, fun m h => ?_⟩
  cases h; decide

theorem witness_TxReadAcceptance :
    let s : State := { linked with params := { mismatchPolicy := .fail, maxFields := some 3 } }
    s.phase = .idle ∧ s.linkOpen = true ∧
      (∀ m, s.params.maxFields = some m → [4#8, 1#8, 2#8].length ≤ m) ∧
      [4#8, 1#8, 2#8].map BitVec.toNat = [FieldWidth.four, .one, .two].map FieldWidth.size := by
  refine ⟨rfl, rfl, fun m h => ?_, by decide⟩
  cases h; decide

theorem witness_IllegalWidthEndsReadAtOnce :
    linked.phase = .idle ∧ linked.linkOpen = true ∧
      (∀ m, linked.params.maxFields = some m → [4#8, 3#8].length ≤ m) ∧
      (∃ w ∈ [4#8, 3#8], w.toNat ≠ 1 ∧ w.toNat ≠ 2 ∧ w.toNat ≠ 4) ∧
      (∃ w ∈ [0#8], w.toNat ≠ 1 ∧ w.toNat ≠ 2 ∧ w.toNat ≠ 4) := by
  refine ⟨rfl, rfl, fun m h => ?_, by decide, by decide⟩
  cases h

theorem witness_RequestDuringTransactionRefused : (writing .reset).phase ≠ .idle := by decide

theorem witness_ResetPhaseStep :
    (writing .reset).phase = .reset ∧
      ({ writing .reset with clearAnswers := [.ok] } : State).clearAnswer = .ok ∧
      ({ writing .reset with clearAnswers := [.ioFail] } : State).clearAnswer = .ioFail := by decide

theorem witness_SendHeaderPhaseStep :
    (let s : State := { writing .sendHeader with writeAnswers := [.ok] }
     s.phase = .sendHeader ∧ s.writeAnswer = .ok ∧ s.kind = .write) ∧
    (let s : State := { reading .sendHeader with writeAnswers := [.ok] }
     s.phase = .sendHeader ∧ s.writeAnswer = .ok ∧ s.kind = .read) ∧
    (let s : State := { reading .sendHeader with writeAnswers := [.ioFail 0] }
     s.phase = .sendHeader ∧ s.writeAnswer = .ioFail 0) := by decide

/-- The last value, with either answer, and the index past it. -/
theorem witness_SendPayloadPhaseStep :
    (let s : State := { writing .sendPayload with writeAnswers := [.ok] }
     s.phase = .sendPayload ∧ s.fidx < s.opVals.length ∧ s.writeAnswer = .ok) ∧
    (let s : State := { writing .sendPayload with writeAnswers := [.ioFail 1] }
     s.phase = .sendPayload ∧ s.fidx < s.opVals.length ∧ s.writeAnswer = .ioFail 1) ∧
    (let s : State := { writing .sendPayload with fidx := 1 }
     s.phase = .sendPayload ∧ s.opVals.length ≤ s.fidx) := by decide

/-- The state of a write at its trailer, with the answers of its last two calls. -/
def atTrailer (w : WriteAnswer) (r : ReadAnswer) : State :=
  { writing .trailerExchange with fidx := 1, writeAnswers := [w], readAnswers := [r] }

theorem witness_WriteTrailerPhaseStep :
    (atTrailer .ok .timeout).phase = .trailerExchange ∧ (atTrailer .ok .timeout).kind = .write ∧
    (atTrailer (.ioFail 2) .timeout).writeAnswer = .ioFail 2 ∧
    (atTrailer .ok .timeout).writeAnswer = .ok ∧
    ((atTrailer .ok (.bytes 0xFF#8 0#8 0#8 0#8)).afterWrite [0#8, 0#8]).readResult 1 = .bytes [0xFF#8] ∧
    (0xFE#8 ≠ 0xFF#8 ∧
      ((atTrailer .ok (.bytes 0xFE#8 0#8 0#8 0#8)).afterWrite [0#8, 0#8]).readResult 1 = .bytes [0xFE#8]) ∧
    ((atTrailer .ok .timeout).afterWrite [0#8, 0#8]).readResult 1 = .timeout ∧
    ((atTrailer .ok .ioFail).afterWrite [0#8, 0#8]).readResult 1 = .ioFail := by decide

theorem witness_ReceiveFieldsPhaseStep :
    (reading .receiveFields).phase = .receiveFields ∧
    (reading .receiveFields).fidx < (reading .receiveFields).opWidths.length ∧
    ({ reading .receiveFields with readAnswers := [.bytes 1#8 2#8 3#8 4#8] } : State).readResult 2 =
      .bytes [1#8, 2#8] ∧
    ({ reading .receiveFields with readAnswers := [.timeout] } : State).readResult 2 = .timeout ∧
    ({ reading .receiveFields with readAnswers := [.ioFail] } : State).readResult 2 = .ioFail ∧
    ({ reading .receiveFields with fidx := 1 } : State).opWidths.length ≤
      ({ reading .receiveFields with fidx := 1 } : State).fidx := by decide

/-- The right trailer, one that differs in its last bit, under both policies, and no trailer. -/
theorem witness_ReadTrailerPhaseStep :
    received.phase = .trailerExchange ∧ received.kind = .read ∧
    (let s : State := { received with readAnswers := [.bytes 0xE1#8 0x25#8 0#8 0#8] }
     s.readResult 2 = .bytes [0xE1#8, 0x25#8] ∧ (0xE1#8 ++ 0x25#8 : BitVec 16) = s.crc) ∧
    (let s : State := { received with readAnswers := [.bytes 0xE1#8 0x24#8 0#8 0#8] }
     s.readResult 2 = .bytes [0xE1#8, 0x24#8] ∧ (0xE1#8 ++ 0x24#8 : BitVec 16) ≠ s.crc ∧
      s.params.mismatchPolicy = .fail) ∧
    (let s : State := { received with
        readAnswers := [.bytes 0xE1#8 0x24#8 0#8 0#8]
        params := { mismatchPolicy := .retry, maxFields := none } }
     s.readResult 2 = .bytes [0xE1#8, 0x24#8] ∧ (0xE1#8 ++ 0x24#8 : BitVec 16) ≠ s.crc ∧
      s.params.mismatchPolicy = .retry) ∧
    ({ received with readAnswers := [.timeout] } : State).readResult 2 = .timeout ∧
    ({ received with readAnswers := [.ioFail] } : State).readResult 2 = .ioFail := by decide

/-- Attempt 1 of 2; attempt 2 of 2 of a read that mismatched, of a read that timed out, of a write. -/
theorem witness_RetryOrFailPhaseStep :
    (let s := writing .retryOrFail
     s.phase = .retryOrFail ∧ s.attempt < s.cfgRetries) ∧
    (let s : State := { reading .retryOrFail with attempt := 2#8, lastFail := .crcBad }
     s.phase = .retryOrFail ∧ ¬ s.attempt < s.cfgRetries ∧ s.kind = .read ∧ s.lastFail = .crcBad) ∧
    (let s : State := { reading .retryOrFail with attempt := 2#8, lastFail := .timedOut }
     s.phase = .retryOrFail ∧ ¬ s.attempt < s.cfgRetries ∧ ¬ (s.kind = .read ∧ s.lastFail = .crcBad)) ∧
    (let s : State := { writing .retryOrFail with attempt := 2#8, lastFail := .badAck }
     s.phase = .retryOrFail ∧ ¬ s.attempt < s.cfgRetries ∧
      ¬ (s.kind = .read ∧ s.lastFail = .crcBad)) := by decide

theorem witness_ConditionEffect :
    Condition.timeout = .timeout ∧ (received.kind = .read ∧ Condition.success = .success) ∧
    (Condition.success ≠ .timeout ∧ ¬ ((writing .reset).kind = .read ∧ Condition.success = .success)) ∧
    (Condition.crcMismatch ≠ .timeout ∧
      ¬ (received.kind = .read ∧ Condition.crcMismatch = .success)) := by decide

/-- The rows out of `Idle`: a write, a read of legal widths, one with an illegal width, another operation;
and the rows out of every other phase, of both kinds where both reach it. -/
theorem witness_SequencerTransitions :
    (∃ t, exec (.txWrite 0x80#8 0x00#8 [64#32]) linked = .next t) ∧
    (∃ t, exec (.txRead 0x80#8 0x10#8 [4#8, 1#8]) linked = .next t) ∧
    (∃ t, exec (.txRead 0x80#8 0x10#8 [4#8, 3#8]) linked = .next t) ∧
    (Instr.crcGet.op ≠ 0x5#4 ∧ Instr.crcGet.op ≠ 0x6#4 ∧ ∃ t, exec .crcGet linked = .next t) ∧
    ∀ p ∈ [Phase.reset, .sendHeader, .sendPayload, .receiveFields, .trailerExchange, .retryOrFail],
      (writing p).phase ≠ .idle ∧ (reading p).phase ≠ .idle :=
  ⟨⟨_, rfl⟩, ⟨_, rfl⟩, ⟨_, rfl⟩, ⟨by decide, by decide, _, rfl⟩, by decide⟩

theorem accepted_legal : accepted.Legal :=
  ⟨by decide, by decide, by decide, by decide, by decide, by decide, by decide⟩

set_option maxRecDepth 8000 in
theorem received_legal : received.Legal :=
  ⟨by decide, by decide, by decide, by decide, by decide, by decide, by decide⟩

/-- The longest list that a bounded `MAX_FIELDS` lets be latched, and one entry more. -/
theorem test_lists_legal :
    let p : Params := { mismatchPolicy := .fail, maxFields := some 1 }
    ({ accepted with params := p } : State).ListsLegal ∧
      ¬ ({ accepted with params := p, opVals := [0#32, 0#32] } : State).ListsLegal := by decide

/-- A call that fails, and one that does not. -/
theorem witness_IoFailureAbortsAtOnce :
    (accepted.Legal ∧ accepted.phase ≠ .idle ∧ ∃ t, step accepted = .next t) ∧
    (let s : State := { accepted with clearAnswers := [.ioFail] }
     s.Legal ∧ s.phase ≠ .idle ∧ ∃ t, step s = .next t ∧ t.phase = .idle ∧
      t.resCode = some .ioFailure) := by
  refine ⟨⟨accepted_legal, by decide, _, rfl⟩, accepted_legal, by decide, _, rfl, rfl, rfl⟩

theorem witness_TransactionTerminates : accepted.Legal ∧ accepted.phase ≠ .idle :=
  ⟨accepted_legal, by decide⟩

theorem witness_TxWriteRunsItsAlgorithm :
    linked.phase = .idle ∧ linked.linkOpen = true ∧ linked.cfgRetries ≠ 0#8 ∧
      (∀ m, linked.params.maxFields = some m → [64#32].length ≤ m) := by
  refine ⟨rfl, rfl, by decide, fun m h => ?_⟩
  cases h

theorem witness_TxReadRunsItsAlgorithm :
    linked.phase = .idle ∧ linked.linkOpen = true ∧ linked.cfgRetries ≠ 0#8 ∧
      (∀ m, linked.params.maxFields = some m → [4#8, 1#8].length ≤ m) ∧
      [4#8, 1#8].map BitVec.toNat = [FieldWidth.four, .one].map FieldWidth.size := by
  refine ⟨rfl, rfl, by decide, fun m h => ?_, by decide⟩
  cases h

/-- Scenarios with each of the three outcomes: acknowledged, never acknowledged, and a second attempt whose
header write fails. -/
theorem witness_TxWriteOutcomes :
    linked.linkOpen = true ∧ linked.cfgRetries ≠ 0#8 ∧
    (let s : State := { linked with
        clearAnswers := [.ok], writeAnswers := [.ok, .ok, .ok], readAnswers := [.bytes 0xFF#8 0#8 0#8 0#8] }
     ∃ s1, exec (.txWrite 0x80#8 0x00#8 [64#32]) s = .next s1 ∧
      (s1.sequenceN 5).resCode = some .success) ∧
    (let s : State := { linked with
        cfgRetries := 1#8, clearAnswers := [.ok], writeAnswers := [.ok, .ok, .ok], readAnswers := [.timeout] }
     ∃ s1, exec (.txWrite 0x80#8 0x00#8 [64#32]) s = .next s1 ∧
      (s1.sequenceN 6).resCode = some .timeout) ∧
    (let s : State := { linked with
        clearAnswers := [.ok, .ok], writeAnswers := [.ok, .ok, .ok, .ioFail 1], readAnswers := [.timeout] }
     ∃ s1, exec (.txWrite 0x80#8 0x00#8 [64#32]) s = .next s1 ∧
      (s1.sequenceN 8).resCode = some .ioFailure ∧ (s1.sequenceN 8).attempt = 2#8) :=
  ⟨rfl, by decide, ⟨_, rfl, rfl⟩, ⟨_, rfl, rfl⟩, _, rfl, rfl, rfl⟩

set_option maxRecDepth 8000 in
/-- Scenario R7, whose fourth step of the sequencer ends it with `Success`, and a read that fails at once. -/
theorem witness_SuccessfulReadIsVerified :
    (let s : State := { linked with
        clearAnswers := [.ok], writeAnswers := [.ok], readAnswers := [.bytes 0x59#8 0x0C#8 0#8 0#8] }
     s.linkOpen = true ∧ s.cfgRetries ≠ 0#8 ∧
      ([] : List (BitVec 8)).map BitVec.toNat = ([] : List FieldWidth).map FieldWidth.size ∧
      ∃ s1, exec (.txRead 0x80#8 0x15#8 []) s = .next s1 ∧ (s1.sequenceN 4).phase = .idle ∧
        (s1.sequenceN 4).resCode = some .success) ∧
    (let s : State := { linked with clearAnswers := [.ioFail] }
     s.linkOpen = true ∧ s.cfgRetries ≠ 0#8 ∧
      ∃ s1, exec (.txRead 0x80#8 0x15#8 []) s = .next s1 ∧ (s1.sequenceN 1).phase = .idle ∧
        (s1.sequenceN 1).resCode ≠ some .success) := by
  refine ⟨⟨rfl, by decide, rfl, _, rfl, rfl, rfl⟩, rfl, by decide, _, rfl, rfl, ?_⟩
  show some Condition.ioFailure ≠ some .success
  decide

set_option maxRecDepth 8000 in
/-- The last clauses speak of states where the transaction is over; these are the two ways it gets there. -/
theorem witness_AttemptsAreCounted :
    (accepted.Legal ∧ accepted.phase = .reset ∧ accepted.attempt = 0#8) ∧
    (let s : State := { accepted with
        cfgRetries := 1#8, clearAnswers := [.ok], writeAnswers := [.ok, .ok, .ok],
        readAnswers := [.timeout] }
     s.Legal ∧ s.phase = .reset ∧ s.attempt = 0#8 ∧
      (s.sequenceN 6).phase = .idle ∧ (s.sequenceN 6).resCode = some .timeout) ∧
    (let s : State := { accepted with
        kind := .read, cfgRetries := 1#8, clearAnswers := [.ok], writeAnswers := [.ok],
        readAnswers := [.bytes 0#8 0#8 0#8 0#8]
        params := { mismatchPolicy := .retry, maxFields := none } }
     s.Legal ∧ s.phase = .reset ∧ s.attempt = 0#8 ∧
      (s.sequenceN 5).phase = .idle ∧ (s.sequenceN 5).resCode = some .crcMismatch ∧
      s.params.mismatchPolicy = .retry) := by
  refine ⟨⟨accepted_legal, rfl, rfl⟩, ⟨?_, rfl, rfl, rfl, rfl⟩, ?_, rfl, rfl, rfl, rfl, rfl⟩
  · exact ⟨by decide, by decide, by decide, by decide, by decide, by decide, by decide⟩
  · exact ⟨by decide, by decide, by decide, by decide, by decide, by decide, by decide⟩

theorem witness_WriteIgnoresAddressAndCommand :
    accepted.kind = .write ∧
      accepted.hideAddressing =
        ({ accepted with opAddr := 0x81#8, opCmd := 0x06#8 } : State).hideAddressing := ⟨rfl, rfl⟩

theorem witness_ConfigurationIsImmutable :
    ((∃ t, step accepted = .next t) ∧ accepted.linkOpen = true) ∧
      Instr.crcGet.op ≠ 0x8#4 ∧ ∃ t, exec .crcGet linked = .next t :=
  ⟨⟨⟨_, rfl⟩, rfl⟩, by decide, _, rfl⟩

theorem witness_LatchedOperandsStay : accepted.phase ≠ .idle ∧ ∃ t, step accepted = .next t :=
  ⟨by decide, _, rfl⟩

/-- A transaction in each phase and of each kind, and in `Idle` an operation other than ENG_INIT. -/
theorem witness_StreamCallsOfEachPhase :
    (∀ p ∈ [Phase.reset, .sendHeader, .sendPayload, .receiveFields, .trailerExchange, .retryOrFail],
      ((writing p).phase ≠ .idle ∧ ∃ t, step (writing p) = .next t) ∧
      ((reading p).phase ≠ .idle ∧ ∃ t, step (reading p) = .next t)) ∧
    Instr.crcGet.op ≠ 0x8#4 ∧ ∃ t, exec .crcGet linked = .next t := by
  refine ⟨?_, by decide, _, rfl⟩
  intro p hp
  fin_cases hp <;> exact ⟨⟨by decide, _, rfl⟩, by decide, _, rfl⟩

theorem witness_ConditionsPerOperation :
    (∃ t, exec .crcGet linked = .next t ∧ t.phase = .idle) ∧
    (let s : State := { accepted with clearAnswers := [.ioFail] }
     s.phase ≠ .idle ∧ s.kind = .write ∧ ∃ t, step s = .next t ∧ t.phase = .idle) ∧
    (let s : State := { received with readAnswers := [.bytes 0xE1#8 0x25#8 0#8 0#8] }
     s.phase ≠ .idle ∧ s.kind = .read ∧ ∃ t, step s = .next t ∧ t.phase = .idle) := by
  refine ⟨⟨_, rfl, rfl⟩, ⟨by decide, rfl, _, rfl, rfl⟩, by decide, rfl, _, rfl, ?_⟩
  rfl

theorem witness_FieldsOnlyAfterAMatchedTrailer :
    let s : State := { received with readAnswers := [.bytes 0xE1#8 0x25#8 0#8 0#8] }
    s.phase ≠ .idle ∧ s.resFld = some [] ∧ ∃ t, step s = .next t ∧ t.resFld = some (300#32 :: []) := by
  refine ⟨by decide, rfl, _, rfl, ?_⟩
  rfl

set_option maxRecDepth 8000 in
theorem witness_CrcIsOfTheBytesFed :
    received.crc = crcBytes 0x0000#16 received.fed ∧ ∃ t, step received = .next t :=
  ⟨by decide, _, rfl⟩

theorem witness_StepKeepsLegal : (accepted.Legal ∧ ∃ t, step accepted = .next t) ∧
    received.Legal ∧ ∃ t, step received = .next t :=
  ⟨⟨accepted_legal, _, rfl⟩, received_legal, _, rfl⟩

/-- A request, an empty port, bytes that are no request, and a transaction in progress. -/
theorem witness_StepRunsTheDecodedRequest :
    (let s : State := { linked with port := [0x02#8, 0x00#8] }
     s.phase = .idle ∧ decode s.port = .ok (.crcGet, [0x00#8])) ∧
    (linked.phase = .idle ∧ linked.port = []) ∧
    (let s : State := { linked with port := [0x0F#8] }
     s.phase = .idle ∧ s.port ≠ [] ∧ decode s.port = .error (.reservedOp 0xF#4)) ∧
    accepted.phase ≠ .idle :=
  ⟨⟨rfl, rfl⟩, ⟨rfl, rfl⟩, ⟨rfl, by decide, rfl⟩, by decide⟩

theorem witness_EncodeInvertsDecode :
    decode [0x01#8, 0xFF#8, 0x09#8] = .ok (.crcUpdate 0xFF#8, [0x09#8]) := rfl

/-- The least and the greatest reserved code. -/
theorem witness_ReservedCodesRefused :
    (9 ≤ (0x9#4).toNat ∧ linked.phase = .idle ∧
      ({ linked with port := [0x09#8] } : State).port = (0x9#4).setWidth 8 :: []) ∧
    (9 ≤ (0xF#4).toNat ∧
      ({ linked with port := [0x0F#8] } : State).port = (0xF#4).setWidth 8 :: []) := by decide

end Sys2Proof.Tests
end

section
/-! PROOFS. A list longer than a bounded `MAX_FIELDS` is refused at acceptance (U13). -/

namespace Sys2Proof.Machine

/-- A list is not admitted exactly when `MAX_FIELDS` is bounded and the list is longer than the bound. -/
theorem Params.admits_eq_false {p : Params} {n : Nat} :
    Params.admits p n = false ↔ ∃ m, p.maxFields = some m ∧ m < n := by
  simp [← Bool.not_eq_true, Params.admits_eq_true]

/-- The length check of TX_WRITE, behind the phase and the link (`44_system.md` R197). -/
theorem execTxWrite_not_admitted {a c : Byte} {vals : List (BitVec 32)} {s : State}
    (hidle : s.phase = .idle) (hlink : s.linkOpen = true)
    (hlong : Params.admits s.params vals.length = false) :
    execTxWrite a c vals s = .refused .tooManyFields := by
  simp [execTxWrite, State.accept_idle hidle, hlink, hlong]

/-- The length check of TX_READ is made before the widths are looked at (log 11), so nothing is asked of
`widths` but its length. -/
theorem execTxRead_not_admitted {a c : Byte} {widths : List (BitVec 8)} {s : State}
    (hidle : s.phase = .idle) (hlink : s.linkOpen = true)
    (hlong : Params.admits s.params widths.length = false) :
    execTxRead a c widths s = .refused .tooManyFields := by
  simp [execTxRead, State.accept_idle hidle, hlink, hlong]

/-- Settles O24: an overlong list is not admitted, and either transaction refuses it on that check. -/
theorem overlongListsRefused : Obligations.OverlongListsRefused := by
  intro s m hidle hlink hmax
  have hlong {n : Nat} (hn : m < n) : Params.admits s.params n = false :=
    Params.admits_eq_false.2 ⟨m, hmax, hn⟩
  exact ⟨fun _ _ _ h => execTxWrite_not_admitted hidle hlink (hlong h),
    fun _ _ _ h => execTxRead_not_admitted hidle hlink (hlong h)⟩

end Sys2Proof.Machine
end

section
/-! PROOFS. Everything the acceptance of an operation can do, said once, as `SeqStep` says it of the
sequencer; and what a request during a transaction and the bytes at the port lead to. -/

namespace Sys2Proof.Machine

/-- `ExecStep s i t`: `i`, accepted in `s`, leads to `t` (`10_state.md` R15, R17). -/
inductive ExecStep (s : State) : Instr → State → Prop where
  | crcClear : ExecStep s .crcClear (s.loseResults.clearCrc.endOperation .success)
  | crcUpdate (b : Byte) : ExecStep s (.crcUpdate b) ((s.loseResults.feed [b]).endOperation .success)
  | crcGet : ExecStep s .crcGet ((s.loseResults.giveVal (s.crc.setWidth 64)).endOperation .success)
  | fldEnc (v : BitVec 32) :
      ExecStep s (.fldEnc v) ((s.loseResults.giveBytes (encBe v)).endOperation .success)
  | fldDecIllegal (w : BitVec 8) (bs : List Byte) (hl : bs.length = w.toNat) (hw : legalWidth w = none) :
      ExecStep s (.fldDec w bs) (s.loseResults.endOperation .invalidValue)
  | fldDec (w : BitVec 8) (bs : List Byte) (hl : bs.length = w.toNat) (hw : (legalWidth w).isSome) :
      ExecStep s (.fldDec w bs)
        ((s.loseResults.giveVal ((decBe bs).setWidth 64)).endOperation .success)
  | txWrite (a c : Byte) (vals : List (BitVec 32)) (hlink : s.linkOpen = true)
      (hadm : Params.admits s.params vals.length = true) :
      ExecStep s (.txWrite a c vals) (s.loseResults.beginWrite a c vals)
  | txReadIllegal (a c : Byte) (widths : List (BitVec 8)) (hlink : s.linkOpen = true)
      (hadm : Params.admits s.params widths.length = true) (hw : legalWidths widths = none) :
      ExecStep s (.txRead a c widths) (s.loseResults.endTransaction .invalidValue)
  | txRead (a c : Byte) (widths : List (BitVec 8)) (ws : List FieldWidth) (hlink : s.linkOpen = true)
      (hadm : Params.admits s.params widths.length = true) (hw : legalWidths widths = some ws) :
      ExecStep s (.txRead a c widths) (s.loseResults.beginRead a c ws)
  | posRecon (prev : BitVec 64) (delta : BitVec 32) (status : Byte) :
      ExecStep s (.posRecon prev delta status)
        ((s.loseResults.giveVal (Sys2Proof.Machine.posRecon prev delta status)).endOperation .success)
  | openFails (port baud timeout : OpaqueValue) (a : Byte) (r : BitVec 8) (hlink : s.linkOpen = false)
      (hr : r ≠ 0#8) (ho : s.openAnswer = .fail) :
      ExecStep s (.engInit port baud timeout a r)
        ((s.loseResults.afterOpen port baud timeout).endOperation .transportOpenFailure)
  | opens (port baud timeout : OpaqueValue) (a : Byte) (r : BitVec 8) (hlink : s.linkOpen = false)
      (hr : r ≠ 0#8) (ho : s.openAnswer = .handle) :
      ExecStep s (.engInit port baud timeout a r)
        (((s.loseResults.afterOpen port baud timeout).configure a r timeout).endOperation .success)

/-- An operation that answers a next state was accepted in `Idle` and is one of those. -/
theorem exec_spec {i : Instr} {s t : State} (h : exec i s = .next t) :
    s.phase = .idle ∧ ExecStep s i t := by
  cases i with
  | crcClear => obtain ⟨hp, rfl⟩ := execCrcClear_next h; exact ⟨hp, .crcClear⟩
  | crcUpdate b => obtain ⟨hp, rfl⟩ := execCrcUpdate_next h; exact ⟨hp, .crcUpdate b⟩
  | crcGet => obtain ⟨hp, rfl⟩ := execCrcGet_next h; exact ⟨hp, .crcGet⟩
  | fldEnc v => obtain ⟨hp, rfl⟩ := execFldEnc_next h; exact ⟨hp, .fldEnc v⟩
  | fldDec w bs =>
    obtain ⟨hp, hl, ⟨hw, rfl⟩ | ⟨hw, rfl⟩⟩ := execFldDec_next h
    · exact ⟨hp, .fldDecIllegal w bs hl hw⟩
    · exact ⟨hp, .fldDec w bs hl hw⟩
  | txWrite a c vals =>
    obtain ⟨hp, hlink, hadm, rfl⟩ := execTxWrite_next h
    exact ⟨hp, .txWrite a c vals hlink hadm⟩
  | txRead a c widths =>
    obtain ⟨hp, hlink, hadm, ⟨hw, rfl⟩ | ⟨ws, hw, rfl⟩⟩ := execTxRead_next h
    · exact ⟨hp, .txReadIllegal a c widths hlink hadm hw⟩
    · exact ⟨hp, .txRead a c widths ws hlink hadm hw⟩
  | posRecon prev delta status =>
    obtain ⟨hp, rfl⟩ := execPosRecon_next h; exact ⟨hp, .posRecon prev delta status⟩
  | engInit port baud timeout a r =>
    obtain ⟨hp, hlink, hr, ⟨ho, rfl⟩ | ⟨ho, rfl⟩⟩ := execEngInit_next h
    · exact ⟨hp, .openFails port baud timeout a r hlink hr ho⟩
    · exact ⟨hp, .opens port baud timeout a r hlink hr ho⟩

/-- What one step can do when it answers a next state: a step of the sequencer, waiting, or the
acceptance of a request on the state without its bytes. -/
theorem step_spec {s t : State} (h : step s = .next t) :
    (s.phase ≠ .idle ∧ SeqStep s t) ∨ (s.phase = .idle ∧ t = s) ∨
    (s.phase = .idle ∧ ∃ (i : Instr) (left : List Byte), ExecStep { s with port := left } i t) := by
  obtain ⟨hp, rfl⟩ | ⟨hp, -, rfl⟩ | ⟨hp, i, left, -, he⟩ := step_next h
  · exact .inl ⟨hp, State.sequence_spec hp⟩
  · exact .inr (.inl ⟨hp, rfl⟩)
  · exact .inr (.inr ⟨hp, i, left, (exec_spec he).2⟩)

/-- Settles O28: the meaning of every operation begins with `State.accept`, which refuses it outside
`Idle`. -/
theorem requestDuringTransactionRefused : Obligations.RequestDuringTransactionRefused := by
  intro i s hp
  cases i <;>
    simp only [exec, execCrcClear, execCrcUpdate, execCrcGet, execFldEnc, execFldDec, execTxWrite,
      execTxRead, execPosRecon, execEngInit, State.accept_busy hp]

/-! ## The port -/

theorem State.readPort_empty {s : State} (h : s.port = []) : s.readPort = .empty := by
  simp [State.readPort, h]

theorem State.readPort_request {s : State} {i : Instr} {rest : List Byte}
    (h : decode s.port = .ok (i, rest)) : s.readPort = .request i { s with port := rest } := by
  cases hport : s.port with
  | nil => rw [hport] at h; cases h
  | cons b bs => rw [hport] at h; simp [State.readPort, hport, h]

theorem State.readPort_unreadable {s : State} {why : Reject} (hne : s.port ≠ [])
    (h : decode s.port = .error why) : s.readPort = .unreadable why := by
  cases hport : s.port with
  | nil => exact absurd hport hne
  | cons b bs => rw [hport] at h; simp [State.readPort, hport, h]

/-- Settles O55: by what the port reads in `Idle`, and by `step_busy` in every other phase. -/
theorem stepRunsTheDecodedRequest : Obligations.StepRunsTheDecodedRequest := by
  intro s
  refine ⟨fun hp => ⟨fun i rest hd => ?_, fun he => ?_, fun why hne hd => ?_⟩, step_busy⟩
  · simp [step, hp, State.readPort_request hd]
  · simp [step, hp, State.readPort_empty he]
  · simp [step, hp, State.readPort_unreadable hne hd]

end Sys2Proof.Machine
end

section
/-! PROOFS. What a step leaves unchanged: the configuration, and inside a transaction the request
(`10_state.md` R13, R17). -/

namespace Sys2Proof.Machine

/-- The configuration registers, the link and the parameters of `t` are those of `s`. -/
structure State.SameConfig (s t : State) : Prop where
  params : t.params = s.params
  address : t.cfgAddress = s.cfgAddress
  retries : t.cfgRetries = s.cfgRetries
  timeout : t.cfgTimeout = s.cfgTimeout
  link : t.linkOpen = s.linkOpen

/-- The kind and the latched operands of `t`, and what the host and `StreamOpen` have ready, are as in
`s`. -/
structure State.SameRequest (s t : State) : Prop where
  port : t.port = s.port
  kind : t.kind = s.kind
  addr : t.opAddr = s.opAddr
  cmd : t.opCmd = s.opCmd
  vals : t.opVals = s.opVals
  widths : t.opWidths = s.opWidths
  openAnswers : t.openAnswers = s.openAnswers

/-- No outcome of a phase writes the configuration. -/
theorem SeqStep.sameConfig {s t : State} (h : SeqStep s t) : s.SameConfig t := by
  cases h <;> exact ⟨rfl, rfl, rfl, rfl, rfl⟩

/-- No outcome of a phase writes the request. -/
theorem SeqStep.sameRequest {s t : State} (h : SeqStep s t) : s.SameRequest t := by
  cases h <;> exact ⟨rfl, rfl, rfl, rfl, rfl, rfl, rfl⟩

/-- An accepted operation leaves the configuration alone, unless it is an ENG_INIT that opens the link. -/
theorem ExecStep.sameConfig_or_opens {i : Instr} {s t : State} (h : ExecStep s i t) :
    s.SameConfig t ∨ (i.op = 0x8#4 ∧ s.linkOpen = false ∧ t.params = s.params) := by
  cases h with
  | opens _ _ _ _ _ hlink => exact .inr ⟨rfl, hlink, rfl⟩
  | _ => exact .inl ⟨rfl, rfl, rfl, rfl, rfl⟩

/-- One step leaves the configuration alone, unless it opens a closed link. -/
theorem step_sameConfig_or_opens {s t : State} (h : step s = .next t) :
    s.SameConfig t ∨ (s.linkOpen = false ∧ t.params = s.params) := by
  obtain ⟨-, hseq⟩ | ⟨-, rfl⟩ | ⟨-, i, left, hexec⟩ := step_spec h
  · exact .inl hseq.sameConfig
  · exact .inl ⟨rfl, rfl, rfl, rfl, rfl⟩
  · obtain ⟨hp, ha, hr, ht, hl⟩ | ⟨-, hlink, hp⟩ := hexec.sameConfig_or_opens
    · exact .inl ⟨hp, ha, hr, ht, hl⟩
    · exact .inr ⟨hlink, hp⟩

/-- Settles O46: only an ENG_INIT that opens a closed link writes the configuration. -/
theorem configurationIsImmutable : Obligations.ConfigurationIsImmutable := by
  refine ⟨fun s t h => ?_, fun i s t hi h => ?_⟩
  · obtain hsame | ⟨hclosed, hp⟩ := step_sameConfig_or_opens h
    · exact ⟨hsame.params, fun hopen =>
        ⟨hsame.address, hsame.retries, hsame.timeout, hsame.link.trans hopen⟩⟩
    · exact ⟨hp, fun hopen => by simp [hclosed] at hopen⟩
  · obtain hsame | ⟨hop, -⟩ := (exec_spec h).2.sameConfig_or_opens
    · exact ⟨hsame.address, hsame.retries, hsame.timeout, hsame.link⟩
    · exact absurd hop hi

/-- Settles O47: inside a transaction a step is one of the sequencer, which does not write the request. -/
theorem latchedOperandsStay : Obligations.LatchedOperandsStay := by
  intro s t hp h
  obtain ⟨-, hseq⟩ | ⟨hidle, -⟩ | ⟨hidle, -⟩ := step_spec h
  · obtain ⟨hport, hkind, haddr, hcmd, hvals, hwidths, hopen⟩ := hseq.sameRequest
    exact ⟨hport, hkind, haddr, hcmd, hvals, hwidths, hopen⟩
  · exact absurd hidle hp
  · exact absurd hidle hp

end Sys2Proof.Machine
end

section
/-! PROOFS. The register is the CRC of the bytes fed since the last clear (`10_state.md` R11). -/

namespace Sys2Proof.Machine

/-- The invariant R11 states. -/
def State.CrcOfFed (s : State) : Prop := s.crc = crcBytes crcInit s.fed

theorem State.CrcOfFed.feed {s : State} (h : s.CrcOfFed) (bs : List Byte) : (s.feed bs).CrcOfFed :=
  State.feed_keeps_crc h bs

theorem State.clearCrc_crcOfFed (s : State) : s.clearCrc.CrcOfFed := rfl

/-- The sequencer clears the accumulator in `Reset`, feeds it a header, a field or a received trailer, and
otherwise leaves it alone. -/
theorem SeqStep.keeps_crcOfFed {s t : State} (h : SeqStep s t) (hc : s.CrcOfFed) : t.CrcOfFed := by
  cases h with
  | resetOk => exact s.clearCrc_crcOfFed
  | headerFail | headerOk => exact hc.feed [s.opAddr, s.opCmd]
  | payloadFail _ v | payloadOk _ v => exact hc.feed (encBe v)
  | fieldOk _ _ _ bs => exact hc.feed bs
  | trailerMatch _ _ bs | mismatchEnds _ _ bs | mismatchRetries _ _ bs => exact hc.feed bs
  | _ => exact hc

/-- CRC_CLEAR and an ENG_INIT that opens the link clear the accumulator, CRC_UPDATE feeds it, and the other
operations leave it alone. -/
theorem ExecStep.keeps_crcOfFed {i : Instr} {s t : State} (h : ExecStep s i t) (hc : s.CrcOfFed) :
    t.CrcOfFed := by
  cases h with
  | crcClear | opens => exact s.clearCrc_crcOfFed
  | crcUpdate b => exact hc.feed [b]
  | _ => exact hc

/-- Settles O51: a step is one of the sequencer, no change, or the acceptance of an operation. -/
theorem crcIsOfTheBytesFed : Obligations.CrcIsOfTheBytesFed := by
  intro s t hc h
  obtain ⟨-, hseq⟩ | ⟨-, rfl⟩ | ⟨-, i, left, hexec⟩ := step_spec h
  · exact hseq.keeps_crcOfFed hc
  · exact hc
  · exact hexec.keeps_crcOfFed hc

end Sys2Proof.Machine
end


section
/-! PROOFS. The invariant `State.Legal`, read phase by phase, and that every step keeps it. -/

namespace Sys2Proof.Machine

/-! ## The invariant by phase -/

/-- The parts of the invariant that hold in every phase. -/
def State.Standing (s : State) : Prop := s.ConfigLegal ∧ s.CrcOfFed ∧ s.ListsLegal

/-- What the result registers may show between operations (`60_exceptions.md` R217). -/
def State.Settled (s : State) : Prop :=
  (s.resCode = some .timeout → s.resCount = some s.cfgRetries) ∧
  (s.resCode ≠ some .timeout → s.resCount = none) ∧
  (s.resCode ≠ some .success → s.resFld = none ∨ s.resFld = some []) ∧
  s.resCode ≠ some .invalidAck

/-- What holds throughout a transaction: the link is open and only `res_fld` has a value (`10_state.md`
R15). -/
def State.Running (s : State) : Prop :=
  s.linkOpen = true ∧ s.resCode = none ∧ s.resCount = none ∧ s.resFld = some [] ∧ s.resVal = none ∧
    s.resBytes = none

/-- What holds in every phase of an attempt, behind its Reset step. -/
def State.InAttempt (s : State) : Prop :=
  s.Running ∧ 0 < s.attempt.toNat ∧ s.attempt.toNat ≤ s.cfgRetries.toNat

/-- What the invariant says of a state in one phase. -/
def State.PhaseLegal (s : State) : Phase → Prop
  | .idle => s.Settled
  | .reset => s.Running ∧ s.attempt.toNat < s.cfgRetries.toNat
  | .sendHeader => s.InAttempt ∧ s.fidx = 0 ∧ s.fld = [] ∧ s.fed = []
  | .sendPayload =>
    s.InAttempt ∧ s.kind = .write ∧ s.fidx ≤ s.opVals.length ∧
      s.fed = frameBody s.opAddr s.opCmd (s.opVals.take s.fidx)
  | .receiveFields =>
    s.InAttempt ∧ s.kind = .read ∧ s.fidx ≤ s.opWidths.length ∧ s.fld.length = s.fidx ∧
      s.fed = readRequest s.opAddr s.opCmd ++ s.receivedBytes
  | .trailerExchange =>
    s.InAttempt ∧
      (s.kind = .write → s.fidx = s.opVals.length ∧ s.fed = frameBody s.opAddr s.opCmd s.opVals) ∧
      (s.kind = .read → s.fidx = s.opWidths.length ∧ s.fld.length = s.fidx ∧
        s.fed = readRequest s.opAddr s.opCmd ++ s.receivedBytes)
  | .retryOrFail =>
    s.InAttempt ∧ s.lastFail ≠ .none ∧ (s.lastFail = .badAck → s.kind = .write) ∧
      (s.lastFail = .crcBad → s.kind = .read ∧ s.params.mismatchPolicy = .retry)

theorem State.Legal.standing {s : State} (h : s.Legal) : s.Standing := by
  obtain ⟨hconfig, -, -, -, -, ⟨hcrc, -⟩, hlists⟩ := h
  exact ⟨hconfig, hcrc, hlists⟩

theorem State.Legal.running {s : State} (h : s.Legal) (hp : s.phase ≠ .idle) : s.Running := by
  obtain ⟨-, hattempt, -, -, ⟨hbusy, -, hcount, -⟩, -⟩ := h
  obtain ⟨hcode, hfld, hval, hbytes⟩ := hbusy hp
  exact ⟨(hattempt hp).1, hcode, hcount (by simp [hcode]), hfld, hval, hbytes⟩

theorem State.Legal.inAttempt {s : State} (h : s.Legal) (hp : s.phase ≠ .idle) (hr : s.phase ≠ .reset) :
    s.InAttempt := by
  obtain ⟨-, hle, -, hpos⟩ := h.2.1 hp
  exact ⟨h.running hp, hpos hr, hle⟩

/-- What the invariant says of the phase the state is in. -/
theorem State.Legal.phaseLegal {s : State} (h : s.Legal) : s.PhaseLegal s.phase := by
  obtain ⟨-, hattempt, ⟨hhead, hpay, hrecv, hwrite, hread⟩, hfail, ⟨-, hsettled⟩,
    ⟨-, hheadFed, hpayFed, hrecvFed, hwriteFed, hreadFed⟩, -⟩ := id h
  cases hp : s.phase with
  | idle => exact hsettled
  | reset =>
    have hrun := h.running (by simp [hp])
    obtain ⟨-, -, hlt, -⟩ := hattempt (by simp [hp])
    exact ⟨hrun, hlt hp⟩
  | sendHeader =>
    obtain ⟨hfidx, hfld⟩ := hhead hp
    exact ⟨h.inAttempt (by simp [hp]) (by simp [hp]), hfidx, hfld, hheadFed hp⟩
  | sendPayload =>
    obtain ⟨hkind, hle⟩ := hpay hp
    exact ⟨h.inAttempt (by simp [hp]) (by simp [hp]), hkind, hle, hpayFed hp⟩
  | receiveFields =>
    obtain ⟨hkind, hle, hlen⟩ := hrecv hp
    exact ⟨h.inAttempt (by simp [hp]) (by simp [hp]), hkind, hle, hlen, hrecvFed hp⟩
  | trailerExchange =>
    refine ⟨h.inAttempt (by simp [hp]) (by simp [hp]), fun hk => ?_, fun hk => ?_⟩
    · exact ⟨hwrite hp hk, hwriteFed hp hk⟩
    · exact ⟨(hread hp hk).1, (hread hp hk).2, hreadFed hp hk⟩
  | retryOrFail => exact ⟨h.inAttempt (by simp [hp]) (by simp [hp]), hfail hp⟩

/-- The invariant is its standing part and what it says of the phase the state is in: each other part of
`State.Legal` is a fact of that phase, or its premise names another phase. -/
theorem State.legal_iff {s : State} : s.Legal ↔ s.Standing ∧ s.PhaseLegal s.phase := by
  refine ⟨fun h => ⟨h.standing, h.phaseLegal⟩, ?_⟩
  rintro ⟨⟨hconfig, hcrc, hlists⟩, h⟩
  cases hp : s.phase <;> rw [hp] at h <;> refine ⟨hconfig, ?_, ?_, ?_, ?_, ⟨hcrc, ?_⟩, hlists⟩ <;>
    simp_all [State.PhaseLegal, State.InAttempt, State.Running, State.Settled, State.AttemptLegal,
      State.ProgressLegal, State.FailureLegal, State.ResultsLegal, Nat.le_of_lt]

theorem State.legal_of_phase {s : State} {p : Phase} (hp : s.phase = p) (hs : s.Standing)
    (h : s.PhaseLegal p) : s.Legal :=
  State.legal_iff.2 ⟨hs, hp ▸ h⟩

/-! ## What the shared operations keep of it -/

theorem State.Standing.feed {s : State} (h : s.Standing) (bs : List Byte) : (s.feed bs).Standing := by
  obtain ⟨hconfig, hcrc, hlists⟩ := h
  exact ⟨hconfig, hcrc.feed bs, hlists⟩

theorem State.Standing.clearCrc {s : State} (h : s.Standing) : s.clearCrc.Standing := by
  obtain ⟨hconfig, -, hlists⟩ := h
  exact ⟨hconfig, s.clearCrc_crcOfFed, hlists⟩

/-- An operation that has lost the old results may end with any condition but the two that belong to
transactions. -/
theorem State.endOperation_legal {s : State} {c : Condition} (hp : s.phase = .idle) (hs : s.Standing)
    (hcount : s.resCount = none) (hfld : s.resFld = none) (hto : c ≠ .timeout)
    (hack : c ≠ .invalidAck) : (s.endOperation c).Legal :=
  State.legal_of_phase hp hs (by simp [State.PhaseLegal, State.Settled, hcount, hfld, hto, hack])

/-- A transaction may end from any state with any condition but `InvalidAck` (`60_exceptions.md` R217). -/
theorem State.endTransaction_legal {s : State} {c : Condition} (hs : s.Standing)
    (hack : c ≠ .invalidAck) : (s.endTransaction c).Legal :=
  State.legal_of_phase rfl hs (by simp +contextual [State.PhaseLegal, State.Settled, hack])

/-- An attempt may fail for a reason that its kind of transaction and the policy allow
(`60_exceptions.md` R212). -/
theorem State.failAttempt_legal {s : State} {why : LastFail} (hs : s.Standing) (hatt : s.InAttempt)
    (hwhy : why ≠ .none) (hack : why = .badAck → s.kind = .write)
    (hcrc : why = .crcBad → s.kind = .read ∧ s.params.mismatchPolicy = .retry) :
    (s.failAttempt why).Legal :=
  State.legal_iff.2 ⟨hs, hatt, hwhy, hack, hcrc⟩

/-- A transaction may begin with no attempt counted, since an open link has a configuration that allows
one (`41_framer_write.md` R124, `42_deframer_read.md` R153). -/
theorem State.legal_of_begun {s : State} (hp : s.phase = .reset) (hs : s.Standing) (hrun : s.Running)
    (hzero : s.attempt = 0#8) : s.Legal := by
  have ⟨hconfig, _⟩ := hs
  have ⟨hlink, _⟩ := hrun
  have hne := hconfig hlink
  have hlt : s.attempt.toNat < s.cfgRetries.toNat := by bv_omega
  exact State.legal_of_phase hp hs ⟨hrun, hlt⟩

/-! ## What a step keeps of it -/

/-- A zip grows by one pair when its shorter list does. -/
theorem zipWith_append_singleton {α β γ : Type} (f : α → β → γ) {xs : List α} {ys : List β} {x : α}
    (h : xs[ys.length]? = some x) (y : β) :
    List.zipWith f xs (ys ++ [y]) = List.zipWith f xs ys ++ [f x y] := by
  induction ys generalizing xs with
  | nil => cases xs <;> simp_all
  | cons y' ys ih => cases xs <;> simp_all

/-- The bytes of the fields received grow by those of the field just decoded (`42_deframer_read.md`
R157). -/
theorem State.storeField_receivedBytes {s : State} {w : FieldWidth} (hlen : s.fld.length = s.fidx)
    (hw : s.opWidths[s.fidx]? = some w) (v : BitVec 32) :
    (s.storeField v).receivedBytes = s.receivedBytes ++ fieldBytes w v := by
  simp [State.receivedBytes, zipWith_append_singleton fieldBytes (hlen ▸ hw)]

/-- The body of a write frame grows by the field just sent (`41_framer_write.md` R128). -/
theorem frameBody_take_succ {a c : Byte} {vals : List (BitVec 32)} {i : Nat} {v : BitVec 32}
    (hv : vals[i]? = some v) :
    frameBody a c (vals.take (i + 1)) = frameBody a c (vals.take i) ++ encBe v := by
  simp [frameBody, List.take_add_one, hv]

/-- The Reset step starts an attempt that `cfg_retries` allows, so that counting it cannot wrap
(`41_framer_write.md` R126). -/
theorem State.countAttempt_inAttempt {s : State} (hrun : s.Running)
    (hlt : s.attempt.toNat < s.cfgRetries.toNat) : s.countAttempt.InAttempt := by
  have hmax := s.cfgRetries.isLt
  have hcount : s.countAttempt.attempt.toNat = s.attempt.toNat + 1 := by
    simp only [State.countAttempt_attempt]; bv_omega
  exact ⟨hrun, hcount ▸ Nat.succ_pos _, hcount ▸ hlt⟩

/-- The header leads into the phase of the transaction's kind, with no field sent or received. -/
theorem State.bodyPhase_legal {s : State} (hp : s.phase = TxKind.bodyPhase s.kind) (hs : s.Standing)
    (hatt : s.InAttempt) (hfidx : s.fidx = 0) (hfld : s.fld = []) (hfed : s.fed = [s.opAddr, s.opCmd]) :
    s.Legal := by
  cases hk : s.kind with
  | write =>
    rw [hk] at hp
    exact State.legal_of_phase hp hs ⟨hatt, hk, by simp [hfidx], by simp [hfed, hfidx, frameBody]⟩
  | read =>
    rw [hk] at hp
    exact State.legal_of_phase hp hs ⟨hatt, hk, by simp [hfidx], by simp [hfld, hfidx],
      by simp [hfed, hfld, readRequest, State.receivedBytes]⟩

/-- Every outcome of a phase is the end of the transaction, the failure of the attempt, or one of the
transitions inside an attempt, each of which hands on what its next phase asks for. -/
theorem SeqStep.keeps_legal {s t : State} (h : SeqStep s t) (hl : s.Legal) : t.Legal := by
  obtain ⟨hs, hphase⟩ := State.legal_iff.1 hl
  cases h with
  | resetFail => exact State.endTransaction_legal hs (by decide)
  | resetOk hp =>
    rw [hp] at hphase
    obtain ⟨hrun, hlt⟩ := hphase
    exact State.legal_of_phase rfl hs.clearCrc ⟨State.countAttempt_inAttempt hrun hlt, rfl, rfl, rfl⟩
  | headerFail => exact State.endTransaction_legal (hs.feed _) (by decide)
  | headerOk hp =>
    rw [hp] at hphase
    obtain ⟨hatt, hfidx, hfld, hfed⟩ := hphase
    exact State.bodyPhase_legal rfl (hs.feed _) hatt hfidx hfld (by simp [hfed])
  | payloadDone hp hle =>
    rw [hp] at hphase
    obtain ⟨hatt, hk, hge, hfed⟩ := hphase
    have hall : s.fidx = s.opVals.length := le_antisymm hge hle
    rw [hall, List.take_length] at hfed
    exact State.legal_of_phase rfl hs ⟨hatt, fun _ => ⟨hall, hfed⟩, fun hr => by simp [hk] at hr⟩
  | payloadFail _ v => exact State.endTransaction_legal (hs.feed (encBe v)) (by decide)
  | payloadOk hp v hv =>
    rw [hp] at hphase
    obtain ⟨hatt, hk, -, hfed⟩ := hphase
    obtain ⟨hlt, -⟩ := List.getElem?_eq_some_iff.1 hv
    exact State.legal_of_phase hp (hs.feed (encBe v))
      ⟨hatt, hk, hlt, by simp [hfed, frameBody_take_succ hv]⟩
  | fieldsDone hp hle =>
    rw [hp] at hphase
    obtain ⟨hatt, hk, hge, hlen, hfed⟩ := hphase
    have hall : s.fidx = s.opWidths.length := le_antisymm hge hle
    exact State.legal_of_phase rfl hs ⟨hatt, fun hw => by simp [hk] at hw,
      fun _ => ⟨hall, hlen, hfed⟩⟩
  | fieldOk hp w hw bs _ hbs =>
    rw [hp] at hphase
    obtain ⟨hatt, hk, -, hlen, hfed⟩ := hphase
    obtain ⟨hlt, -⟩ := List.getElem?_eq_some_iff.1 hw
    have hfed' : s.fed ++ bs =
        readRequest s.opAddr s.opCmd ++ (s.storeField (decBe bs)).receivedBytes := by
      rw [State.storeField_receivedBytes hlen hw, fieldBytes, fieldBytes_decBe hbs, hfed,
        List.append_assoc]
    exact State.legal_of_phase hp (hs.feed bs) ⟨hatt, hk, hlt, by simp [hlen], hfed'⟩
  | fieldTimeout hp | ackTimeout hp | trailerTimeout hp =>
    rw [hp] at hphase
    obtain ⟨hatt, -⟩ := hphase
    exact State.failAttempt_legal hs hatt (by decide) (by simp) (by simp)
  | ackBad hp hk =>
    rw [hp] at hphase
    obtain ⟨hatt, -⟩ := hphase
    exact State.failAttempt_legal hs hatt (by decide) (fun _ => hk) (by simp)
  | trailerMatch _ _ bs | mismatchEnds _ _ bs =>
    exact State.endTransaction_legal (hs.feed bs) (by decide)
  | mismatchRetries hp hk bs _ _ _ hq =>
    rw [hp] at hphase
    obtain ⟨hatt, -⟩ := hphase
    exact State.failAttempt_legal (hs.feed bs) hatt (by decide) (by simp) (fun _ => ⟨hk, hq⟩)
  | again hp hlt =>
    rw [hp] at hphase
    obtain ⟨⟨hrun, -⟩, -⟩ := hphase
    exact State.legal_of_phase rfl hs ⟨hrun, hlt⟩
  | fieldFail | sendTrailerFail | ackOk | ackFail | trailerFail | exhaustedMismatch | exhausted =>
    exact State.endTransaction_legal hs (by decide)

/-- An accepted operation ends in `Idle` with its condition, or begins a transaction. -/
theorem ExecStep.keeps_legal {i : Instr} {s t : State} (h : ExecStep s i t) (hp : s.phase = .idle)
    (hl : s.Legal) : t.Legal := by
  have hs := hl.standing
  cases h with
  | crcClear => exact State.endOperation_legal hp hs.clearCrc rfl rfl (by decide) (by decide)
  | crcUpdate b => exact State.endOperation_legal hp (hs.feed [b]) rfl rfl (by decide) (by decide)
  | txWrite a c vals hlink hadm =>
    obtain ⟨hconfig, hcrc, -, hwidths⟩ := hs
    exact State.legal_of_begun rfl ⟨hconfig, hcrc, hadm, hwidths⟩ ⟨hlink, rfl, rfl, rfl, rfl, rfl⟩ rfl
  | txReadIllegal => exact State.endTransaction_legal hs (by decide)
  | txRead a c widths ws hlink hadm hw =>
    obtain ⟨hconfig, hcrc, hvals, -⟩ := hs
    have hlen : widths.length = ws.length := by
      simpa using congrArg List.length (legalWidths_eq_some.1 hw)
    rw [hlen] at hadm
    exact State.legal_of_begun rfl ⟨hconfig, hcrc, hvals, hadm⟩ ⟨hlink, rfl, rfl, rfl, rfl, rfl⟩ rfl
  | opens _ _ _ _ _ _ hr =>
    obtain ⟨-, -, hlists⟩ := hs
    exact State.endOperation_legal hp ⟨fun _ => hr, s.clearCrc_crcOfFed, hlists⟩ rfl rfl (by decide)
      (by decide)
  | _ => exact State.endOperation_legal hp hs rfl rfl (by decide) (by decide)

/-- Settles O52: a step is one of the sequencer, no change, or the acceptance of an operation. -/
theorem stepKeepsLegal : Obligations.StepKeepsLegal := by
  intro s t hl h
  obtain ⟨-, hseq⟩ | ⟨-, rfl⟩ | ⟨hp, i, left, hexec⟩ := step_spec h
  · exact hseq.keeps_legal hl
  · exact hl
  · exact hexec.keeps_legal hp hl

/-- Settles O53: at reset the phase is `Idle`, the link closed, nothing fed, and no result has a value. -/
theorem resetIsLegal : Obligations.ResetIsLegal :=
  State.legal_of_phase rfl ⟨by decide, rfl, rfl, rfl⟩
    (by simp [State.PhaseLegal, State.Settled, State.reset])

/-- Settles O54: `State.reset` gives each of these registers its value, and `State.hardwareReset` takes them
from it and the stream from the running block. -/
theorem hardwareReset : Obligations.HardwareReset :=
  ⟨⟨rfl, rfl, rfl, rfl, rfl, rfl, rfl, rfl⟩,
    fun _ => ⟨rfl, rfl, rfl, rfl, rfl, rfl, rfl, rfl, rfl, rfl, rfl, rfl, rfl⟩⟩

end Sys2Proof.Machine
end

section
/-! PROOFS. The stream calls of a step (`20_memory.md` R49): which ones it appends to the history, and that
outside a transaction only ENG_INIT reaches the stream. -/

namespace Sys2Proof.Machine

/-- The record of stream calls and the environment's answers of `t` are those of `s`: no call has been made
and no answer used up. -/
structure State.SameStream (s t : State) : Prop where
  history : t.history = s.history
  openAnswers : t.openAnswers = s.openAnswers
  clearAnswers : t.clearAnswers = s.clearAnswers
  writeAnswers : t.writeAnswers = s.writeAnswers
  readAnswers : t.readAnswers = s.readAnswers
  freeIdx : t.freeIdx = s.freeIdx

/-- Every outcome of a phase has made the calls R49 lists for the phase. -/
theorem SeqStep.history_eq {s t : State} (h : SeqStep s t) : t.history = s.history ++ s.calls := by
  cases h with
  | resetFail hp | resetOk hp | headerFail hp | headerOk hp => simp [State.calls, hp]
  | payloadDone hp hle | fieldsDone hp hle => simp [State.calls, hp, List.getElem?_eq_none hle]
  | payloadFail hp v hv | payloadOk hp v hv => simp [State.calls, hp, hv]
  | fieldOk hp w hw | fieldTimeout hp w hw | fieldFail hp w hw => simp [State.calls, hp, hw]
  | sendTrailerFail hp hk n hw => simp [State.calls, hp, hk, hw]
  | ackOk hp hk hw | ackBad hp hk hw | ackTimeout hp hk hw | ackFail hp hk hw =>
    simp [State.calls, hp, hk, hw]
  | trailerMatch hp hk | mismatchEnds hp hk | mismatchRetries hp hk | trailerTimeout hp hk
  | trailerFail hp hk => simp [State.calls, hp, hk]
  | again hp | exhaustedMismatch hp | exhausted hp => simp [State.calls, hp]

/-- Only the write's trailer exchange has two calls due (`41_framer_write.md` R130, log 12). -/
theorem State.calls_length_le (s : State) : s.calls.length ≤ 2 := by
  cases hp : s.phase with
  | idle | reset | sendHeader | retryOrFail => simp [State.calls, hp]
  | sendPayload => cases hv : s.opVals[s.fidx]? <;> simp [State.calls, hp, hv]
  | receiveFields => cases hw : s.opWidths[s.fidx]? <;> simp [State.calls, hp, hw]
  | trailerExchange =>
    cases hk : s.kind with
    | write => cases hw : s.writeAnswer <;> simp [State.calls, hp, hk, hw]
    | read => simp [State.calls, hp, hk]

/-- An accepted operation leaves the stream alone, unless it is an ENG_INIT, which calls `StreamOpen` once
(`44_system.md` R195). -/
theorem ExecStep.sameStream_or_opened {i : Instr} {s t : State} (h : ExecStep s i t) :
    s.SameStream t ∨ (i.op = 0x8#4 ∧ ∃ event, t.history = s.history ++ [event]) := by
  cases h with
  | openFails | opens => exact .inr ⟨rfl, _, rfl⟩
  | _ => exact .inl ⟨rfl, rfl, rfl, rfl, rfl, rfl⟩

/-- One step appends to the history and makes at most two calls. -/
theorem step_appends_history {s t : State} (h : step s = .next t) :
    ∃ events : List StreamEvent, t.history = s.history ++ events ∧ events.length ≤ 2 := by
  obtain ⟨-, hseq⟩ | ⟨-, rfl⟩ | ⟨-, i, left, hexec⟩ := step_spec h
  · exact ⟨s.calls, hseq.history_eq, s.calls_length_le⟩
  · exact ⟨[], (List.append_nil _).symm, by decide⟩
  · obtain hsame | ⟨-, event, hevent⟩ := hexec.sameStream_or_opened
    · exact ⟨[], hsame.history.trans (List.append_nil _).symm, by decide⟩
    · exact ⟨[event], hevent, by simp⟩

/-- Settles O48: a step of the sequencer makes the calls of its phase, and of the operations only ENG_INIT
calls the stream. -/
theorem streamCallsOfEachPhase : Obligations.StreamCallsOfEachPhase := by
  refine ⟨fun s t hp h => ?_, fun s t => step_appends_history, fun i s t hi h => ?_⟩
  · rw [step_busy hp] at h
    cases h
    exact (State.sequence_spec hp).history_eq
  · obtain ⟨hhist, hopen, hclear, hwrite, hread, hfree⟩ | ⟨hop, -⟩ :=
      (exec_spec h).2.sameStream_or_opened
    · exact ⟨hhist, hopen, hclear, hwrite, hread, hfree⟩
    · exact absurd hop hi

end Sys2Proof.Machine
end

section
/-! PROOFS. No decision of a write depends on the address or the command (`20_memory.md` R41): two states
that differ only in what these two bytes enter decide alike, and each operation of the sequencer keeps them
so. -/

namespace Sys2Proof.Machine

/-- The two states differ in nothing but what the address and the command of a transaction enter. -/
def State.SameButAddressing (s s' : State) : Prop := s.hideAddressing = s'.hideAddressing

namespace State.SameButAddressing

variable {s s' : State}

/-! ## What such states agree on -/

/-- They agree on whatever does not read what is blanked. -/
theorem agree {α : Type} {f : State → α} (hf : ∀ r : State, f r.hideAddressing = f r)
    (h : s.SameButAddressing s') : f s = f s' :=
  calc f s = f s.hideAddressing := (hf s).symm
    _ = f s'.hideAddressing := congrArg f h
    _ = f s' := hf s'

theorem phase (h : s.SameButAddressing s') : s.phase = s'.phase := h.agree fun _ => rfl

theorem kind (h : s.SameButAddressing s') : s.kind = s'.kind := h.agree fun _ => rfl

theorem fidx (h : s.SameButAddressing s') : s.fidx = s'.fidx := h.agree fun _ => rfl

theorem attempt (h : s.SameButAddressing s') : s.attempt = s'.attempt := h.agree fun _ => rfl

theorem cfgRetries (h : s.SameButAddressing s') : s.cfgRetries = s'.cfgRetries := h.agree fun _ => rfl

theorem lastFail (h : s.SameButAddressing s') : s.lastFail = s'.lastFail := h.agree fun _ => rfl

theorem opVals (h : s.SameButAddressing s') : s.opVals = s'.opVals := h.agree fun _ => rfl

theorem opWidths (h : s.SameButAddressing s') : s.opWidths = s'.opWidths := h.agree fun _ => rfl

theorem clearAnswer (h : s.SameButAddressing s') : s.clearAnswer = s'.clearAnswer := h.agree fun _ => rfl

theorem writeAnswer (h : s.SameButAddressing s') : s.writeAnswer = s'.writeAnswer := h.agree fun _ => rfl

theorem readResult (h : s.SameButAddressing s') (n : Nat) : s.readResult n = s'.readResult n :=
  h.agree (f := (State.readResult · n)) fun _ => rfl

/-! ## What keeps them so

The bytes fed or written may differ, since only the accumulator and the record of bytes hold them. -/

/-- An update whose effect on the rest does not read what is blanked. -/
theorem map {f : State → State} (hf : ∀ r : State, (f r.hideAddressing).hideAddressing = (f r).hideAddressing)
    (h : s.SameButAddressing s') : (f s).SameButAddressing (f s') :=
  h.agree (f := fun r => (f r).hideAddressing) hf

theorem feed (h : s.SameButAddressing s') (bs bs' : List Byte) :
    (s.feed bs).SameButAddressing (s'.feed bs') := h

theorem clearCrc (h : s.SameButAddressing s') : s.clearCrc.SameButAddressing s'.clearCrc := h

theorem afterClear (h : s.SameButAddressing s') : s.afterClear.SameButAddressing s'.afterClear :=
  h.map fun _ => rfl

theorem afterWrite (h : s.SameButAddressing s') (bs bs' : List Byte) :
    (s.afterWrite bs).SameButAddressing (s'.afterWrite bs') :=
  h.map (f := (State.afterWrite · bs)) fun _ => rfl

theorem afterRead (h : s.SameButAddressing s') (n : Nat) :
    (s.afterRead n).SameButAddressing (s'.afterRead n) :=
  h.map (f := (State.afterRead · n)) fun _ => rfl

theorem goto (h : s.SameButAddressing s') (p : Phase) : (s.goto p).SameButAddressing (s'.goto p) :=
  h.map (f := (State.goto · p)) fun _ => rfl

theorem countAttempt (h : s.SameButAddressing s') : s.countAttempt.SameButAddressing s'.countAttempt :=
  h.map fun _ => rfl

theorem restartFields (h : s.SameButAddressing s') :
    s.restartFields.SameButAddressing s'.restartFields :=
  h.map fun _ => rfl

theorem advanceField (h : s.SameButAddressing s') : s.advanceField.SameButAddressing s'.advanceField :=
  h.map fun _ => rfl

theorem storeField (h : s.SameButAddressing s') (v : BitVec 32) :
    (s.storeField v).SameButAddressing (s'.storeField v) :=
  h.map (f := (State.storeField · v)) fun _ => rfl

theorem endTransaction (h : s.SameButAddressing s') (c : Condition) :
    (s.endTransaction c).SameButAddressing (s'.endTransaction c) :=
  h.map (f := (State.endTransaction · c)) fun _ => rfl

theorem failAttempt (h : s.SameButAddressing s') (why : LastFail) :
    (s.failAttempt why).SameButAddressing (s'.failAttempt why) :=
  h.map (f := (State.failAttempt · why)) fun _ => rfl

/-! ## The phases -/

theorem resetAttempt (h : s.SameButAddressing s') : s.resetAttempt.SameButAddressing s'.resetAttempt := by
  simp only [State.resetAttempt, h.countAttempt.clearAnswer]
  split
  · exact h.countAttempt.afterClear.endTransaction _
  · exact h.countAttempt.afterClear.clearCrc.restartFields.goto _

theorem sendHeader (h : s.SameButAddressing s') : s.sendHeader.SameButAddressing s'.sendHeader := by
  simp only [State.sendHeader, State.feed_writeAnswer, State.feed_kind, h.writeAnswer, h.kind]
  split
  · exact ((h.feed _ _).afterWrite _ _).endTransaction _
  · exact ((h.feed _ _).afterWrite _ _).goto _

theorem sendPayload (h : s.SameButAddressing s') : s.sendPayload.SameButAddressing s'.sendPayload := by
  simp only [State.sendPayload, State.feed_writeAnswer, h.writeAnswer, h.opVals, h.fidx]
  split
  · split
    · exact ((h.feed _ _).afterWrite _ _).endTransaction _
    · exact ((h.feed _ _).afterWrite _ _).advanceField
  · exact h.goto _

theorem receiveFields (h : s.SameButAddressing s') :
    s.receiveFields.SameButAddressing s'.receiveFields := by
  simp only [State.receiveFields, h.readResult, h.opWidths, h.fidx]
  split
  · split
    · exact ((h.afterRead _).feed _ _).storeField _
    · exact (h.afterRead _).failAttempt _
    · exact (h.afterRead _).endTransaction _
  · exact h.goto _

theorem readAck (h : s.SameButAddressing s') : s.readAck.SameButAddressing s'.readAck := by
  simp only [State.readAck, h.readResult]
  split
  · split
    · exact (h.afterRead 1).endTransaction _
    · exact (h.afterRead 1).failAttempt _
  · exact (h.afterRead 1).failAttempt _
  · exact (h.afterRead 1).endTransaction _

/-- The trailers sent may differ, but what is done next depends on the answers alone. -/
theorem writeTrailer (h : s.SameButAddressing s') : s.writeTrailer.SameButAddressing s'.writeTrailer := by
  simp only [State.writeTrailer, h.writeAnswer]
  split
  · exact (h.afterWrite _ _).endTransaction _
  · exact (h.afterWrite _ _).readAck

theorem retryOrFail (h : s.SameButAddressing s') : s.retryOrFail.SameButAddressing s'.retryOrFail := by
  simp only [State.retryOrFail, h.attempt, h.cfgRetries, h.kind, h.lastFail]
  split
  · exact h.goto _
  · split
    · exact h.endTransaction _
    · exact h.endTransaction _

/-- Of all phases only the trailer exchange of a read compares the accumulator with anything, and a write
does not have it. -/
theorem sequence (h : s.SameButAddressing s') (hk : s.kind = .write) :
    s.sequence.SameButAddressing s'.sequence := by
  simp only [State.sequence, State.trailerExchange, ← h.phase, ← h.kind, hk]
  cases s.phase with
  | idle => exact h
  | reset => exact h.resetAttempt
  | sendHeader => exact h.sendHeader
  | sendPayload => exact h.sendPayload
  | receiveFields => exact h.receiveFields
  | trailerExchange => exact h.writeTrailer
  | retryOrFail => exact h.retryOrFail

end State.SameButAddressing

/-- The kind of a transaction stays what it is, and between transactions nothing moves. -/
theorem State.sequence_kind (s : State) : s.sequence.kind = s.kind := by
  by_cases hp : s.phase = .idle
  · rw [State.sequence_idle hp]
  · exact (State.sequence_spec hp).sameRequest.kind

/-- Settles O45, by induction on the number of steps: each step of a write keeps the two states alike, and
the transaction a write. -/
theorem writeIgnoresAddressAndCommand : Obligations.WriteIgnoresAddressAndCommand := by
  intro s s' n hk h
  induction n generalizing s s' with
  | zero => exact h
  | succ n ih =>
    have hnext : s.sequence.SameButAddressing s'.sequence := State.SameButAddressing.sequence h hk
    exact ih _ _ (s.sequence_kind.trans hk) hnext

end Sys2Proof.Machine
end

section
/-! PROOFS. The request codec, assembled from the laws of its parts: the operation-select code in the first
byte, the operand fields of each format both ways, and what the block does with bytes that spell a request
or a reserved code (`30_encoding.md` R80 to R82). -/

namespace Sys2Proof

open Sys2Proof.Machine

/-! ## The operation-select code -/

/-- A slice of a value's bits is zero exactly when the number it spells is. -/
theorem extractLsb'_eq_zero_iff {w : Nat} (v : BitVec w) (start len : Nat) :
    v.extractLsb' start len = 0#len ↔ v.toNat / 2 ^ start % 2 ^ len = 0 := by
  simp [← BitVec.toNat_inj, BitVec.extractLsb'_toNat, Nat.shiftRight_eq_div_pow]

/-- An operation-select code, zero-extended to the first byte, selects the operation (log 1). -/
theorem decode_op_cons (op : BitVec 4) (bs : List Byte) :
    decode (op.setWidth 8 :: bs) = decodeOperands op bs := by
  have hhigh : (op.setWidth 8).extractLsb' 4 4 = 0#4 := by revert op; decide
  have hlow : (op.setWidth 8).extractLsb' 0 4 = op := by revert op; decide
  rw [decode, if_pos hhigh, hlow]

theorem setWidth_low_of_high_zero {b : Byte} (h : b.extractLsb' 4 4 = 0#4) :
    (b.extractLsb' 0 4).setWidth 8 = b := by
  have hhigh := (extractLsb'_eq_zero_iff b 4 4).1 h
  apply BitVec.eq_of_toNat_eq
  simp only [BitVec.toNat_setWidth, BitVec.extractLsb'_toNat, Nat.shiftRight_zero]
  omega

/-- Bytes that decode begin with an operation-select code, and their operand fields decode. -/
theorem decode_eq_ok {bs rest : List Byte} {i : Instr} (h : decode bs = .ok (i, rest)) :
    ∃ (op : BitVec 4) (operands : List Byte),
      bs = op.setWidth 8 :: operands ∧ decodeOperands op operands = .ok (i, rest) := by
  unfold decode at h
  split at h
  · cases h
  · split at h
    · next hz => exact ⟨_, _, by rw [setWidth_low_of_high_zero hz], h⟩
    · cases h

theorem decodeOperands_reserved {op : BitVec 4} (h : 9 ≤ op.toNat) (bs : List Byte) :
    decodeOperands op bs = .error (.reservedOp op) := by
  unfold decodeOperands
  split
  iterate 9 · omega
  · rfl

/-! ## Decoding what was encoded -/

@[simp] theorem Parsed.andThen_ok {α β : Type} (a : α) (left : List Byte)
    (k : α → List Byte → Parsed β) : Parsed.andThen (.ok (a, left)) k = k a left := rfl

theorem decodeField_toNat (n : Nat) (v : BitVec (8 * n)) (rest : List Byte) :
    decodeField n (beBytes n v.toNat ++ rest) = .ok (v.toNat, rest) :=
  decodeField_beBytes n v.toNat rest (by have := v.isLt; rwa [Nat.pow_mul] at this)

theorem decodeOperands_encode (i : Instr) (rest : List Byte) :
    decodeOperands i.op (encodeOperands i ++ rest) = .ok (i, rest) := by
  cases i with
  | crcClear => rfl
  | crcUpdate b =>
    simp [Instr.op, decodeOperands, encodeOperands, decodeCrcUpdate, decodeField_one]
  | crcGet => rfl
  | fldEnc v =>
    simp [Instr.op, decodeOperands, encodeOperands, decodeFldEnc, decodeField_toNat 4 v]
  | fldDec w bs =>
    simp [Instr.op, decodeOperands, encodeOperands, decodeFldDec, decodeField_one, decodeByteList_encode]
  | txWrite a c vals =>
    simp [Instr.op, decodeOperands, encodeOperands, decodeTxWrite, decodeField_one, decodeValueList_encode]
  | txRead a c widths =>
    simp [Instr.op, decodeOperands, encodeOperands, decodeTxRead, decodeField_one, decodeByteList_encode]
  | posRecon prev delta status =>
    simp [Instr.op, decodeOperands, encodeOperands, decodePosRecon, decodeField_one, decodeField_toNat 8 prev,
      decodeField_toNat 4 delta]
  | engInit port baud timeout address retries =>
    simp [Instr.op, decodeOperands, encodeOperands, decodeEngInit, decodeField_one, decodeByteList_encode]

/-! ## Encoding what was decoded -/

theorem decodeField_eq_ok_toNat {n v : Nat} {bs rest : List Byte} (h : decodeField n bs = .ok (v, rest)) :
    bs = beBytes n (BitVec.ofNat (8 * n) v).toNat ++ rest := by
  obtain ⟨hbs, hlt⟩ := decodeField_eq_ok h
  rw [BitVec.toNat_ofNat, Nat.pow_mul, Nat.mod_eq_of_lt hlt, hbs]

theorem decodeCrcUpdate_eq_ok {bs rest : List Byte} {i : Instr}
    (h : decodeCrcUpdate bs = .ok (i, rest)) : i.op = 0x1#4 ∧ bs = encodeOperands i ++ rest := by
  obtain ⟨b, _, hb, h⟩ := Parsed.andThen_eq_ok h
  cases h
  exact ⟨rfl, decodeField_one_eq_ok hb⟩

theorem decodeFldEnc_eq_ok {bs rest : List Byte} {i : Instr}
    (h : decodeFldEnc bs = .ok (i, rest)) : i.op = 0x3#4 ∧ bs = encodeOperands i ++ rest := by
  obtain ⟨v, _, hv, h⟩ := Parsed.andThen_eq_ok h
  cases h
  exact ⟨rfl, decodeField_eq_ok_toNat hv⟩

theorem decodeFldDec_eq_ok {bs rest : List Byte} {i : Instr}
    (h : decodeFldDec bs = .ok (i, rest)) : i.op = 0x4#4 ∧ bs = encodeOperands i ++ rest := by
  obtain ⟨w, _, hw, h⟩ := Parsed.andThen_eq_ok h
  obtain ⟨field, _, hfield, h⟩ := Parsed.andThen_eq_ok h
  cases h
  exact ⟨rfl, by rw [decodeField_one_eq_ok hw, decodeByteList_eq_ok hfield]; rfl⟩

theorem decodeTxWrite_eq_ok {bs rest : List Byte} {i : Instr}
    (h : decodeTxWrite bs = .ok (i, rest)) : i.op = 0x5#4 ∧ bs = encodeOperands i ++ rest := by
  obtain ⟨a, _, ha, h⟩ := Parsed.andThen_eq_ok h
  obtain ⟨c, _, hc, h⟩ := Parsed.andThen_eq_ok h
  obtain ⟨vals, _, hvals, h⟩ := Parsed.andThen_eq_ok h
  cases h
  refine ⟨rfl, ?_⟩
  rw [decodeField_one_eq_ok ha, decodeField_one_eq_ok hc, decodeValueList_eq_ok hvals]; rfl

theorem decodeTxRead_eq_ok {bs rest : List Byte} {i : Instr}
    (h : decodeTxRead bs = .ok (i, rest)) : i.op = 0x6#4 ∧ bs = encodeOperands i ++ rest := by
  obtain ⟨a, _, ha, h⟩ := Parsed.andThen_eq_ok h
  obtain ⟨c, _, hc, h⟩ := Parsed.andThen_eq_ok h
  obtain ⟨widths, _, hwidths, h⟩ := Parsed.andThen_eq_ok h
  cases h
  refine ⟨rfl, ?_⟩
  rw [decodeField_one_eq_ok ha, decodeField_one_eq_ok hc, decodeByteList_eq_ok hwidths]; rfl

theorem decodePosRecon_eq_ok {bs rest : List Byte} {i : Instr}
    (h : decodePosRecon bs = .ok (i, rest)) : i.op = 0x7#4 ∧ bs = encodeOperands i ++ rest := by
  obtain ⟨prev, _, hprev, h⟩ := Parsed.andThen_eq_ok h
  obtain ⟨delta, _, hdelta, h⟩ := Parsed.andThen_eq_ok h
  obtain ⟨status, _, hstatus, h⟩ := Parsed.andThen_eq_ok h
  cases h
  refine ⟨rfl, ?_⟩
  rw [decodeField_eq_ok_toNat hprev, decodeField_eq_ok_toNat hdelta, decodeField_one_eq_ok hstatus]
  simp [encodeOperands]

theorem decodeEngInit_eq_ok {bs rest : List Byte} {i : Instr}
    (h : decodeEngInit bs = .ok (i, rest)) : i.op = 0x8#4 ∧ bs = encodeOperands i ++ rest := by
  obtain ⟨port, _, hport, h⟩ := Parsed.andThen_eq_ok h
  obtain ⟨baud, _, hbaud, h⟩ := Parsed.andThen_eq_ok h
  obtain ⟨timeout, _, htimeout, h⟩ := Parsed.andThen_eq_ok h
  obtain ⟨address, _, haddress, h⟩ := Parsed.andThen_eq_ok h
  obtain ⟨retries, _, hretries, h⟩ := Parsed.andThen_eq_ok h
  cases h
  refine ⟨rfl, ?_⟩
  rw [decodeByteList_eq_ok hport, decodeByteList_eq_ok hbaud, decodeByteList_eq_ok htimeout,
    decodeField_one_eq_ok haddress, decodeField_one_eq_ok hretries]
  simp [encodeOperands]

theorem decodeOperands_eq_ok {op : BitVec 4} {bs rest : List Byte} {i : Instr}
    (h : decodeOperands op bs = .ok (i, rest)) : i.op = op ∧ bs = encodeOperands i ++ rest := by
  have hop {k : Nat} (hk : op.toNat = k) : op = BitVec.ofNat 4 k := by simp [← hk]
  unfold decodeOperands at h
  split at h
  · next hk => cases h; exact ⟨(hop hk).symm, rfl⟩
  · next hk => rw [hop hk]; exact decodeCrcUpdate_eq_ok h
  · next hk => cases h; exact ⟨(hop hk).symm, rfl⟩
  · next hk => rw [hop hk]; exact decodeFldEnc_eq_ok h
  · next hk => rw [hop hk]; exact decodeFldDec_eq_ok h
  · next hk => rw [hop hk]; exact decodeTxWrite_eq_ok h
  · next hk => rw [hop hk]; exact decodeTxRead_eq_ok h
  · next hk => rw [hop hk]; exact decodePosRecon_eq_ok h
  · next hk => rw [hop hk]; exact decodeEngInit_eq_ok h
  · cases h

end Sys2Proof

namespace Sys2Proof.Machine

/-! ## The round trips -/

/-- Settles O56: the first byte selects the operation, and its operand fields decode. -/
theorem decodeInvertsEncode : Obligations.DecodeInvertsEncode := by
  intro i rest
  rw [encode, List.cons_append, decode_op_cons, decodeOperands_encode]

/-- Settles O57: the first byte is the code of the operation whose operand fields were decoded. -/
theorem encodeInvertsDecode : Obligations.EncodeInvertsDecode := by
  intro bs rest i h
  obtain ⟨op, operands, rfl, hoperands⟩ := decode_eq_ok h
  obtain ⟨rfl, rfl⟩ := decodeOperands_eq_ok hoperands
  rfl

/-! ## Requests and reserved codes at the port -/

/-- Settles O58: a reserved code does not decode, and a step refuses what does not decode. -/
theorem reservedCodesRefused : Obligations.ReservedCodesRefused := by
  intro op rest s hreserved hidle hport
  obtain ⟨-, -, hrefused⟩ := (stepRunsTheDecodedRequest s).1 hidle
  refine hrefused _ (by simp [hport]) ?_
  rw [hport, decode_op_cons, decodeOperands_reserved hreserved]

/-- A table word whose bytes begin with the encoding of an operation decodes to it. -/
theorem decodeTableWord_encode {nbits w : Nat} {i : Instr} {rest : List Byte}
    (h : tableWordBytes nbits w = encode i ++ rest) : decodeTableWord nbits w = some i := by
  rw [decodeTableWord, h, decodeInvertsEncode]

theorem decodeTableWord_reserved {nbits w : Nat} {op : BitVec 4} {rest : List Byte} (hop : 9 ≤ op.toNat)
    (h : tableWordBytes nbits w = op.setWidth 8 :: rest) : decodeTableWord nbits w = none := by
  rw [decodeTableWord, h, decode_op_cons, decodeOperands_reserved hop]

/-- Settles O59: the bytes of each word are the encoding of its operation, or begin with a reserved code. -/
theorem requestWordsDecode : Obligations.RequestWordsDecode :=
  ⟨decodeTableWord_encode rfl, decodeTableWord_encode rfl, decodeTableWord_encode rfl,
    decodeTableWord_encode rfl, decodeTableWord_encode rfl, decodeTableWord_encode rfl,
    decodeTableWord_encode rfl, decodeTableWord_encode rfl, decodeTableWord_encode rfl,
    decodeTableWord_reserved (op := 0x9#4) (by decide) rfl,
    decodeTableWord_reserved (op := 0xF#4) (by decide) rfl⟩

end Sys2Proof.Machine
end

section
/-! PROOFS. Fields as numbers: the width a magnitude selects, and field encoding and decoding as inverse
functions (`30_encoding.md` R75 to R77). -/

namespace Sys2Proof.Machine

/-! ## Encoding -/

theorem widthOf_eq_one {v : BitVec 32} (h : v.toNat ≤ 255) : widthOf v = 1 := if_pos h

theorem widthOf_eq_two {v : BitVec 32} (hlo : 256 ≤ v.toNat) (hhi : v.toNat ≤ 65535) : widthOf v = 2 := by
  rw [widthOf, if_neg (by omega), if_pos hhi]

theorem widthOf_eq_four {v : BitVec 32} (h : 65536 ≤ v.toNat) : widthOf v = 4 := by
  rw [widthOf, if_neg (by omega), if_neg (by omega)]

/-- Settles O12: in each range of magnitudes the width is known, which selects the bytes, and the slices
are quotients of the value. -/
theorem fieldEncodingFollowsMagnitude : Obligations.FieldEncodingFollowsMagnitude := by
  intro v
  have hlt := v.isLt
  simp only [ne_eq, extractLsb'_eq_zero_iff]
  refine ⟨fun h => ?_, fun ⟨hlo, hhi⟩ => ?_, fun h => ?_⟩
  · have hw := widthOf_eq_one h
    exact ⟨hw, by omega, by simp [encBe, hw]⟩
  · have hw := widthOf_eq_two hlo hhi
    exact ⟨hw, by omega, by omega, by simp [encBe, hw]⟩
  · have hw := widthOf_eq_four h
    exact ⟨hw, by omega, by simp [encBe, hw], by omega⟩

/-! ## Decoding -/

theorem decBe_toNat {bs : List Byte} (h : bs.length ≤ 4) : (decBe bs).toNat = beNat bs := by
  have hlt : beNat bs < 2 ^ 32 := (beNat_lt bs).trans_le (Nat.pow_le_pow_right (by decide) h)
  rw [decBe, BitVec.toNat_ofNat, Nat.mod_eq_of_lt hlt]

/-- Decoding what was encoded gives the value back. -/
@[simp] theorem decBe_encBe (v : BitVec 32) : decBe (encBe v) = v := by
  rw [decBe, encBe_eq_beBytes, beNat_beBytes, Nat.mod_eq_of_lt (toNat_lt_of_widthOf v)]
  simp

/-- Encoding what was decoded gives the bytes back exactly at the width the value selects. -/
theorem encBe_decBe_iff {bs : List Byte} (h : bs.length ≤ 4) :
    encBe (decBe bs) = bs ↔ widthOf (decBe bs) = bs.length := by
  constructor
  · intro he; rw [← encBe_length, he]
  · intro hw; rw [encBe_eq_beBytes, hw, decBe_toNat h, beBytes_beNat]

/-- Appending a byte to the low end of a value shifts the value up by a byte. -/
theorem toNat_append_byte {w : Nat} (x : BitVec w) (b : Byte) :
    (x ++ b).toNat = x.toNat * 256 + b.toNat := by
  rw [BitVec.toNat_append, ← Nat.shiftLeft_add_eq_or_of_lt b.isLt, Nat.shiftLeft_eq]

/-- Settles O13: the spelled-out lengths by value, byte by byte; the round trips are `decBe_encBe` and
`encBe_decBe_iff`. -/
theorem fieldDecodingInvertsEncoding : Obligations.FieldDecodingInvertsEncoding := by
  refine ⟨fun b0 => ?_, fun b0 b1 => ?_, fun b0 b1 b2 b3 => ?_, decBe_encBe,
    fun bs h => encBe_decBe_iff (by omega)⟩
  · apply BitVec.eq_of_toNat_eq
    simp [decBe, beNat]
  · apply BitVec.eq_of_toNat_eq
    rw [decBe_toNat (by simp), BitVec.toNat_setWidth, toNat_append_byte]
    have := b0.isLt
    have := b1.isLt
    simp only [beNat, List.length_cons, List.length_nil]; omega
  · apply BitVec.eq_of_toNat_eq
    rw [decBe_toNat (by simp), toNat_append_byte, toNat_append_byte, toNat_append_byte]
    simp only [beNat, List.length_cons, List.length_nil]; omega

end Sys2Proof.Machine
end

section
/-! PROOFS. Requests queued at the port run one per step; so CRC_OF computes the CRC of its bytes
(`30_encoding.md` R85). -/

namespace Sys2Proof.Machine

/-- A step in `Idle` takes the first of the requests queued at the port and leaves the others there. -/
theorem step_queued {s : State} {i : Instr} {is : List Instr} {rest : List Byte} (hidle : s.phase = .idle)
    (hport : s.port = (i :: is).flatMap encode ++ rest) :
    step s = exec i { s with port := is.flatMap encode ++ rest } := by
  refine ((stepRunsTheDecodedRequest s).1 hidle).1 i _ ?_
  rw [hport, List.flatMap_cons, List.append_assoc, decodeInvertsEncode]

theorem run_succ {M : Host.Core} {s t : M.State} (h : M.step s = .next t) (k : Nat) :
    M.run (k + 1) s = M.run k t := by
  simp only [Host.Core.run, h]

theorem exec_crcClear {s : State} (hidle : s.phase = .idle) :
    exec .crcClear s = .next (s.loseResults.clearCrc.endOperation .success) := by
  rw [exec, execCrcClear, State.accept_idle hidle]

theorem exec_crcUpdate {s : State} {b : Byte} (hidle : s.phase = .idle) :
    exec (.crcUpdate b) s = .next ((s.loseResults.feed [b]).endOperation .success) := by
  rw [exec, execCrcUpdate, State.accept_idle hidle]

theorem exec_crcGet {s : State} (hidle : s.phase = .idle) :
    exec .crcGet s = .next ((s.loseResults.giveVal (s.crc.setWidth 64)).endOperation .success) := by
  rw [exec, execCrcGet, State.accept_idle hidle, State.loseResults_crc]

/-- CRC_UPDATE of each byte of a list and then CRC_GET: the bytes are fed and the register is read. -/
theorem run_crcUpdates_crcGet (bs rest : List Byte) {s : State} (hidle : s.phase = .idle)
    (hport : s.port = (bs.map Instr.crcUpdate ++ [Instr.crcGet]).flatMap encode ++ rest) :
    core.run (bs.length + 1) s =
      .next ((({ s with port := rest } : State).feed bs).setResults (some .success) none none
        (some ((crcBytes s.crc bs).setWidth 64)) none) := by
  induction bs generalizing s with
  | nil =>
    have hget := (step_queued hidle hport).trans (exec_crcGet hidle)
    refine (run_succ hget 0).trans ?_
    simp only [State.feed, List.append_nil]; rfl
  | cons b bs ih =>
    have hupdate := (step_queued hidle hport).trans (exec_crcUpdate hidle)
    refine (run_succ hupdate _).trans ((ih ?_ rfl).trans ?_)
    · exact hidle
    · simp only [State.feed, List.append_cons s.fed b bs]; rfl

/-- Settles O11: CRC_CLEAR leaves an empty accumulator, and feeding the bytes to it gives their CRC. -/
theorem crcOfRequestsComputeTheCrc : Obligations.CrcOfRequestsComputeTheCrc := by
  intro bs rest s hidle hport
  have hclear := (step_queued hidle hport).trans (exec_crcClear hidle)
  refine (run_succ hclear _).trans (run_crcUpdates_crcGet bs rest ?_ rfl)
  exact hidle

end Sys2Proof.Machine
end

section
/-! PROOFS. The CRC step as arithmetic on bit vectors (`40_crc.md` R102, second form and (a) to (d)). An
iteration of R100 is linear and has no kernel, and a byte in the low half of the register reaches the high
half before it meets the polynomial; the properties follow from these facts. -/

namespace Sys2Proof.Machine

/-! ## The iterations of R100 -/

/-- An iteration without the branch: what is fed back depends on the top bit. -/
theorem crcShift_eq_xor (r : BitVec 16) :
    crcShift r = (r <<< 1) ^^^ (if r.getLsbD 15 then crcPoly else 0#16) := by
  unfold crcShift
  split <;> simp

theorem crcShift_xor (x y : BitVec 16) : crcShift (x ^^^ y) = crcShift x ^^^ crcShift y := by
  have hfeedback : (if (x ^^^ y).getLsbD 15 then crcPoly else 0#16) =
      (if x.getLsbD 15 then crcPoly else 0#16) ^^^ (if y.getLsbD 15 then crcPoly else 0#16) := by
    rw [BitVec.getLsbD_xor]
    cases x.getLsbD 15 <;> cases y.getLsbD 15 <;> simp
  simp only [crcShift_eq_xor, hfeedback, BitVec.shiftLeft_xor_distrib]
  ac_rfl

theorem crcShifts_xor (n : Nat) (x y : BitVec 16) :
    crcShifts n (x ^^^ y) = crcShifts n x ^^^ crcShifts n y := by
  induction n generalizing x y with
  | zero => rfl
  | succ n ih => simp only [crcShifts, crcShift_xor, ih]

theorem crcShifts_zero (n : Nat) : crcShifts n 0#16 = 0#16 := by
  simpa using crcShifts_xor n 0#16 0#16

theorem crcShifts_add (m n : Nat) (r : BitVec 16) :
    crcShifts (m + n) r = crcShifts n (crcShifts m r) := by
  induction m generalizing r with
  | zero => rw [Nat.zero_add]; rfl
  | succ m ih => rw [Nat.add_right_comm]; exact ih (crcShift r)

theorem topBit_eq_false_iff (r : BitVec 16) : r.getLsbD 15 = false ↔ r.toNat * 2 < 2 ^ 16 := by
  rw [← r.msb_eq_getLsbD_last, BitVec.msb_eq_false_iff_two_mul_lt, Nat.mul_comm]

/-- With the top bit clear nothing is fed back, and nothing is lost. -/
theorem crcShift_of_topBit_clear {r : BitVec 16} (h : r.getLsbD 15 = false) :
    crcShift r = r <<< 1 ∧ (crcShift r).toNat = r.toNat * 2 := by
  have hshift : crcShift r = r <<< 1 := by rw [crcShift, h]; exact if_neg Bool.false_ne_true
  refine ⟨hshift, ?_⟩
  rw [hshift, BitVec.toNat_shiftLeft, Nat.shiftLeft_eq, Nat.pow_one,
    Nat.mod_eq_of_lt ((topBit_eq_false_iff r).1 h)]

/-- While the bits shifted out are zero, the iterations only shift. -/
theorem crcShifts_eq_shiftLeft {n : Nat} {r : BitVec 16} (h : r.toNat * 2 ^ n < 2 ^ 16) :
    crcShifts n r = r <<< n := by
  induction n generalizing r with
  | zero => simp [crcShifts]
  | succ n ih =>
    rw [Nat.pow_succ', ← Nat.mul_assoc] at h
    have hdouble : r.toNat * 2 < 2 ^ 16 := (Nat.le_mul_of_pos_right _ (Nat.two_pow_pos n)).trans_lt h
    obtain ⟨hshift, hval⟩ := crcShift_of_topBit_clear ((topBit_eq_false_iff r).2 hdouble)
    calc crcShifts (n + 1) r = crcShift r <<< n := ih (by rwa [hval])
      _ = r <<< (n + 1) := by rw [hshift, ← BitVec.shiftLeft_add, Nat.add_comm]

/-- The polynomial is odd, so an iteration that feeds it back leaves bit 0 set. -/
theorem crcShift_eq_zero {r : BitVec 16} (h : crcShift r = 0#16) : r = 0#16 := by
  cases htop : r.getLsbD 15 with
  | true =>
    have hbit : (crcShift r).getLsbD 0 = true := by
      rw [crcShift_eq_xor, htop, BitVec.getLsbD_xor, BitVec.getLsbD_shiftLeft]; rfl
    rw [h] at hbit; cases hbit
  | false =>
    obtain ⟨-, hval⟩ := crcShift_of_topBit_clear htop
    rw [h, BitVec.toNat_ofNat] at hval
    exact BitVec.eq_of_toNat_eq (by simpa using hval.symm)

theorem crcShift_injective : Function.Injective crcShift := by
  intro x y h
  apply BitVec.xor_eq_zero_iff.1
  apply crcShift_eq_zero
  rw [crcShift_xor, h, BitVec.xor_self]

theorem crcShifts_injective (n : Nat) : Function.Injective (crcShifts n) := by
  induction n with
  | zero => exact Function.injective_id
  | succ n ih => exact ih.comp crcShift_injective

/-! ## Registers as two bytes -/

theorem highByte_append_lowByte (c : BitVec 16) : c.extractLsb' 8 8 ++ c.extractLsb' 0 8 = c :=
  BitVec.extractLsb'_append_extractLsb' (w := 8) (len := 8)

theorem bytes_xor_bytes (x1 x0 y1 y0 : Byte) :
    ((x1 ++ x0 : BitVec 16) ^^^ (y1 ++ y0 : BitVec 16)) = (x1 ^^^ y1) ++ (x0 ^^^ y0) :=
  BitVec.xor_append

theorem lowByte_append_zero (c : BitVec 16) : c.extractLsb' 0 8 ++ 0#8 = c <<< 8 := by
  apply BitVec.eq_of_toNat_eq
  rw [toNat_append_byte, BitVec.extractLsb'_toNat, BitVec.toNat_shiftLeft, Nat.shiftLeft_eq]
  simp only [Nat.shiftRight_zero, BitVec.toNat_ofNat]
  omega

/-- Eight iterations move a byte from the low half of the register to the high half. -/
theorem crcShifts_lowByte (b : Byte) : crcShifts 8 (0#8 ++ b) = b ++ 0#8 := by
  have hval : (0#8 ++ b).toNat = b.toNat := by rw [toNat_append_byte]; simp
  have hlt := b.isLt
  have hlow : (0#8 ++ b).extractLsb' 0 8 = b := BitVec.extractLsb'_append_eq_right
  rw [crcShifts_eq_shiftLeft (by rw [hval]; omega), ← lowByte_append_zero, hlow]

theorem crcStep_zero (b : Byte) : crcStep 0#16 b = crcShifts 8 (b ++ 0#8) := by
  rw [crcStep, BitVec.zero_xor]

theorem crcStep_zero_zero : crcStep 0#16 0#8 = 0#16 := crcShifts_zero 8

/-- Settles O5: the high byte meets the fed byte and the table, the low byte is shifted only. -/
theorem crcStepTableForm : Obligations.CrcStepTableForm := by
  intro c b
  have hsplit : c ^^^ (b ++ 0#8) =
      (0#8 ++ c.extractLsb' 0 8) ^^^ ((c.extractLsb' 8 8 ^^^ b) ++ 0#8) := by
    conv_lhs => rw [← highByte_append_lowByte c]
    simp only [bytes_xor_bytes, BitVec.xor_zero, BitVec.zero_xor]
  rw [crcStep, hsplit, crcShifts_xor, crcShifts_lowByte, lowByte_append_zero, ← crcStep_zero]

/-- Settles O7: the step puts the byte in linearly, and its iterations are linear. -/
theorem crcStepLinear : Obligations.CrcStepLinear := by
  intro c1 c2 b1 b2
  have hbytes : (b1 ^^^ b2) ++ 0#8 = (b1 ++ 0#8 : BitVec 16) ^^^ (b2 ++ 0#8 : BitVec 16) := by
    rw [bytes_xor_bytes, BitVec.xor_zero]
  have hsplit : (c1 ^^^ c2) ^^^ ((b1 ^^^ b2) ++ 0#8) =
      (c1 ^^^ (b1 ++ 0#8)) ^^^ (c2 ^^^ (b2 ++ 0#8)) := by
    rw [hbytes]; ac_rfl
  simp only [crcStep, hsplit, crcShifts_xor]

/-- Settles O8: the iterations are injective, and so is putting the byte in, on either side; on the
finitely many registers injective means bijective. -/
theorem crcStepInvertible : Obligations.CrcStepInvertible := by
  refine ⟨fun b => Finite.injective_iff_bijective.1 fun c1 c2 h => ?_, fun c b1 b2 h => ?_⟩
  · exact (BitVec.xor_left_inj _).1 (crcShifts_injective 8 h)
  · have happend := (BitVec.xor_right_inj _).1 (crcShifts_injective 8 h)
    have hval := congrArg BitVec.toNat happend
    simp only [toNat_append_byte] at hval
    exact BitVec.eq_of_toNat_eq (by omega)

/-- Two bytes fed to a register go through sixteen iterations together. -/
theorem crcBytes_trailerBytes (t r : BitVec 16) :
    crcBytes t (trailerBytes r) = crcShifts 16 (t ^^^ r) := by
  have hsplit : t ^^^ r = (t ^^^ (r.extractLsb' 8 8 ++ 0#8)) ^^^ (0#8 ++ r.extractLsb' 0 8) := by
    rw [BitVec.xor_assoc, bytes_xor_bytes, BitVec.xor_zero, BitVec.zero_xor, highByte_append_lowByte]
  calc crcBytes t (trailerBytes r)
      = crcShifts 8 (crcShifts 8 (t ^^^ (r.extractLsb' 8 8 ++ 0#8)) ^^^ (r.extractLsb' 0 8 ++ 0#8)) := rfl
    _ = crcShifts 8 (crcShifts 8 (t ^^^ r)) := by
      rw [← crcShifts_lowByte (r.extractLsb' 0 8), ← crcShifts_xor, ← hsplit]
    _ = crcShifts 16 (t ^^^ r) := (crcShifts_add 8 8 _).symm

/-- Settles O9: the iterations send zero, and only zero, to zero. -/
theorem crcResidue : Obligations.CrcResidue := by
  intro t r
  calc crcBytes t (trailerBytes r) = 0#16
      ↔ crcShifts 16 (t ^^^ r) = crcShifts 16 0#16 := by rw [crcBytes_trailerBytes, crcShifts_zero]
    _ ↔ t ^^^ r = 0#16 := (crcShifts_injective 16).eq_iff
    _ ↔ r = t := BitVec.xor_eq_zero_iff.trans eq_comm

/-- Settles O10, by induction on the number of zero bytes: each leaves the cleared register cleared. -/
theorem crcIgnoresLeadingZeros : Obligations.CrcIgnoresLeadingZeros := by
  intro n bs
  induction n with
  | zero => rfl
  | succ n ih => rwa [List.replicate_succ, List.cons_append, crcBytes_cons, crcStep_zero_zero]

end Sys2Proof.Machine
end

section
/-! PROOFS. The CRC step as a remainder of polynomials over GF(2) (`40_crc.md` R102, first form): one
iteration multiplies by `x` and takes one multiple of the generator away. -/

namespace Sys2Proof.Machine

open Polynomial

/-- A 16-bit value as a polynomial over GF(2), bit `i` the coefficient of `x^i`. -/
noncomputable def gf2Poly (r : BitVec 16) : (ZMod 2)[X] :=
  ∑ i ∈ Finset.range 16, if r.getLsbD i then X ^ i else 0

/-- The generator `G` of R102. -/
noncomputable def crcGenerator : (ZMod 2)[X] := X ^ 16 + X ^ 12 + X ^ 5 + 1

theorem crcGenerator_monic : crcGenerator.Monic := by unfold crcGenerator; monicity!

theorem degree_gf2Poly_lt (r : BitVec 16) : (gf2Poly r).degree < crcGenerator.degree := by
  have hdegree : crcGenerator.degree = 16 := by unfold crcGenerator; compute_degree!
  rw [hdegree]
  refine mem_degreeLT.1 (Submodule.sum_mem _ fun i hi => mem_degreeLT.2 ?_)
  split
  · rw [degree_X_pow]; exact_mod_cast Finset.mem_range.1 hi
  · rw [degree_zero]; exact WithBot.bot_lt_coe _

theorem gf2Poly_xor (x y : BitVec 16) : gf2Poly (x ^^^ y) = gf2Poly x + gf2Poly y := by
  simp only [gf2Poly, ← Finset.sum_add_distrib, BitVec.getLsbD_xor]
  refine Finset.sum_congr rfl fun i _ => ?_
  cases x.getLsbD i <;> cases y.getLsbD i <;> simp [CharTwo.add_self_eq_zero]

theorem gf2Poly_zero : gf2Poly 0#16 = 0 := by simp [gf2Poly]

/-- Multiplying by `x` shifts the coefficients up; the top one, shifted out of the register, is left. -/
theorem gf2Poly_mul_X (r : BitVec 16) :
    gf2Poly r * X = gf2Poly (r <<< 1) + if r.getLsbD 15 then X ^ 16 else 0 := by
  have hshift : gf2Poly (r <<< 1) = ∑ i ∈ Finset.range 15, if r.getLsbD i then X ^ (i + 1) else 0 := by
    have hbit : ∀ i ∈ Finset.range 15, (r <<< 1).getLsbD (i + 1) = r.getLsbD i := fun i hi => by
      have hlt : i + 1 < 16 := Nat.succ_lt_succ (Finset.mem_range.1 hi)
      rw [BitVec.getLsbD_shiftLeft, decide_eq_true hlt]; simp
    rw [gf2Poly, Finset.sum_range_succ', Finset.sum_congr rfl fun i hi => by rw [hbit i hi]]
    simp
  rw [hshift, gf2Poly, Finset.sum_range_succ, add_mul, Finset.sum_mul]
  simp only [ite_mul, zero_mul, ← pow_succ]

/-- The polynomial fed back is the generator without its leading term. -/
theorem crcGenerator_eq : crcGenerator = X ^ 16 + gf2Poly crcPoly := by
  simp [crcGenerator, gf2Poly, crcPoly, Finset.sum_range_succ]
  ring

/-- One iteration multiplies by `x` and adds the generator where the top bit was set. -/
theorem gf2Poly_crcShift (r : BitVec 16) :
    gf2Poly (crcShift r) = gf2Poly r * X + if r.getLsbD 15 then crcGenerator else 0 := by
  rw [crcShift_eq_xor, gf2Poly_xor, gf2Poly_mul_X, crcGenerator_eq]
  split
  · rw [add_assoc, ← add_assoc (X ^ 16), CharTwo.add_self_eq_zero, zero_add]
  · rw [gf2Poly_zero, add_zero, add_zero]

/-- `n` iterations multiply by `x^n`, modulo the generator. -/
theorem gf2Poly_crcShifts (n : Nat) (r : BitVec 16) :
    gf2Poly (crcShifts n r) = (gf2Poly r * X ^ n) %ₘ crcGenerator := by
  induction n generalizing r with
  | zero =>
    rw [pow_zero, mul_one]
    exact ((modByMonic_eq_self_iff crcGenerator_monic).2 (degree_gf2Poly_lt r)).symm
  | succ n ih =>
    refine (ih (crcShift r)).trans (modByMonic_eq_of_dvd_sub crcGenerator_monic ?_)
    rw [gf2Poly_crcShift]
    split
    · exact ⟨X ^ n, by ring⟩
    · exact ⟨0, by ring⟩

/-- Settles O6: the step is eight iterations on the register with the byte in its high half. -/
theorem crcStepIsPolynomialRemainder : Obligations.CrcStepIsPolynomialRemainder :=
  fun c b => gf2Poly_crcShifts 8 (c ^^^ (b ++ 0#8))

end Sys2Proof.Machine
end

section
/-! PROOFS. The accumulator's operations at the port (`40_crc.md` R103 to R106). -/

namespace Sys2Proof.Machine

/-- The reference value of R106. -/
theorem crcStep_zero_ff : crcStep 0#16 0xFF#8 = 0x1EF0#16 := by decide

/-- Settles O1: acceptance, the cleared accumulator and the lost results, field by field. -/
theorem crcClearResult : Obligations.CrcClearResult :=
  ⟨rfl, fun _ hidle => ⟨exec_crcClear hidle, fun _ =>
    ⟨_, _, exec_crcClear hidle, exec_crcUpdate hidle, rfl⟩⟩⟩

/-- Settles O2: acceptance, the byte fed and the lost results, field by field. -/
theorem crcUpdateResult : Obligations.CrcUpdateResult :=
  ⟨⟨crcStep_zero_zero, crcStep_zero_ff⟩, fun _ => ⟨rfl, fun _ hidle => exec_crcUpdate hidle⟩⟩

/-- CRC_GET on a cleared register answers zero. -/
theorem exec_crcGet_of_cleared {s : State} (hidle : s.phase = .idle) (hcrc : s.crc = 0#16) :
    ∃ t : State, exec .crcGet s = .next t ∧ t.resVal = some 0#64 :=
  ⟨_, exec_crcGet hidle, by simp [hcrc]⟩

/-- An ENG_INIT that succeeded has opened the link, which clears the register (`44_system.md` R195). -/
theorem execEngInit_success_cleared {port baud timeout : OpaqueValue} {a : Byte} {r : BitVec 8}
    {s t : State} (h : execEngInit port baud timeout a r s = .next t) (hcode : t.resCode = some .success) :
    t.phase = .idle ∧ t.crc = 0#16 := by
  obtain ⟨hidle, -, -, ⟨-, rfl⟩ | ⟨-, rfl⟩⟩ := execEngInit_next h
  · cases hcode
  · exact ⟨hidle, rfl⟩

/-- Settles O3: reading writes result registers only, and reset and a successful ENG_INIT clear. -/
theorem crcGetResult : Obligations.CrcGetResult := by
  refine ⟨rfl, fun s hidle => ⟨exec_crcGet hidle, _, _, exec_crcGet hidle, exec_crcGet hidle, rfl⟩,
    exec_crcGet_of_cleared rfl rfl, fun port baud timeout a r s s1 h hcode => ?_⟩
  obtain ⟨hidle, hcrc⟩ := execEngInit_success_cleared h hcode
  exact exec_crcGet_of_cleared hidle hcrc

/-- CRC_CLEAR, CRC_UPDATE b, CRC_GET give the same value from every state in `Idle`, and end there. -/
theorem exec_clear_update_get {s : State} (b : Byte) (hidle : s.phase = .idle) :
    ∃ s1 s2 s3 : State,
      exec .crcClear s = .next s1 ∧ exec (.crcUpdate b) s1 = .next s2 ∧ exec .crcGet s2 = .next s3 ∧
      s3.phase = .idle ∧ s3.resVal = some ((crcStep 0#16 b).setWidth 64) :=
  ⟨_, _, _, exec_crcClear hidle, exec_crcUpdate hidle, exec_crcGet hidle, hidle, rfl⟩

/-- Settles O4: the sequence twice, the second time from the state the first leaves. -/
theorem crcReferenceVector : Obligations.CrcReferenceVector := by
  refine ⟨crcStep_zero_ff, fun s hidle => ?_⟩
  have hval : (crcStep 0#16 0xFF#8).setWidth 64 = 7920#64 := by rw [crcStep_zero_ff]; rfl
  obtain ⟨s1, s2, s3, h1, h2, h3, hidle3, hres3⟩ := exec_clear_update_get 0xFF#8 hidle
  obtain ⟨s4, s5, s6, h4, h5, h6, -, hres6⟩ := exec_clear_update_get 0xFF#8 hidle3
  rw [hval] at hres3 hres6
  exact ⟨s1, s2, s3, s4, s5, s6, h1, h2, h3, hres3, h4, h5, h6, hres6⟩

end Sys2Proof.Machine
end

section
/-! PROOFS. The relation `SeqStep` determines the step it describes, so every phase statement about a write
(`41_framer_write.md` R126 to R131) is one of its outcomes; and the two operations of the framer at the
port (R120, R124). -/

namespace Sys2Proof.Machine

/-! ## One outcome per step -/

/-- The converse of `State.sequence_spec`: what leads to an outcome of a phase leads to no other. -/
theorem SeqStep.sequence_eq {s t : State} (h : SeqStep s t) : s.sequence = t := by
  cases h with
  | resetFail hp hc | resetOk hp hc => simp [State.sequence, hp, State.resetAttempt, hc]
  | headerFail hp n hw | headerOk hp hw => simp [State.sequence, hp, State.sendHeader, hw]
  | payloadDone hp hle => simp [State.sequence, hp, State.sendPayload, List.getElem?_eq_none hle]
  | payloadFail hp v hv n hw | payloadOk hp v hv hw =>
    simp [State.sequence, hp, State.sendPayload, hv, hw]
  | fieldsDone hp hle => simp [State.sequence, hp, State.receiveFields, List.getElem?_eq_none hle]
  | fieldOk hp w hw bs hr => simp [State.sequence, hp, State.receiveFields, hw, hr]
  | fieldTimeout hp w hw hr | fieldFail hp w hw hr =>
    simp [State.sequence, hp, State.receiveFields, hw, hr]
  | sendTrailerFail hp hk n hw =>
    simp [State.sequence, hp, State.trailerExchange, hk, State.writeTrailer, hw]
  | ackOk hp hk hw hr | ackTimeout hp hk hw hr | ackFail hp hk hw hr =>
    simp [State.sequence, hp, State.trailerExchange, hk, State.writeTrailer, hw, State.readAck, hr]
  | ackBad hp hk hw b hb hr =>
    simp [State.sequence, hp, State.trailerExchange, hk, State.writeTrailer, hw, State.readAck, hr, hb]
  | trailerMatch hp hk bs hr hl hm =>
    simp [State.sequence, hp, State.trailerExchange, hk, State.readTrailer, hr, State.judgeTrailer, hm]
  | mismatchEnds hp hk bs hr hl hm hq | mismatchRetries hp hk bs hr hl hm hq =>
    simp [State.sequence, hp, State.trailerExchange, hk, State.readTrailer, hr, State.judgeTrailer, hm, hq]
  | trailerTimeout hp hk hr | trailerFail hp hk hr =>
    simp [State.sequence, hp, State.trailerExchange, hk, State.readTrailer, hr]
  | again hp hlt => simp [State.sequence, hp, State.retryOrFail, hlt]
  | exhaustedMismatch hp hlt hk hf => simp [State.sequence, hp, State.retryOrFail, hlt, hk, hf]
  | exhausted hp hlt hk => simp [State.sequence, hp, State.retryOrFail, hlt, hk]

/-- In `Idle` no outcome is possible. -/
theorem SeqStep.phase_ne_idle {s t : State} (h : SeqStep s t) : s.phase ≠ .idle := by
  cases h <;> simp [*]

theorem SeqStep.step_eq {s t : State} (h : SeqStep s t) : step s = .next t := by
  rw [step_busy h.phase_ne_idle, h.sequence_eq]

/-! ## The phases of a write -/

/-- Settles O29: the two outcomes of `Reset`. -/
theorem resetPhaseStep : Obligations.ResetPhaseStep :=
  fun _ hp => ⟨fun hc => (SeqStep.resetOk hp hc).step_eq, fun hc => (SeqStep.resetFail hp hc).step_eq⟩

/-- Settles O30: the two outcomes of `SendHeader`, the first one by kind. -/
theorem sendHeaderPhaseStep : Obligations.SendHeaderPhaseStep := by
  refine fun s hp =>
    ⟨fun hw hk => ?_, fun hw hk => ?_, fun k hw => (SeqStep.headerFail hp k hw).step_eq⟩ <;>
    rw [(SeqStep.headerOk hp hw).step_eq, hk] <;> rfl

/-- Settles O31: the two outcomes of `SendPayload` inside the list, and the one past it. -/
theorem sendPayloadPhaseStep : Obligations.SendPayloadPhaseStep := by
  refine fun s hp => ⟨fun hlt => ?_, fun hle => (SeqStep.payloadDone hp hle).step_eq⟩
  have hv := List.getElem?_eq_getElem hlt
  exact ⟨fun hw => (SeqStep.payloadOk hp _ hv hw).step_eq,
    fun k hw => (SeqStep.payloadFail hp _ hv k hw).step_eq⟩

/-- A write that ends without a timeout shows no retry count and no field (`60_exceptions.md` R217). -/
theorem State.endTransaction_write_success {s : State} (hk : s.kind = .write) :
    s.endTransaction .success =
      { s with resCode := some .success, resCount := none, resFld := some [], phase := .idle } := by
  simp [State.endTransaction, hk]

/-- Settles O32: the outcomes of a write's `TrailerExchange`. -/
theorem writeTrailerPhaseStep : Obligations.WriteTrailerPhaseStep := by
  refine fun s hp hk => ⟨fun k hw => (SeqStep.sendTrailerFail hp hk k hw).step_eq, fun hw =>
    ⟨fun hr => ?_, fun b hb hr => (SeqStep.ackBad hp hk hw b hb hr).step_eq,
      fun hr => (SeqStep.ackTimeout hp hk hw hr).step_eq,
      fun hr => (SeqStep.ackFail hp hk hw hr).step_eq⟩⟩
  exact (SeqStep.ackOk hp hk hw hr).step_eq.trans (congrArg Host.Outcome.next
    (State.endTransaction_write_success (s := (s.afterWrite (trailerBytes s.crc)).afterRead 1) hk))

/-! ## The operations at the port -/

/-- TX_WRITE is accepted with the link open and a list within `MAX_FIELDS` (`41_framer_write.md` R124,
R125). -/
theorem exec_txWrite {s : State} {a c : Byte} {vals : List (BitVec 32)} (hidle : s.phase = .idle)
    (hlink : s.linkOpen = true) (hmax : ∀ m, s.params.maxFields = some m → vals.length ≤ m) :
    exec (.txWrite a c vals) s = .next (s.loseResults.beginWrite a c vals) := by
  simp [exec, execTxWrite, State.accept_idle hidle, hlink, Params.admits_eq_true.2 hmax]

/-- Settles O25: acceptance, with the lost results and the latched operands field by field. -/
theorem txWriteAcceptance : Obligations.TxWriteAcceptance :=
  fun _ _ _ => ⟨rfl, fun _ hidle hlink hmax => exec_txWrite hidle hlink hmax⟩

theorem exec_fldEnc {s : State} {v : BitVec 32} (hidle : s.phase = .idle) :
    exec (.fldEnc v) s = .next ((s.loseResults.giveBytes (encBe v)).endOperation .success) := by
  rw [exec, execFldEnc, State.accept_idle hidle]

theorem widthOf_ne_three (v : BitVec 32) : widthOf v ≠ 3 := by
  have := widthOf_cases v
  omega

/-- Settles O14: acceptance and the encoding, and the values R120 names by evaluation. -/
theorem fldEncResult : Obligations.FldEncResult := by
  refine ⟨fun v => ⟨rfl, encBe_length v, widthOf_ne_three v, fun _ hidle => exec_fldEnc hidle⟩, ?_⟩
  decide

end Sys2Proof.Machine
end

section
/-! PROOFS. The write frame as a byte string (`41_framer_write.md` R121, R122). -/

namespace Sys2Proof.Machine

theorem frameBody_length (a c : Byte) (vals : List (BitVec 32)) :
    (frameBody a c vals).length = 2 + (vals.map widthOf).sum := by
  simp only [frameBody, List.length_cons, List.length_flatMap, encBe_length]
  exact Nat.add_comm _ 2

/-- The trailer takes two bytes (`30_encoding.md` R78). -/
theorem frameWrite_length (a c : Byte) (vals : List (BitVec 32)) :
    (frameWrite a c vals).length = 4 + (vals.map widthOf).sum := by
  rw [frameWrite, List.length_append, frameBody_length, trailerBytes_length]; omega

/-- Fields are of one to four bytes each (`30_encoding.md` R71). -/
theorem sum_widthOf_bounds (vals : List (BitVec 32)) :
    vals.length ≤ (vals.map widthOf).sum ∧ (vals.map widthOf).sum ≤ 4 * vals.length := by
  induction vals with
  | nil => simp
  | cons v vals ih =>
    have := widthOf_cases v
    simp only [List.map_cons, List.sum_cons, List.length_cons]
    omega

/-- A cleared register that is fed a frame's body holds the trailer, which takes it back to zero. -/
theorem crcBytes_frameWrite (a c : Byte) (vals : List (BitVec 32)) :
    crcBytes crcInit (frameWrite a c vals) = 0#16 := by
  rw [frameWrite, crcBytes_append]
  exact (crcResidue _ _).2 rfl

/-- A frame depends on the bytes of its fields, not on where one ends. -/
theorem frameWrite_congr {vals vals' : List (BitVec 32)} (h : vals.flatMap encBe = vals'.flatMap encBe)
    (a c : Byte) : frameWrite a c vals = frameWrite a c vals' := by
  simp only [frameWrite, frameBody, h]

/-- Settles O16: the length from the fields' widths, the residue from that of any trailer, and lists that
encode to the same bytes. -/
theorem writeFrameLengthAndResidue : Obligations.WriteFrameLengthAndResidue := by
  refine ⟨fun a c vals => ⟨frameWrite_length a c vals, ?_, ?_, crcBytes_frameWrite a c vals⟩,
    fun a c => ⟨frameWrite_congr (by decide) a c, frameWrite_congr (by decide) a c⟩⟩ <;>
    rw [frameWrite_length] <;> have := sum_widthOf_bounds vals <;> omega

end Sys2Proof.Machine
end

section
/-! PROOFS. The sequencer runs a write as the loop of `41_framer_write.md` R123 does. The two are compared on
the part of the state the loop acts on, `State.streamView`: states that agree on it get the same answers,
and the same call or feed keeps them in agreement. -/

namespace Sys2Proof.Machine

variable {s t u r : State} {a c : Byte} {vals : List (BitVec 32)}

/-! ## Runs -/

/-- Some number of outcomes of phases leads from `s` to `t`. -/
abbrev State.Reaches (s t : State) : Prop := Relation.ReflTransGen SeqStep s t

theorem State.Reaches.exists_sequenceN (h : s.Reaches t) : ∃ n, s.sequenceN n = t := by
  induction h using Relation.ReflTransGen.head_induction_on with
  | refl => exact ⟨0, rfl⟩
  | head hfirst _ ih =>
    obtain ⟨n, hn⟩ := ih
    exact ⟨n + 1, by rw [State.sequenceN, hfirst.sequence_eq, hn]⟩

/-- What no outcome of a phase changes, no run changes. -/
theorem State.Reaches.keeps {α : Type} {f : State → α} (hf : ∀ {s t : State}, SeqStep s t → f t = f s)
    (h : s.Reaches t) : f t = f s := by
  induction h with
  | refl => rfl
  | tail _ hlast ih => exact (hf hlast).trans ih

theorem State.Reaches.sameConfig (h : s.Reaches t) : s.SameConfig t :=
  ⟨h.keeps (·.sameConfig.params), h.keeps (·.sameConfig.address), h.keeps (·.sameConfig.retries),
    h.keeps (·.sameConfig.timeout), h.keeps (·.sameConfig.link)⟩

theorem State.Reaches.sameRequest (h : s.Reaches t) : s.SameRequest t :=
  ⟨h.keeps (·.sameRequest.port), h.keeps (·.sameRequest.kind), h.keeps (·.sameRequest.addr),
    h.keeps (·.sameRequest.cmd), h.keeps (·.sameRequest.vals), h.keeps (·.sameRequest.widths),
    h.keeps (·.sameRequest.openAnswers)⟩

/-- No phase gives a scalar or a byte string (`10_state.md` R15). -/
theorem SeqStep.resVal_resBytes_eq (h : SeqStep s t) : t.resVal = s.resVal ∧ t.resBytes = s.resBytes := by
  cases h <;> exact ⟨rfl, rfl⟩

/-! ## What the algorithms see -/

/-- A state that holds `v` and is otherwise as at reset. -/
def StreamView.toState (v : StreamView) : State :=
  { State.reset with
    crc := v.crc
    fed := v.fed
    history := v.history
    clearAnswers := v.clearAnswers
    writeAnswers := v.writeAnswers
    readAnswers := v.readAnswers
    freeIdx := v.freeIdx }

/-- States with the same view agree on everything that can be said of the view alone. -/
theorem State.agree_of_streamView {α : Type} {f : State → α}
    (hf : ∀ s : State, f s.streamView.toState = f s) (h : s.streamView = r.streamView) : f s = f r := by
  rw [← hf s, h, hf r]

theorem streamView_afterWrite_feed (h : s.streamView = r.streamView) (bs : List Byte) :
    ((s.feed bs).afterWrite bs).streamView = ((r.feed bs).afterWrite bs).streamView :=
  State.agree_of_streamView (f := fun s => ((s.feed bs).afterWrite bs).streamView) (fun _ => rfl) h

theorem writeAnswer_feed_of_streamView (h : s.streamView = r.streamView) (bs : List Byte) :
    s.writeAnswer = (r.feed bs).writeAnswer :=
  State.agree_of_streamView (f := fun s => (s.feed bs).writeAnswer) (fun _ => rfl) h

/-! ## What an attempt of R123's loop does -/

/-- The last two calls of a write attempt, by their answers (`41_framer_write.md` R129, R130). -/
theorem exchangeAck_cases (s : State) :
    (∃ k, s.writeAnswer = .ioFail k ∧
      exchangeAck s = (.finished .ioFailure, s.afterWrite (trailerBytes s.crc))) ∨
    (s.writeAnswer = .ok ∧
      (((s.afterWrite (trailerBytes s.crc)).readResult 1 = .bytes [ackByte] ∧
          exchangeAck s = (.finished .success, (s.afterWrite (trailerBytes s.crc)).afterRead 1)) ∨
       (∃ b, b ≠ ackByte ∧ (s.afterWrite (trailerBytes s.crc)).readResult 1 = .bytes [b] ∧
          exchangeAck s = (.again .badAck, (s.afterWrite (trailerBytes s.crc)).afterRead 1)) ∨
       ((s.afterWrite (trailerBytes s.crc)).readResult 1 = .timeout ∧
          exchangeAck s = (.again .timedOut, (s.afterWrite (trailerBytes s.crc)).afterRead 1)) ∨
       ((s.afterWrite (trailerBytes s.crc)).readResult 1 = .ioFail ∧
          exchangeAck s = (.finished .ioFailure, (s.afterWrite (trailerBytes s.crc)).afterRead 1)))) := by
  rcases s.writeTrailer_cases with
    ⟨k, hw, -⟩ | ⟨hw, ⟨hr, -⟩ | ⟨b, hb, hr, -⟩ | ⟨hr, -⟩ | ⟨hr, -⟩⟩
  · exact .inl ⟨k, hw, by simp [exchangeAck, hw]⟩
  · exact .inr ⟨hw, .inl ⟨hr, by simp [exchangeAck, hw, hr]⟩⟩
  · exact .inr ⟨hw, .inr (.inl ⟨b, hb, hr, by simp [exchangeAck, hw, hr, hb]⟩)⟩
  · exact .inr ⟨hw, .inr (.inr (.inl ⟨hr, by simp [exchangeAck, hw, hr]⟩))⟩
  · exact .inr ⟨hw, .inr (.inr (.inr ⟨hr, by simp [exchangeAck, hw, hr]⟩))⟩

/-- What is left of a write attempt once the header is sent. -/
def sendRest (vals : List (BitVec 32)) (s : State) : AttemptEnd × State :=
  if (sendFields vals s).1 then exchangeAck (sendFields vals s).2
  else (.finished .ioFailure, (sendFields vals s).2)

theorem sendRest_nil (s : State) : sendRest [] s = exchangeAck s := rfl

/-- One field more, by the answer of its write (`41_framer_write.md` R128). -/
theorem sendRest_cons_cases (v : BitVec 32) (vs : List (BitVec 32)) (s : State) :
    (∃ k, (s.feed (encBe v)).writeAnswer = .ioFail k ∧
      sendRest (v :: vs) s = (.finished .ioFailure, (s.feed (encBe v)).afterWrite (encBe v))) ∨
    ((s.feed (encBe v)).writeAnswer = .ok ∧
      sendRest (v :: vs) s = sendRest vs ((s.feed (encBe v)).afterWrite (encBe v))) := by
  cases hw : (s.feed (encBe v)).writeAnswer with
  | ioFail k => exact .inl ⟨k, rfl, by simp [sendRest, sendFields, hw]⟩
  | ok => exact .inr ⟨rfl, by simp only [sendRest, sendFields, hw]⟩

/-- The first two calls of an attempt, by their answers (`41_framer_write.md` R126, R127). -/
theorem writeAttempt_cases (a c : Byte) (vals : List (BitVec 32)) (s : State) :
    (s.clearAnswer = .ioFail ∧ writeAttempt a c vals s = (.finished .ioFailure, s.afterClear)) ∨
    (s.clearAnswer = .ok ∧
      ((∃ k, (s.afterClear.clearCrc.feed [a, c]).writeAnswer = .ioFail k ∧
        writeAttempt a c vals s =
          (.finished .ioFailure, (s.afterClear.clearCrc.feed [a, c]).afterWrite [a, c])) ∨
       ((s.afterClear.clearCrc.feed [a, c]).writeAnswer = .ok ∧
        writeAttempt a c vals s =
          sendRest vals ((s.afterClear.clearCrc.feed [a, c]).afterWrite [a, c])))) := by
  cases hc : s.clearAnswer with
  | ioFail => exact .inl ⟨rfl, by simp only [writeAttempt, hc]⟩
  | ok =>
    refine .inr ⟨rfl, ?_⟩
    cases hw : (s.afterClear.clearCrc.feed [a, c]).writeAnswer with
    | ioFail k => exact .inl ⟨k, rfl, by simp only [writeAttempt, hc, hw]⟩
    | ok =>
      refine .inr ⟨rfl, ?_⟩
      rcases hf : sendFields vals ((s.afterClear.clearCrc.feed [a, c]).afterWrite [a, c]) with ⟨sent, out⟩
      cases sent <;> simp [writeAttempt, hc, hw, sendRest, hf]

/-! ## The sequencer runs an attempt -/

/-- The transaction in progress is a write of these operands. -/
structure State.Writing (a c : Byte) (vals : List (BitVec 32)) (s : State) : Prop where
  kind : s.kind = .write
  addr : s.opAddr = a
  cmd : s.opCmd = c
  vals : s.opVals = vals

theorem State.Reaches.writing (h : s.Reaches t) (hs : s.Writing a c vals) : t.Writing a c vals :=
  ⟨h.sameRequest.kind.trans hs.kind, h.sameRequest.addr.trans hs.addr, h.sameRequest.cmd.trans hs.cmd,
    h.sameRequest.vals.trans hs.vals⟩

/-- A write has ended with `cond` (`60_exceptions.md` R217). -/
structure State.Concluded (t : State) (cond : Condition) : Prop where
  phase : t.phase = .idle
  code : t.resCode = some cond
  count : t.resCount = if cond = .timeout then some t.cfgRetries else none
  fields : t.resFld = some []

theorem State.endTransaction_concluded {cond : Condition} (hk : s.kind = .write) :
    (s.endTransaction cond).Concluded cond :=
  ⟨rfl, rfl, rfl, by simp [hk]⟩

/-- Where the sequencer stands when an attempt has ended so. -/
def State.AttemptOver (t : State) : AttemptEnd → Prop
  | .finished cond => t.Concluded cond
  | .again _ => t.phase = .retryOrFail

/-- From `s` the sequencer gets to the end of the attempt that the algorithm ends with `out`, with `k`
attempts counted. -/
def State.RunsTo (s : State) (k : BitVec 8) (out : AttemptEnd × State) : Prop :=
  ∃ t : State, s.Reaches t ∧ t.AttemptOver out.1 ∧ t.streamView = out.2.streamView ∧ t.attempt = k

namespace State.RunsTo

variable {k : BitVec 8} {out : AttemptEnd × State}

theorem head (h : SeqStep s t) (ht : t.RunsTo k out) : s.RunsTo k out := by
  obtain ⟨v, hreach, hv⟩ := ht
  exact ⟨v, hreach.head h, hv⟩

theorem ends {cond : Condition} (h : SeqStep s (u.endTransaction cond)) (hk : u.kind = .write)
    (hview : u.streamView = r.streamView) (hatt : u.attempt = k) : s.RunsTo k (.finished cond, r) :=
  ⟨_, .single h, State.endTransaction_concluded hk, hview, hatt⟩

theorem fails {why : LastFail} (h : SeqStep s (u.failAttempt why)) (hview : u.streamView = r.streamView)
    (hatt : u.attempt = k) : s.RunsTo k (.again why, r) :=
  ⟨_, .single h, rfl, hview, hatt⟩

end State.RunsTo

/-- Phase `TrailerExchange` of a write makes the last two calls of the attempt. -/
theorem State.runsTo_exchangeAck (hp : s.phase = .trailerExchange) (hk : s.kind = .write)
    (hview : s.streamView = r.streamView) : s.RunsTo s.attempt (exchangeAck r) := by
  have hanswer : s.writeAnswer = r.writeAnswer := State.agree_of_streamView (fun _ => rfl) hview
  have hsent : (s.afterWrite (trailerBytes s.crc)).streamView =
      (r.afterWrite (trailerBytes r.crc)).streamView :=
    State.agree_of_streamView (f := fun s => (s.afterWrite (trailerBytes s.crc)).streamView)
      (fun _ => rfl) hview
  have hresult : (s.afterWrite (trailerBytes s.crc)).readResult 1 =
      (r.afterWrite (trailerBytes r.crc)).readResult 1 :=
    State.agree_of_streamView (f := fun s => s.readResult 1) (fun _ => rfl) hsent
  have hdone : ((s.afterWrite (trailerBytes s.crc)).afterRead 1).streamView =
      ((r.afterWrite (trailerBytes r.crc)).afterRead 1).streamView :=
    State.agree_of_streamView (f := fun s => (s.afterRead 1).streamView) (fun _ => rfl) hsent
  rcases exchangeAck_cases r with
    ⟨k, hw, e⟩ | ⟨hw, ⟨hr, e⟩ | ⟨b, hb, hr, e⟩ | ⟨hr, e⟩ | ⟨hr, e⟩⟩ <;> rw [e]
  · exact .ends (.sendTrailerFail hp hk k (hanswer.trans hw)) hk hsent rfl
  · exact .ends (.ackOk hp hk (hanswer.trans hw) (hresult.trans hr)) hk hdone rfl
  · exact .fails (.ackBad hp hk (hanswer.trans hw) b hb (hresult.trans hr)) hdone rfl
  · exact .fails (.ackTimeout hp hk (hanswer.trans hw) (hresult.trans hr)) hdone rfl
  · exact .ends (.ackFail hp hk (hanswer.trans hw) (hresult.trans hr)) hk hdone rfl

/-- Phase `SendPayload` sends the values from `fidx` on, and then the attempt goes on as the algorithm's. -/
theorem State.runsTo_sendRest {vs : List (BitVec 32)} (hp : s.phase = .sendPayload) (hk : s.kind = .write)
    (hrest : s.opVals.drop s.fidx = vs) (hview : s.streamView = r.streamView) :
    s.RunsTo s.attempt (sendRest vs r) := by
  induction vs generalizing s r with
  | nil =>
    rw [sendRest_nil]
    exact .head (.payloadDone hp (List.drop_eq_nil_iff.1 hrest)) (State.runsTo_exchangeAck rfl hk hview)
  | cons v vs ih =>
    have hv : s.opVals[s.fidx]? = some v := by rw [← List.head?_drop, hrest, List.head?_cons]
    have hnext : s.opVals.drop (s.fidx + 1) = vs := by rw [← List.tail_drop, hrest, List.tail_cons]
    have hanswer := writeAnswer_feed_of_streamView hview (encBe v)
    have hsent := streamView_afterWrite_feed hview (encBe v)
    rcases sendRest_cons_cases v vs r with ⟨k, hw, e⟩ | ⟨hw, e⟩ <;> rw [e]
    · exact .ends (.payloadFail hp v hv k (hanswer.trans hw)) hk hsent rfl
    · exact .head (.payloadOk hp v hv (hanswer.trans hw)) (ih hp hk hnext hsent)

/-- From phase `Reset` the sequencer runs one attempt of R123's loop, and counts it. -/
theorem State.runsTo_writeAttempt (hp : s.phase = .reset) (hs : s.Writing a c vals)
    (hview : s.streamView = r.streamView) : s.RunsTo (s.attempt + 1#8) (writeAttempt a c vals r) := by
  obtain ⟨hk, rfl, rfl, rfl⟩ := hs
  have hclear : s.clearAnswer = r.clearAnswer := State.agree_of_streamView (fun _ => rfl) hview
  rcases writeAttempt_cases s.opAddr s.opCmd s.opVals r with ⟨hc, e⟩ | ⟨hc, hheader⟩
  · rw [e]
    exact .ends (.resetFail hp (hclear.trans hc)) hk
      (State.agree_of_streamView (f := fun s => s.afterClear.streamView) (fun _ => rfl) hview) rfl
  refine .head (.resetOk hp (hclear.trans hc)) ?_
  have hcleared : (s.countAttempt.afterClear.clearCrc.restartFields.goto .sendHeader).streamView =
      r.afterClear.clearCrc.streamView :=
    State.agree_of_streamView (f := fun s => s.afterClear.clearCrc.streamView) (fun _ => rfl) hview
  have hanswer := writeAnswer_feed_of_streamView hcleared [s.opAddr, s.opCmd]
  have hsent := streamView_afterWrite_feed hcleared [s.opAddr, s.opCmd]
  rcases hheader with ⟨k, hw, e⟩ | ⟨hw, e⟩ <;> rw [e]
  · exact .ends (.headerFail rfl k (hanswer.trans hw)) hk hsent rfl
  · refine .head (.headerOk rfl (hanswer.trans hw)) (State.runsTo_sendRest ?_ hk rfl hsent)
    exact congrArg TxKind.bodyPhase hk

end Sys2Proof.Machine
end

section
/-! PROOFS. The stream calls of a write attempt and what it leaves in `crc` (`41_framer_write.md` R133,
R134), for an attempt of R123's loop. -/

namespace Sys2Proof.Machine

variable {a c : Byte} {vals : List (BitVec 32)}

/-! ## The bytes of a trace -/

theorem sentBytes_append (xs ys : List StreamEvent) : sentBytes (xs ++ ys) = sentBytes xs ++ sentBytes ys :=
  List.flatMap_append

/-- The calls of a write attempt that has sent the header and these fields. -/
def bodyCalls (a c : Byte) (sent : List (BitVec 32)) : List StreamEvent :=
  [.cleared .ok, .wrote [a, c] .ok] ++ sent.map (fun v => .wrote (encBe v) .ok)

theorem writeTrace_eq (a c : Byte) (vals : List (BitVec 32)) (ack : ReadResult) :
    writeTrace a c vals ack = bodyCalls a c vals ++
      [.wrote (trailerBytes (crcBytes crcInit (frameBody a c vals))) .ok, .read 1 ack] := rfl

theorem bodyCalls_ne_nil (a c : Byte) (sent : List (BitVec 32)) : bodyCalls a c sent ≠ [] := by
  simp [bodyCalls]

theorem bodyCalls_append (a c : Byte) (xs ys : List (BitVec 32)) :
    bodyCalls a c (xs ++ ys) = bodyCalls a c xs ++ ys.map (fun v => .wrote (encBe v) .ok) := by
  simp [bodyCalls]

theorem frameBody_append (a c : Byte) (xs ys : List (BitVec 32)) :
    frameBody a c (xs ++ ys) = frameBody a c xs ++ ys.flatMap encBe := by
  simp [frameBody]

theorem sentBytes_bodyCalls (a c : Byte) (sent : List (BitVec 32)) :
    sentBytes (bodyCalls a c sent) = frameBody a c sent := by
  simp [sentBytes, bodyCalls, frameBody, StreamEvent.sent, List.flatMap_map]

/-- A whole attempt sends the frame, whatever the acknowledgement is. -/
theorem sentBytes_writeTrace (a c : Byte) (vals : List (BitVec 32)) (ack : ReadResult) :
    sentBytes (writeTrace a c vals ack) = frameWrite a c vals := by
  rw [writeTrace_eq, sentBytes_append, sentBytes_bodyCalls]; rfl

/-- Each whole attempt sends one copy of the frame. -/
theorem sentBytes_writeTraces (a c : Byte) (vals : List (BitVec 32)) (acks : List ReadResult) :
    sentBytes (acks.flatMap (writeTrace a c vals)) =
      (List.replicate acks.length (frameWrite a c vals)).flatten := by
  induction acks with
  | nil => rfl
  | cons ack acks ih =>
    rw [List.flatMap_cons, sentBytes_append, sentBytes_writeTrace, ih, List.length_cons,
      List.replicate_succ, List.flatten_cons]

/-! ## One attempt -/

/-- `crc` after an attempt that `call` broke off behind the calls `part`: the value of before if that was
`StreamClear`, and otherwise the CRC of what had been handed to the stream, the trailer not counted. -/
def brokenCrc (a c : Byte) (vals : List (BitVec 32)) (crc : BitVec 16) (part : List StreamEvent)
    (call : StreamEvent) : BitVec 16 :=
  if part = [] then crc
  else crcBytes crcInit ((sentBytes (part ++ [call])).take (frameBody a c vals).length)

/-- What a write attempt begun with `crc` can do: how it ends, its calls, and what it leaves in `crc`. -/
inductive AttemptTrace (a c : Byte) (vals : List (BitVec 32)) (crc : BitVec 16) :
    AttemptEnd → List StreamEvent → BitVec 16 → Prop where
  | acknowledged :
      AttemptTrace a c vals crc (.finished .success) (writeTrace a c vals (.bytes [ackByte]))
        (crcBytes crcInit (frameBody a c vals))
  | unacknowledged (why : LastFail) (ack : ReadResult) (hack : notAcknowledged ack) :
      AttemptTrace a c vals crc (.again why) (writeTrace a c vals ack)
        (crcBytes crcInit (frameBody a c vals))
  | broken (part : List StreamEvent) (call : StreamEvent) (accepted : Nat)
      (hcalls : part ++ [call] <+: writeTrace a c vals .timeout) {left : BitVec 16}
      (hleft : left = brokenCrc a c vals crc part call) :
      AttemptTrace a c vals crc (.finished .ioFailure) (part ++ [call.failing accepted]) left

/-- An attempt begun with `history` and `crc` has ended as `out`, by one of those. -/
def Traced (a c : Byte) (vals : List (BitVec 32)) (history : List StreamEvent) (crc : BitVec 16)
    (out : AttemptEnd × State) : Prop :=
  ∃ events, out.2.history = history ++ events ∧ AttemptTrace a c vals crc out.1 events out.2.crc

theorem bodyCalls_prefix (a c : Byte) (sent vs : List (BitVec 32)) (ack : ReadResult) :
    bodyCalls a c sent <+: writeTrace a c (sent ++ vs) ack := by
  rw [writeTrace_eq, bodyCalls_append, List.append_assoc]
  exact List.prefix_append _ _

section
variable {history : List StreamEvent} {crc : BitVec 16} {s : State} {part : List StreamEvent}
  {call : StreamEvent} {accepted : Nat}

/-- An attempt broken off by the header or by a field leaves the CRC of the body sent so far. -/
theorem Traced.broken_in_body {sent vs : List (BitVec 32)} (hvals : sent ++ vs = vals)
    (hpart : part ≠ []) (hcalls : part ++ [call] = bodyCalls a c sent)
    (hhist : s.history = history ++ (part ++ [call.failing accepted]))
    (hcrc : s.crc = crcBytes crcInit (frameBody a c sent)) :
    Traced a c vals history crc (.finished .ioFailure, s) := by
  subst hvals
  refine ⟨_, hhist, .broken part call accepted (hcalls ▸ bodyCalls_prefix a c sent vs _) ?_⟩
  have hshort : (frameBody a c sent).length ≤ (frameBody a c (sent ++ vs)).length := by
    rw [frameBody_append, List.length_append]; exact Nat.le_add_right _ _
  rw [brokenCrc, if_neg hpart, hcalls, sentBytes_bodyCalls, List.take_of_length_le hshort, hcrc]

/-- An attempt broken off behind its body leaves the body's CRC: the trailer is not fed. -/
theorem Traced.broken_behind_body {more rest : List StreamEvent} (hpart : part ≠ [])
    (hcalls : part ++ [call] = bodyCalls a c vals ++ more)
    (htrace : part ++ [call] ++ rest = writeTrace a c vals .timeout)
    (hhist : s.history = history ++ (part ++ [call.failing accepted]))
    (hcrc : s.crc = crcBytes crcInit (frameBody a c vals)) :
    Traced a c vals history crc (.finished .ioFailure, s) := by
  refine ⟨_, hhist, .broken part call accepted ⟨rest, htrace⟩ ?_⟩
  rw [brokenCrc, if_neg hpart, hcalls, sentBytes_append, sentBytes_bodyCalls, List.take_left, hcrc]

/-- The last two calls, behind those of the whole body. -/
theorem exchangeAck_traced (hhist : s.history = history ++ bodyCalls a c vals)
    (hcrc : s.crc = crcBytes crcInit (frameBody a c vals)) :
    Traced a c vals history crc (exchangeAck s) := by
  have hbody : bodyCalls a c vals ≠ [] := bodyCalls_ne_nil a c vals
  rcases exchangeAck_cases s with ⟨k, hw, e⟩ | ⟨hw, hread⟩
  · rw [e]
    exact .broken_behind_body (part := bodyCalls a c vals) (call := .wrote (trailerBytes s.crc) .ok)
      (accepted := k) (rest := [.read 1 .timeout]) hbody rfl (by rw [hcrc, List.append_assoc]; rfl)
      (by simp [hhist, hw, StreamEvent.failing]) hcrc
  have hcalls : ((s.afterWrite (trailerBytes s.crc)).afterRead 1).history =
      history ++ writeTrace a c vals ((s.afterWrite (trailerBytes s.crc)).readResult 1) := by
    simp [hhist, hw, hcrc, writeTrace_eq]
  rcases hread with ⟨hr, e⟩ | ⟨b, hb, hr, e⟩ | ⟨hr, e⟩ | ⟨hr, e⟩ <;>
    rw [e] <;> rw [hr] at hcalls
  · exact ⟨_, hcalls, hcrc ▸ .acknowledged⟩
  · exact ⟨_, hcalls, hcrc ▸ .unacknowledged _ _ (.inr ⟨b, hb, rfl⟩)⟩
  · exact ⟨_, hcalls, hcrc ▸ .unacknowledged _ _ (.inl rfl)⟩
  · exact .broken_behind_body (part := bodyCalls a c vals ++ [.wrote (trailerBytes s.crc) .ok])
      (call := .read 1 .timeout) (accepted := 0) (rest := []) (by simp) (List.append_assoc _ _ _)
      (by simp [hcrc, writeTrace_eq])
      (hcalls.trans (by simp [hcrc, writeTrace_eq, StreamEvent.failing])) hcrc

/-- The calls behind those of the header and the fields already sent. -/
theorem sendRest_traced {sent vs : List (BitVec 32)} (hvals : sent ++ vs = vals)
    (hhist : s.history = history ++ bodyCalls a c sent)
    (hcrc : s.crc = crcBytes crcInit (frameBody a c sent)) :
    Traced a c vals history crc (sendRest vs s) := by
  induction vs generalizing sent s with
  | nil =>
    rw [List.append_nil] at hvals
    subst hvals
    rw [sendRest_nil]
    exact exchangeAck_traced hhist hcrc
  | cons v vs ih =>
    have hnext : sent ++ [v] ++ vs = vals := by rw [← hvals, List.append_assoc]; rfl
    have hcalls : bodyCalls a c sent ++ [.wrote (encBe v) .ok] = bodyCalls a c (sent ++ [v]) :=
      (bodyCalls_append a c sent [v]).symm
    have hfed : (s.feed (encBe v)).crc = crcBytes crcInit (frameBody a c (sent ++ [v])) := by
      simp [hcrc, crcBytes_append, frameBody_append]
    rcases sendRest_cons_cases v vs s with ⟨k, hw, e⟩ | ⟨hw, e⟩ <;> rw [e]
    · exact .broken_in_body (accepted := k) hnext (bodyCalls_ne_nil a c sent) hcalls
        (by rw [State.afterWrite_history, hw, State.feed_history, hhist, List.append_assoc]; rfl) hfed
    · exact ih hnext
        (by rw [State.afterWrite_history, hw, State.feed_history, hhist, List.append_assoc, hcalls]) hfed

/-- The calls of one attempt, and what it leaves in `crc`. -/
theorem writeAttempt_traced (a c : Byte) (vals : List (BitVec 32)) (s : State) :
    Traced a c vals s.history s.crc (writeAttempt a c vals s) := by
  rcases writeAttempt_cases a c vals s with ⟨hc, e⟩ | ⟨hc, ⟨k, hw, e⟩ | ⟨hw, e⟩⟩ <;> rw [e]
  · exact ⟨[.cleared .ioFail], by simp [hc], .broken [] (.cleared .ok) 0 ⟨_, rfl⟩ rfl⟩
  · exact .broken_in_body (part := [.cleared .ok]) (call := .wrote [a, c] .ok) (sent := []) (accepted := k)
      rfl (by simp) rfl (by simp [hc, hw, StreamEvent.failing]) rfl
  · exact sendRest_traced (sent := []) rfl (by simp [hc, hw, bodyCalls]) rfl

end

end Sys2Proof.Machine
end

section
/-! PROOFS. TX_WRITE as a whole (`41_framer_write.md` R123, R133, R134): unacknowledged attempts, and then one
that ends the operation or the end of the retries. -/

namespace Sys2Proof.Machine

section
variable {s t r : State} {a c : Byte} {vals : List (BitVec 32)} {n : Nat}

/-- What a write of at most `n` attempts, begun with `crc`, can do: how it ends, after how many attempts, its
calls, and what it leaves in `crc`. -/
inductive WriteOutcome (a c : Byte) (vals : List (BitVec 32)) (n : Nat) (crc : BitVec 16) :
    Condition → Nat → List StreamEvent → BitVec 16 → Prop where
  | finished (acks : List ReadResult) (hacks : ∀ ack ∈ acks, notAcknowledged ack) {cond : Condition}
      {last : List StreamEvent} {left : BitVec 16}
      (hlast : AttemptTrace a c vals (if acks = [] then crc else crcBytes crcInit (frameBody a c vals))
        (.finished cond) last left) :
      WriteOutcome a c vals n crc cond (acks.length + 1) (acks.flatMap (writeTrace a c vals) ++ last) left
  | exhausted (acks : List ReadResult) (hacks : ∀ ack ∈ acks, notAcknowledged ack)
      (hlen : acks.length = n) :
      WriteOutcome a c vals n crc .timeout n (acks.flatMap (writeTrace a c vals))
        (crcBytes crcInit (frameBody a c vals))

/-- One unacknowledged attempt more, in front. -/
theorem WriteOutcome.cons {crc left : BitVec 16} {cond : Condition} {k : Nat} {events : List StreamEvent}
    {ack : ReadResult} (hack : notAcknowledged ack)
    (h : WriteOutcome a c vals n (crcBytes crcInit (frameBody a c vals)) cond k events left) :
    WriteOutcome a c vals (n + 1) crc cond (k + 1) (writeTrace a c vals ack ++ events) left := by
  cases h with
  | finished acks hacks hlast =>
    rw [ite_self] at hlast
    rw [← List.append_assoc]
    exact .finished (ack :: acks) (List.forall_mem_cons.2 ⟨hack, hacks⟩) hlast
  | exhausted acks hacks hlen =>
    exact .exhausted (ack :: acks) (List.forall_mem_cons.2 ⟨hack, hacks⟩) (congrArg (· + 1) hlen)

/-- From `s` the sequencer runs to the end of a write that R123's loop, with `n` attempts left, ends with
`out`. -/
def State.RunsWrite (a c : Byte) (vals : List (BitVec 32)) (n : Nat) (s : State)
    (out : Condition × State) : Prop :=
  ∃ (t : State) (k : Nat) (events : List StreamEvent),
    s.Reaches t ∧ t.Concluded out.1 ∧ t.streamView = out.2.streamView ∧
    t.attempt.toNat = s.attempt.toNat + k ∧ t.history = s.history ++ events ∧
    WriteOutcome a c vals n s.crc out.1 k events t.crc

theorem writeLoop_succ_finished {cond : Condition} {out : State} (n : Nat)
    (h : writeAttempt a c vals r = (.finished cond, out)) :
    writeLoop a c vals (n + 1) r = (cond, out) := by
  simp only [writeLoop, h]

theorem writeLoop_succ_again {why : LastFail} {out : State} (n : Nat)
    (h : writeAttempt a c vals r = (.again why, out)) :
    writeLoop a c vals (n + 1) r = writeLoop a c vals n out := by
  simp only [writeLoop, h]

/-- Counting an attempt that the retries allow does not wrap (`41_framer_write.md` R126). -/
theorem attempt_add_one_toNat {attempt retries : BitVec 8} (h : attempt.toNat + (n + 1) = retries.toNat) :
    (attempt + 1#8).toNat = attempt.toNat + 1 := by
  have := retries.isLt
  bv_omega

/-- `RetryOrFail` goes on as R123's loop does with `n` attempts left, behind an attempt that sent a whole
frame (`60_exceptions.md` R219). -/
def RetryRunsWrite (a c : Byte) (vals : List (BitVec 32)) (n : Nat) : Prop :=
  ∀ {t r : State}, t.phase = .retryOrFail → t.Writing a c vals → t.streamView = r.streamView →
    t.attempt.toNat + n = t.cfgRetries.toNat → t.crc = crcBytes crcInit (frameBody a c vals) →
    t.RunsWrite a c vals n (writeLoop a c vals n r)

theorem AttemptTrace.of_again {crc left : BitVec 16} {why : LastFail} {events : List StreamEvent}
    (h : AttemptTrace a c vals crc (.again why) events left) :
    ∃ ack, notAcknowledged ack ∧ events = writeTrace a c vals ack ∧
      left = crcBytes crcInit (frameBody a c vals) := by
  cases h with
  | unacknowledged _ ack hack => exact ⟨ack, hack, rfl, rfl⟩

/-- One attempt of the sequencer, compared with the loop's and with what an attempt can do. -/
theorem State.runs_attempt (hp : s.phase = .reset) (hs : s.Writing a c vals)
    (hview : s.streamView = r.streamView) (hn : s.attempt.toNat + (n + 1) = s.cfgRetries.toNat) :
    ∃ (t : State) (events : List StreamEvent), s.Reaches t ∧
      t.AttemptOver (writeAttempt a c vals r).1 ∧ t.streamView = (writeAttempt a c vals r).2.streamView ∧
      t.attempt.toNat = s.attempt.toNat + 1 ∧ t.history = s.history ++ events ∧
      AttemptTrace a c vals s.crc (writeAttempt a c vals r).1 events t.crc := by
  obtain ⟨t, hreach, hover, htview, hatt⟩ := State.runsTo_writeAttempt hp hs hview
  obtain ⟨events, hhist, htrace⟩ := writeAttempt_traced a c vals r
  have hcrc : s.crc = r.crc := congrArg StreamView.crc hview
  have hhist₀ : s.history = r.history := congrArg StreamView.history hview
  have hcrc' : t.crc = (writeAttempt a c vals r).2.crc := congrArg StreamView.crc htview
  have hhist' : t.history = (writeAttempt a c vals r).2.history := congrArg StreamView.history htview
  exact ⟨t, events, hreach, hover, htview, hatt ▸ attempt_add_one_toNat hn,
    by rw [hhist', hhist, hhist₀], by rwa [hcrc, hcrc']⟩

/-- One attempt from phase `Reset`: it ends the operation and the loop, or it leads to `RetryOrFail`. -/
theorem State.runsWrite_of_retry (hretry : RetryRunsWrite a c vals n) (hp : s.phase = .reset)
    (hs : s.Writing a c vals) (hview : s.streamView = r.streamView)
    (hn : s.attempt.toNat + (n + 1) = s.cfgRetries.toNat) :
    s.RunsWrite a c vals (n + 1) (writeLoop a c vals (n + 1) r) := by
  obtain ⟨t, events, hreach, hover, htview, hcount, hhist, htrace⟩ := State.runs_attempt hp hs hview hn
  rcases hout : writeAttempt a c vals r with ⟨attemptEnd, out⟩
  rw [hout] at hover htview htrace
  cases attemptEnd with
  | finished cond =>
    rw [writeLoop_succ_finished n hout]
    exact ⟨t, 1, events, hreach, hover, htview, hcount, hhist, .finished [] (by simp) htrace⟩
  | again why =>
    rw [writeLoop_succ_again n hout]
    obtain ⟨ack, hack, rfl, hbody⟩ := htrace.of_again
    have hleft : t.attempt.toNat + n = t.cfgRetries.toNat := by
      rw [hreach.sameConfig.retries, hcount, ← hn]; omega
    obtain ⟨v, k, more, hmore, hended, hvview, hvcount, hvhist, hvout⟩ :=
      hretry hover (hreach.writing hs) htview hleft hbody
    refine ⟨v, k + 1, writeTrace a c vals ack ++ more, hreach.trans hmore, hended, hvview, ?_, ?_, ?_⟩
    · rw [hvcount, hcount]; omega
    · rw [hvhist, hhist, List.append_assoc]
    · exact .cons hack (hbody ▸ hvout)

/-- By induction on the attempts left: with none the operation ends with `Timeout`. -/
theorem State.runsWrite_retry (n : Nat) : RetryRunsWrite a c vals n := by
  induction n with
  | zero =>
    intro t r hp ht hview hn hcrc
    have hlt : ¬ t.attempt < t.cfgRetries := by rw [BitVec.lt_def]; omega
    have hstep : SeqStep t (t.endTransaction .timeout) := .exhausted hp hlt (by simp [ht.kind])
    exact ⟨_, 0, [], .single hstep, State.endTransaction_concluded ht.kind, hview, rfl, by simp,
      hcrc ▸ .exhausted [] (by simp) rfl⟩
  | succ n ih =>
    intro t r hp ht hview hn hcrc
    have hlt : t.attempt < t.cfgRetries := by rw [BitVec.lt_def]; omega
    have hstep : SeqStep t (t.goto .reset) := .again hp hlt
    have hreset : (t.goto .reset).Writing a c vals := State.Reaches.writing (.single hstep) ht
    obtain ⟨v, k, events, hreach, hv⟩ :=
      State.runsWrite_of_retry (s := t.goto .reset) ih rfl hreset hview hn
    exact ⟨v, k, events, hreach.head hstep, hv⟩

end

/-! ## From acceptance -/

/-- An accepted TX_WRITE runs as R123's loop does from the state that accepted it. -/
theorem State.runsWrite_accepted {s : State} (a c : Byte) (vals : List (BitVec 32))
    (hretries : s.cfgRetries ≠ 0#8) :
    (s.loseResults.beginWrite a c vals).RunsWrite a c vals s.cfgRetries.toNat
      (writeLoop a c vals s.cfgRetries.toNat s) := by
  obtain ⟨n, hn⟩ : ∃ n, s.cfgRetries.toNat = n + 1 :=
    Nat.exists_eq_succ_of_ne_zero fun h => hretries (BitVec.eq_of_toNat_eq h)
  rw [hn]
  exact State.runsWrite_of_retry (State.runsWrite_retry n) rfl ⟨rfl, rfl, rfl, rfl⟩ rfl
    (by simp [hn])

/-- Settles O40: the run from acceptance, and what no step of it changes. -/
theorem txWriteRunsItsAlgorithm : Obligations.TxWriteRunsItsAlgorithm := by
  intro a c vals s hidle hlink hretries hmax
  obtain ⟨t, -, -, hreach, hended, hview, -⟩ := State.runsWrite_accepted a c vals hretries
  obtain ⟨hphase, hcode, hcount, hfields⟩ := hended
  obtain ⟨hparams, haddress, hcfgRetries, htimeout, hopen⟩ := hreach.sameConfig
  have hport := hreach.sameRequest.port
  have hval := hreach.keeps (f := State.resVal) (·.resVal_resBytes_eq.1)
  have hbytes := hreach.keeps (f := State.resBytes) (·.resVal_resBytes_eq.2)
  rw [hcfgRetries] at hcount
  obtain ⟨n, rfl⟩ := hreach.exists_sequenceN
  exact ⟨_, n, exec_txWrite hidle hlink hmax, hphase, hcode, hcount, hfields, hval, hbytes, hview,
    haddress, hcfgRetries, htimeout, hopen.trans hlink, hport, hparams⟩

/-- Settles O42: the outcomes of a run of writes, with the frames they send. -/
theorem txWriteOutcomes : Obligations.TxWriteOutcomes := by
  intro a c vals s s1 hlink hretries hexec
  obtain ⟨-, -, -, rfl⟩ := execTxWrite_next hexec
  obtain ⟨t, k, events, hreach, hended, -, hattempt, hhist, hout⟩ :=
    State.runsWrite_accepted a c vals hretries
  obtain ⟨hphase, hcode, hcount, hfields⟩ := hended
  obtain ⟨-, haddress, hcfgRetries, htimeout, hopen⟩ := hreach.sameConfig
  obtain ⟨n, hn⟩ := hreach.exists_sequenceN
  rw [hcfgRetries] at hcount
  refine ⟨n, events, ?_⟩
  simp only [hn]
  refine ⟨hphase, hhist, hfields, hreach.sameRequest.kind, haddress, hcfgRetries, htimeout,
    hopen.trans hlink, ?_⟩
  generalize (writeLoop a c vals s.cfgRetries.toNat s).1 = cond at hcode hcount hout
  generalize t.crc = left at hout ⊢
  have hattempts : t.attempt.toNat = k := hattempt.trans (Nat.zero_add k)
  cases hout with
  | finished acks hacks hlast =>
    cases hlast with
    | acknowledged =>
      refine .inl ⟨hcode, hcount, acks, hacks, hattempts.symm, rfl, ?_, rfl⟩
      rw [hattempts, sentBytes_append, sentBytes_writeTraces, sentBytes_writeTrace, List.replicate_succ',
        List.flatten_concat]
    | broken part call accepted hcalls hbroken =>
      obtain ⟨rest, hrest⟩ := hcalls
      exact .inr (.inr ⟨hcode, hcount, acks, part, call, rest, accepted, hacks, hattempts.symm,
        by rw [← hrest, ← List.append_cons], rfl, hbroken⟩)
  | exhausted acks hacks hlen =>
    refine .inr (.inl ⟨hcode, hcount, BitVec.eq_of_toNat_eq hattempts, acks, hacks, hlen, rfl, ?_, rfl⟩)
    rw [sentBytes_writeTraces, hlen]

end Sys2Proof.Machine
end

section
/-! PROOFS. The phases only a read has, as outcomes of `SeqStep`, the one outcome that shows fields
(`42_deframer_read.md` R157 to R159), and the two operations of the deframer at the port (R150 to R154). -/

namespace Sys2Proof.Machine

/-! ## The phases of a read -/

/-- Settles O33: the three answers inside the list, and the outcome past it. -/
theorem receiveFieldsPhaseStep : Obligations.ReceiveFieldsPhaseStep := by
  refine fun s hp => ⟨fun hlt => ?_, fun hle => (SeqStep.fieldsDone hp hle).step_eq⟩
  have hw := List.getElem?_eq_getElem hlt
  refine ⟨fun bs hr => ?_, fun hr => (SeqStep.fieldTimeout hp _ hw hr).step_eq,
    fun hr => (SeqStep.fieldFail hp _ hw hr).step_eq⟩
  have hlen := State.readResult_length hr (FieldWidth.size_le _)
  exact ⟨hlen, (SeqStep.fieldOk hp _ hw bs hr hlen).step_eq⟩

/-- A read that succeeds shows the fields decoded (`60_exceptions.md` R217). -/
theorem State.endTransaction_read_success {s : State} (hk : s.kind = .read) :
    s.endTransaction .success =
      { s with resCode := some .success, resCount := none, resFld := some s.fld, phase := .idle } := by
  simp [State.endTransaction, hk]

/-- A transaction that does not succeed shows no field (`60_exceptions.md` R217). -/
theorem State.endTransaction_resFld_of_ne_success {s : State} {c : Condition} (hc : c ≠ .success) :
    (s.endTransaction c).resFld = some [] := by
  simp [hc]

theorem State.endTransaction_crcMismatch (s : State) :
    s.endTransaction .crcMismatch =
      { s with resCode := some .crcMismatch, resCount := none, resFld := some [], phase := .idle } := by
  simp [State.endTransaction]

/-- Settles O34: the outcomes of a read's `TrailerExchange`, the trailer compared as a number. -/
theorem readTrailerPhaseStep : Obligations.ReadTrailerPhaseStep := by
  refine fun s hp hk => ⟨fun t0 t1 hr => ?_, fun hr => (SeqStep.trailerTimeout hp hk hr).step_eq,
    fun hr => (SeqStep.trailerFail hp hk hr).step_eq⟩
  have hkind : ((s.sampleCrc.afterRead 2).feed [t0, t1]).kind = .read := hk
  rw [← trailerValue_pair]
  refine ⟨fun hm => ?_, fun hm hq => ?_,
    fun hm hq => (SeqStep.mismatchRetries hp hk _ hr rfl hm hq).step_eq⟩
  · rw [(SeqStep.trailerMatch hp hk _ hr rfl hm).step_eq, State.endTransaction_read_success hkind]
    rfl
  · rw [(SeqStep.mismatchEnds hp hk _ hr rfl hm hq).step_eq, State.endTransaction_crcMismatch]
    rfl

/-! ## Which step shows fields -/

/-- What an outcome of a phase does to `res_fld`: nothing, or it empties it, or it is the matched trailer of
a read, which shows the fields decoded in the attempt. -/
theorem SeqStep.resFld_cases {s t : State} (h : SeqStep s t) :
    t.resFld = s.resFld ∨ t.resFld = some [] ∨
    (s.phase = .trailerExchange ∧ s.kind = .read ∧ t.phase = .idle ∧ t.resCode = some .success ∧
      t.resFld = some s.fld ∧ ∃ bs, s.readResult 2 = .bytes bs ∧ trailerValue bs = s.crc) := by
  cases h with
  | trailerMatch hp hk bs hr _ hm =>
    exact .inr (.inr ⟨hp, hk, rfl, rfl, by simp [hk], bs, hr, hm⟩)
  | ackOk _ hk => exact .inr (.inl (by simp [hk]))
  | resetFail | headerFail | payloadFail | fieldFail | sendTrailerFail | ackFail | mismatchEnds
  | trailerFail | exhaustedMismatch | exhausted =>
    exact .inr (.inl (State.endTransaction_resFld_of_ne_success (by decide)))
  | _ => exact .inl rfl

/-- Settles O50: an empty `res_fld` becomes a non-empty one by none of the first two. -/
theorem fieldsOnlyAfterAMatchedTrailer : Obligations.FieldsOnlyAfterAMatchedTrailer := by
  intro s t v vs h hp hempty hshown
  rw [step_busy hp] at h
  cases h
  obtain hsame | hnone | ⟨hphase, hk, hidle, hcode, hfld, htrailer⟩ :=
    (State.sequence_spec hp).resFld_cases
  · simp [hsame, hempty] at hshown
  · simp [hnone] at hshown
  · exact ⟨hphase, hk, hidle, hcode, Option.some.inj (hfld.symm.trans hshown), htrailer⟩

/-! ## The operations at the port -/

theorem legalWidth_eq_none_iff_ne {w : BitVec 8} :
    legalWidth w = none ↔ ¬ (w = 1#8 ∨ w = 2#8 ∨ w = 4#8) := by
  simp [legalWidth_eq_none, ← BitVec.toNat_inj]

theorem exec_fldDec {s : State} {w : BitVec 8} {bs : List Byte} {f : FieldWidth}
    (hidle : s.phase = .idle) (hl : bs.length = w.toNat) (hw : legalWidth w = some f) :
    exec (.fldDec w bs) s =
      .next ((s.loseResults.giveVal ((decBe bs).setWidth 64)).endOperation .success) := by
  simp [exec, execFldDec, State.accept_idle hidle, hl, hw]

theorem exec_fldDec_illegal {s : State} {w : BitVec 8} {bs : List Byte} (hidle : s.phase = .idle)
    (hl : bs.length = w.toNat) (hw : legalWidth w = none) :
    exec (.fldDec w bs) s = .next (s.loseResults.endOperation .invalidValue) := by
  simp [exec, execFldDec, State.accept_idle hidle, hl, hw]

/-- The length of the list is looked at first, so nothing is asked of `w` as a width (log 10). -/
theorem exec_fldDec_malformed {s : State} {w : BitVec 8} {bs : List Byte} (hidle : s.phase = .idle)
    (hl : bs.length ≠ w.toNat) : exec (.fldDec w bs) s = .refused .malformedFieldBytes := by
  simp [exec, execFldDec, State.accept_idle hidle, hl]

/-- Settles O15: the check of the length, and then that of the width. -/
theorem fldDecResult : Obligations.FldDecResult := by
  refine fun w bs => ⟨rfl, fun s hidle => ⟨fun hl hw => ?_, fun hl hw => ?_, exec_fldDec_malformed hidle⟩⟩
  · obtain ⟨f, hf⟩ := Option.ne_none_iff_exists'.1 fun hnone => legalWidth_eq_none_iff_ne.1 hnone hw
    exact exec_fldDec hidle hl hf
  · exact exec_fldDec_illegal hidle hl (legalWidth_eq_none_iff_ne.2 hw)

section
variable {s : State} {a c : Byte} {widths : List (BitVec 8)}

/-- TX_READ is accepted with the link open and a list of legal widths within `MAX_FIELDS`
(`42_deframer_read.md` R153). -/
theorem exec_txRead {ws : List FieldWidth} (hidle : s.phase = .idle) (hlink : s.linkOpen = true)
    (hmax : ∀ m, s.params.maxFields = some m → widths.length ≤ m)
    (hws : widths.map BitVec.toNat = ws.map FieldWidth.size) :
    exec (.txRead a c widths) s = .next (s.loseResults.beginRead a c ws) := by
  simp [exec, execTxRead, State.accept_idle hidle, hlink, Params.admits_eq_true.2 hmax,
    legalWidths_eq_some.2 hws]

/-- Where a width is illegal, TX_READ ends with `InvalidValue` instead (`42_deframer_read.md` R154). -/
theorem exec_txRead_illegal (hidle : s.phase = .idle) (hlink : s.linkOpen = true)
    (hmax : ∀ m, s.params.maxFields = some m → widths.length ≤ m)
    (hws : ∃ w ∈ widths, w.toNat ≠ 1 ∧ w.toNat ≠ 2 ∧ w.toNat ≠ 4) :
    exec (.txRead a c widths) s = .next (s.loseResults.endTransaction .invalidValue) := by
  simp [exec, execTxRead, State.accept_idle hidle, hlink, Params.admits_eq_true.2 hmax,
    legalWidths_eq_none.2 hws]

end

/-- Settles O26: acceptance, with the lost results and the latched operands field by field. -/
theorem txReadAcceptance : Obligations.TxReadAcceptance :=
  fun _ _ _ _ => ⟨rfl, fun _ hidle hlink hmax hws => exec_txRead hidle hlink hmax hws⟩

/-- In `Idle` a transaction that ends at once with `InvalidValue` leaves the code and an empty `res_fld`. -/
theorem State.endTransaction_invalidValue {s : State} (hidle : s.phase = .idle) :
    s.loseResults.endTransaction .invalidValue =
      s.setResults (some .invalidValue) none (some []) none none := by
  simp [State.endTransaction, State.setResults, State.loseResults, hidle]

/-- Settles O27: the end at once, and the acceptance of the empty list. -/
theorem illegalWidthEndsReadAtOnce : Obligations.IllegalWidthEndsReadAtOnce := by
  intro a c s hidle hlink
  refine ⟨fun widths hmax hws => ?_, _, exec_txRead (ws := []) hidle hlink (by simp) rfl, rfl, rfl⟩
  rw [exec_txRead_illegal hidle hlink hmax hws, State.endTransaction_invalidValue hidle]

end Sys2Proof.Machine
end

section
/-! PROOFS. The sequencer runs a read as the loop of `42_deframer_read.md` R152 does. The two are compared as
those of the write are, on the part of the state the loop acts on; this one also looks at the parameters,
which say what a mismatch does. -/

namespace Sys2Proof.Machine

section
variable {s t u r : State} {a c : Byte} {ws : List FieldWidth}

/-! ## What the algorithm sees -/

/-- The part of a state the loop of R152 depends on. -/
def State.readView (s : State) : StreamView × Params := (s.streamView, s.params)

/-- States with the same view agree on everything that can be said of the view alone. -/
theorem State.agree_of_readView {α : Type} {f : State → α}
    (hf : ∀ s : State, f { s.streamView.toState with params := s.params } = f s)
    (h : s.readView = r.readView) : f s = f r := by
  obtain ⟨hview, hparams⟩ := Prod.mk.inj h
  rw [← hf s, hview, hparams, hf r]

theorem readResult_of_readView (h : s.readView = r.readView) (n : Nat) : s.readResult n = r.readResult n :=
  State.agree_of_readView (f := fun s => s.readResult n) (fun _ => rfl) h

theorem readView_afterRead (h : s.readView = r.readView) (n : Nat) :
    (s.afterRead n).readView = (r.afterRead n).readView :=
  State.agree_of_readView (f := fun s => (s.afterRead n).readView) (fun _ => rfl) h

theorem readView_feed (h : s.readView = r.readView) (bs : List Byte) :
    (s.feed bs).readView = (r.feed bs).readView :=
  State.agree_of_readView (f := fun s => (s.feed bs).readView) (fun _ => rfl) h

theorem readView_afterWrite (h : s.readView = r.readView) (bs : List Byte) :
    (s.afterWrite bs).readView = (r.afterWrite bs).readView :=
  State.agree_of_readView (f := fun s => (s.afterWrite bs).readView) (fun _ => rfl) h

/-! ## What an attempt of R152's loop does -/

/-- The last call of a read attempt, by its answer and the comparison (`42_deframer_read.md` R158, R159). -/
theorem exchangeTrailer_cases (s : State) :
    (∃ bs, s.readResult 2 = .bytes bs ∧ bs.length = 2 ∧
      ((trailerValue bs = s.crc ∧
          exchangeTrailer s = (.finished .success, (s.afterRead 2).feed bs)) ∨
       (trailerValue bs ≠ s.crc ∧ s.params.mismatchPolicy = .fail ∧
          exchangeTrailer s = (.finished .crcMismatch, (s.afterRead 2).feed bs)) ∨
       (trailerValue bs ≠ s.crc ∧ s.params.mismatchPolicy = .retry ∧
          exchangeTrailer s = (.again .crcBad, (s.afterRead 2).feed bs)))) ∨
    (s.readResult 2 = .timeout ∧ exchangeTrailer s = (.again .timedOut, s.afterRead 2)) ∨
    (s.readResult 2 = .ioFail ∧ exchangeTrailer s = (.finished .ioFailure, s.afterRead 2)) := by
  rcases s.readTrailer_cases with
    ⟨bs, hr, hl, ⟨hm, -⟩ | ⟨hm, hq, -⟩ | ⟨hm, hq, -⟩⟩ | ⟨hr, -⟩ | ⟨hr, -⟩
  · exact .inl ⟨bs, hr, hl, .inl ⟨hm, by simp [exchangeTrailer, hr, hm]⟩⟩
  · exact .inl ⟨bs, hr, hl, .inr (.inl ⟨hm, hq, by simp [exchangeTrailer, hr, hm, hq]⟩)⟩
  · exact .inl ⟨bs, hr, hl, .inr (.inr ⟨hm, hq, by simp [exchangeTrailer, hr, hm, hq]⟩)⟩
  · exact .inr (.inl ⟨hr, by simp [exchangeTrailer, hr]⟩)
  · exact .inr (.inr ⟨hr, by simp [exchangeTrailer, hr]⟩)

/-- What is left of a read attempt once the fields of `got` have been received. -/
def readRest (ws : List FieldWidth) (got : List (BitVec 32)) (s : State) :
    AttemptEnd × List (BitVec 32) × State :=
  match readFields ws got s with
  | (.ended e, out) => (e, [], out)
  | (.all fields, out) => ((exchangeTrailer out).1, fields, (exchangeTrailer out).2)

theorem readRest_nil (got : List (BitVec 32)) (s : State) :
    readRest [] got s = ((exchangeTrailer s).1, got, (exchangeTrailer s).2) := rfl

/-- One field more, by the answer of its read (`42_deframer_read.md` R157). -/
theorem readRest_cons_cases (w : FieldWidth) (ws : List FieldWidth) (got : List (BitVec 32)) (s : State) :
    (∃ bs, s.readResult w.size = .bytes bs ∧ bs.length = w.size ∧
      readRest (w :: ws) got s = readRest ws (got ++ [decBe bs]) ((s.afterRead w.size).feed bs)) ∨
    (s.readResult w.size = .timeout ∧
      readRest (w :: ws) got s = (.again .timedOut, [], s.afterRead w.size)) ∨
    (s.readResult w.size = .ioFail ∧
      readRest (w :: ws) got s = (.finished .ioFailure, [], s.afterRead w.size)) := by
  cases hr : s.readResult w.size with
  | bytes bs =>
    exact .inl ⟨bs, rfl, State.readResult_length hr w.size_le, by simp only [readRest, readFields, hr]⟩
  | timeout => exact .inr (.inl ⟨rfl, by simp only [readRest, readFields, hr]⟩)
  | ioFail => exact .inr (.inr ⟨rfl, by simp only [readRest, readFields, hr]⟩)

/-- The first two calls of an attempt, by their answers (`42_deframer_read.md` R155, R156). -/
theorem readAttempt_cases (a c : Byte) (ws : List FieldWidth) (s : State) :
    (s.clearAnswer = .ioFail ∧ readAttempt a c ws s = (.finished .ioFailure, [], s.afterClear)) ∨
    (s.clearAnswer = .ok ∧
      ((∃ k, (s.afterClear.clearCrc.feed [a, c]).writeAnswer = .ioFail k ∧
        readAttempt a c ws s =
          (.finished .ioFailure, [], (s.afterClear.clearCrc.feed [a, c]).afterWrite [a, c])) ∨
       ((s.afterClear.clearCrc.feed [a, c]).writeAnswer = .ok ∧
        readAttempt a c ws s =
          readRest ws [] ((s.afterClear.clearCrc.feed [a, c]).afterWrite [a, c])))) := by
  cases hc : s.clearAnswer with
  | ioFail => exact .inl ⟨rfl, by simp only [readAttempt, hc]⟩
  | ok =>
    refine .inr ⟨rfl, ?_⟩
    cases hw : (s.afterClear.clearCrc.feed [a, c]).writeAnswer with
    | ioFail k => exact .inl ⟨k, rfl, by simp only [readAttempt, hc, hw]⟩
    | ok => exact .inr ⟨rfl, by simp only [readAttempt, hc, hw]; rfl⟩

/-! ## The sequencer runs an attempt -/

/-- The transaction in progress is a read of these operands. -/
structure State.Reading (a c : Byte) (ws : List FieldWidth) (s : State) : Prop where
  kind : s.kind = .read
  addr : s.opAddr = a
  cmd : s.opCmd = c
  widths : s.opWidths = ws

theorem State.Reaches.reading (h : s.Reaches t) (hs : s.Reading a c ws) : t.Reading a c ws :=
  ⟨h.sameRequest.kind.trans hs.kind, h.sameRequest.addr.trans hs.addr, h.sameRequest.cmd.trans hs.cmd,
    h.sameRequest.widths.trans hs.widths⟩

/-- A read has ended with `cond` and shows these fields (`60_exceptions.md` R217). -/
structure State.Answered (t : State) (cond : Condition) (fields : List (BitVec 32)) : Prop where
  phase : t.phase = .idle
  code : t.resCode = some cond
  count : t.resCount = if cond = .timeout then some t.cfgRetries else none
  fields : t.resFld = some fields

theorem State.endTransaction_answered {cond : Condition} (hk : s.kind = .read) :
    (s.endTransaction cond).Answered cond (if cond = .success then s.fld else []) :=
  ⟨rfl, rfl, rfl, by simp [hk]⟩

/-- Where the sequencer stands when a read attempt that decoded `got` has ended so. -/
def State.ReadOver (t : State) (got : List (BitVec 32)) : AttemptEnd → Prop
  | .finished cond => t.Answered cond (if cond = .success then got else [])
  | .again why => t.phase = .retryOrFail ∧ t.lastFail = why

/-- From `s` the sequencer gets to the end of the read attempt that the algorithm ends with `out`, with `k`
attempts counted. -/
def State.ReadsTo (s : State) (k : BitVec 8) (out : AttemptEnd × List (BitVec 32) × State) : Prop :=
  ∃ t : State, s.Reaches t ∧ t.ReadOver out.2.1 out.1 ∧ t.readView = out.2.2.readView ∧ t.attempt = k

namespace State.ReadsTo

variable {k : BitVec 8} {out : AttemptEnd × List (BitVec 32) × State}

theorem head (h : SeqStep s t) (ht : t.ReadsTo k out) : s.ReadsTo k out := by
  obtain ⟨v, hreach, hv⟩ := ht
  exact ⟨v, hreach.head h, hv⟩

theorem succeeds {got : List (BitVec 32)} (h : SeqStep s (u.endTransaction .success)) (hk : u.kind = .read)
    (hview : u.readView = r.readView) (hatt : u.attempt = k) (hgot : u.fld = got) :
    s.ReadsTo k (.finished .success, got, r) :=
  ⟨_, .single h, hgot ▸ State.endTransaction_answered hk, hview, hatt⟩

theorem ends {cond : Condition} {got : List (BitVec 32)} (h : SeqStep s (u.endTransaction cond))
    (hk : u.kind = .read) (hview : u.readView = r.readView) (hatt : u.attempt = k)
    (hcond : cond ≠ .success) : s.ReadsTo k (.finished cond, got, r) := by
  refine ⟨_, .single h, ?_, hview, hatt⟩
  have hanswered := State.endTransaction_answered (cond := cond) hk
  rw [if_neg hcond] at hanswered
  simpa only [State.ReadOver, if_neg hcond]

theorem fails {why : LastFail} {got : List (BitVec 32)} (h : SeqStep s (u.failAttempt why))
    (hview : u.readView = r.readView) (hatt : u.attempt = k) : s.ReadsTo k (.again why, got, r) :=
  ⟨_, .single h, ⟨rfl, rfl⟩, hview, hatt⟩

end State.ReadsTo

/-- Phase `TrailerExchange` of a read makes the last call of the attempt. -/
theorem State.readsTo_exchangeTrailer (hp : s.phase = .trailerExchange) (hk : s.kind = .read)
    (hview : s.readView = r.readView) : s.ReadsTo s.attempt (readRest [] s.fld r) := by
  have hresult := readResult_of_readView hview 2
  have hcrc : s.crc = r.crc := State.agree_of_readView (fun _ => rfl) hview
  have hparams : s.params = r.params := State.agree_of_readView (fun _ => rfl) hview
  have hread := readView_afterRead hview 2
  rw [readRest_nil]
  rcases exchangeTrailer_cases r with
    ⟨bs, hr, hl, ⟨hm, e⟩ | ⟨hm, hq, e⟩ | ⟨hm, hq, e⟩⟩ | ⟨hr, e⟩ | ⟨hr, e⟩ <;> rw [e]
  · exact .succeeds (.trailerMatch hp hk bs (hresult.trans hr) hl (hcrc ▸ hm)) hk
      (readView_feed hread bs) rfl rfl
  · exact .ends (.mismatchEnds hp hk bs (hresult.trans hr) hl (hcrc ▸ hm) (hparams ▸ hq)) hk
      (readView_feed hread bs) rfl (by decide)
  · exact .fails (.mismatchRetries hp hk bs (hresult.trans hr) hl (hcrc ▸ hm) (hparams ▸ hq))
      (readView_feed hread bs) rfl
  · exact .fails (.trailerTimeout hp hk (hresult.trans hr)) hread rfl
  · exact .ends (.trailerFail hp hk (hresult.trans hr)) hk hread rfl (by decide)

/-- Phase `ReceiveFields` reads the fields from `fidx` on, and then the attempt goes on as the algorithm's. -/
theorem State.readsTo_readRest (hp : s.phase = .receiveFields) (hk : s.kind = .read)
    (hrest : s.opWidths.drop s.fidx = ws) (hview : s.readView = r.readView) :
    s.ReadsTo s.attempt (readRest ws s.fld r) := by
  induction ws generalizing s r with
  | nil =>
    exact .head (.fieldsDone hp (List.drop_eq_nil_iff.1 hrest))
      (State.readsTo_exchangeTrailer rfl hk hview)
  | cons w ws ih =>
    have hw : s.opWidths[s.fidx]? = some w := by rw [← List.head?_drop, hrest, List.head?_cons]
    have hnext : s.opWidths.drop (s.fidx + 1) = ws := by rw [← List.tail_drop, hrest, List.tail_cons]
    have hresult := readResult_of_readView hview w.size
    have hread := readView_afterRead hview w.size
    rcases readRest_cons_cases w ws s.fld r with ⟨bs, hr, hl, e⟩ | ⟨hr, e⟩ | ⟨hr, e⟩ <;> rw [e]
    · exact .head (.fieldOk hp w hw bs (hresult.trans hr) hl) (ih hp hk hnext (readView_feed hread bs))
    · exact .fails (.fieldTimeout hp w hw (hresult.trans hr)) hread rfl
    · exact .ends (.fieldFail hp w hw (hresult.trans hr)) hk hread rfl (by decide)

/-- From phase `Reset` the sequencer runs one attempt of R152's loop, and counts it. -/
theorem State.readsTo_readAttempt (hp : s.phase = .reset) (hs : s.Reading a c ws)
    (hview : s.readView = r.readView) : s.ReadsTo (s.attempt + 1#8) (readAttempt a c ws r) := by
  obtain ⟨hk, rfl, rfl, rfl⟩ := hs
  have hclear : s.clearAnswer = r.clearAnswer := State.agree_of_readView (fun _ => rfl) hview
  rcases readAttempt_cases s.opAddr s.opCmd s.opWidths r with ⟨hc, e⟩ | ⟨hc, hheader⟩
  · rw [e]
    exact .ends (.resetFail hp (hclear.trans hc)) hk
      (State.agree_of_readView (f := fun s => s.afterClear.readView) (fun _ => rfl) hview) rfl (by decide)
  refine .head (.resetOk hp (hclear.trans hc)) ?_
  have hcleared : (s.countAttempt.afterClear.clearCrc.restartFields.goto .sendHeader).readView =
      r.afterClear.clearCrc.readView :=
    State.agree_of_readView (f := fun s => s.afterClear.clearCrc.readView) (fun _ => rfl) hview
  have hanswer := writeAnswer_feed_of_streamView (congrArg Prod.fst hcleared) [s.opAddr, s.opCmd]
  have hsent := readView_afterWrite (readView_feed hcleared [s.opAddr, s.opCmd]) [s.opAddr, s.opCmd]
  rcases hheader with ⟨k, hw, e⟩ | ⟨hw, e⟩ <;> rw [e]
  · exact .ends (.headerFail rfl k (hanswer.trans hw)) hk hsent rfl (by decide)
  · refine .head (.headerOk rfl (hanswer.trans hw)) (State.readsTo_readRest ?_ hk rfl hsent)
    exact congrArg TxKind.bodyPhase hk

/-! ## The sequencer runs the loop -/

/-- From `s` the sequencer runs to the end of a read that R152's loop ends with `out`. -/
def State.RunsRead (s : State) (out : Condition × List (BitVec 32) × State) : Prop :=
  ∃ t : State, s.Reaches t ∧ t.Answered out.1 out.2.1 ∧ t.streamView = out.2.2.streamView

theorem State.RunsRead.of_reaches {out : Condition × List (BitVec 32) × State} (h : s.Reaches t)
    (ht : t.RunsRead out) : s.RunsRead out := by
  obtain ⟨v, hreach, hv⟩ := ht
  exact ⟨v, h.trans hreach, hv⟩

/-- `RetryOrFail` goes on as R152's loop does with `n` attempts left (`60_exceptions.md` R219). -/
def RetryRunsRead (a c : Byte) (ws : List FieldWidth) (n : Nat) : Prop :=
  ∀ {t r : State}, t.phase = .retryOrFail → t.Reading a c ws → t.readView = r.readView →
    t.attempt.toNat + n = t.cfgRetries.toNat → t.RunsRead (readLoop a c ws n t.lastFail r)

/-- One attempt from phase `Reset`: it ends the operation and the loop, or it leads to `RetryOrFail`. The
reason of the failure before it no longer counts. -/
theorem State.runsRead_of_retry {n : Nat} {last : LastFail} (hretry : RetryRunsRead a c ws n)
    (hp : s.phase = .reset) (hs : s.Reading a c ws) (hview : s.readView = r.readView)
    (hn : s.attempt.toNat + (n + 1) = s.cfgRetries.toNat) :
    s.RunsRead (readLoop a c ws (n + 1) last r) := by
  obtain ⟨t, hreach, hover, htview, hatt⟩ := State.readsTo_readAttempt hp hs hview
  rcases hout : readAttempt a c ws r with ⟨attemptEnd, got, out⟩
  rw [hout] at hover htview
  cases attemptEnd with
  | finished cond =>
    simp only [readLoop, hout]
    exact ⟨t, hreach, hover, congrArg Prod.fst htview⟩
  | again why =>
    obtain ⟨hphase, rfl⟩ := hover
    simp only [readLoop, hout]
    have hleft : t.attempt.toNat + n = t.cfgRetries.toNat := by
      rw [hatt, hreach.sameConfig.retries, attempt_add_one_toNat hn, ← hn]; omega
    exact .of_reaches hreach (hretry hphase (hreach.reading hs) htview hleft)

/-- By induction on the attempts left: with none the operation ends by the last attempt's failure. -/
theorem State.runsRead_retry (n : Nat) : RetryRunsRead a c ws n := by
  induction n with
  | zero =>
    intro t r hp ht hview hn
    have hlt : ¬ t.attempt < t.cfgRetries := by rw [BitVec.lt_def]; omega
    have hstream : t.streamView = r.streamView := congrArg Prod.fst hview
    by_cases hlast : t.lastFail = .crcBad
    · simp only [readLoop, if_pos hlast]
      exact ⟨_, .single (.exhaustedMismatch hp hlt ht.kind hlast), State.endTransaction_answered ht.kind,
        hstream⟩
    · simp only [readLoop, if_neg hlast]
      exact ⟨_, .single (.exhausted hp hlt fun h => hlast h.2), State.endTransaction_answered ht.kind,
        hstream⟩
  | succ n ih =>
    intro t r hp ht hview hn
    have hlt : t.attempt < t.cfgRetries := by rw [BitVec.lt_def]; omega
    have hstep : t.Reaches (t.goto .reset) := .single (.again hp hlt)
    exact .of_reaches hstep
      (State.runsRead_of_retry (s := t.goto .reset) ih rfl (hstep.reading ht) hview hn)

end

/-- An accepted TX_READ runs as R152's loop does from the state that accepted it. -/
theorem State.runsRead_accepted {s : State} (a c : Byte) (ws : List FieldWidth)
    (hretries : s.cfgRetries ≠ 0#8) :
    (s.loseResults.beginRead a c ws).RunsRead (readLoop a c ws s.cfgRetries.toNat .none s) := by
  obtain ⟨n, hn⟩ : ∃ n, s.cfgRetries.toNat = n + 1 :=
    Nat.exists_eq_succ_of_ne_zero fun h => hretries (BitVec.eq_of_toNat_eq h)
  rw [hn]
  exact State.runsRead_of_retry (State.runsRead_retry n) rfl ⟨rfl, rfl, rfl, rfl⟩ rfl (by simp [hn])

/-- Settles O41: the run from acceptance, and what no step of it changes. -/
theorem txReadRunsItsAlgorithm : Obligations.TxReadRunsItsAlgorithm := by
  intro a c widths ws s hidle hlink hretries hmax hws
  obtain ⟨t, hreach, ⟨hphase, hcode, hcount, hfields⟩, hview⟩ := State.runsRead_accepted a c ws hretries
  obtain ⟨hparams, haddress, hcfgRetries, htimeout, hopen⟩ := hreach.sameConfig
  have hport := hreach.sameRequest.port
  have hval := hreach.keeps (f := State.resVal) (·.resVal_resBytes_eq.1)
  have hbytes := hreach.keeps (f := State.resBytes) (·.resVal_resBytes_eq.2)
  rw [hcfgRetries] at hcount
  obtain ⟨n, rfl⟩ := hreach.exists_sequenceN
  exact ⟨_, n, exec_txRead hidle hlink hmax hws, hphase, hcode, hcount, hfields, hval, hbytes, hview,
    haddress, hcfgRetries, htimeout, hopen.trans hlink, hport, hparams⟩

end Sys2Proof.Machine
end

section
/-! PROOFS. A read that succeeds is verified (`42_deframer_read.md` R161 to R163): what the current attempt has
received, phase by phase, is kept by every outcome of a phase. -/

namespace Sys2Proof.Machine

section
variable {s t : State} {a c : Byte} {ws : List FieldWidth} {fields : List (List Byte)}

/-- Steps of the sequencer are outcomes of phases, as far as they leave `Idle`. -/
theorem State.reaches_sequenceN (s : State) (n : Nat) : s.Reaches (s.sequenceN n) := by
  induction n generalizing s with
  | zero => exact .refl
  | succ n ih =>
    by_cases hp : s.phase = .idle
    · rw [State.sequenceN, State.sequence_idle hp]
      exact ih s
    · exact (ih s.sequence).head (State.sequence_spec hp)

/-! ## What an attempt has received -/

/-- The calls of a read attempt that has sent the request and received these fields. -/
def receiveCalls (a c : Byte) (fields : List (List Byte)) : List StreamEvent :=
  [.cleared .ok, .wrote (readRequest a c) .ok] ++ fields.map (fun bs => .read bs.length (.bytes bs))

theorem readTrace_eq (a c : Byte) (fields : List (List Byte)) (trailer : List Byte) :
    readTrace a c fields trailer = receiveCalls a c fields ++ [.read 2 (.bytes trailer)] := rfl

/-- The attempt in progress has received these fields: the history ends with its calls, `crc` covers them
and the request (`10_state.md` R12), and `fld` is what they decode to. -/
structure State.Received (a c : Byte) (fields : List (List Byte)) (s : State) : Prop where
  calls : ∃ before, s.history = before ++ receiveCalls a c fields
  crc : s.crc = crcBytes crcInit (readRequest a c ++ fields.flatten)
  fld : s.fld = respFields fields

/-- The header has been sent and no field received (`42_deframer_read.md` R156). -/
theorem State.Received.of_header (hcleared : ∃ before, s.history = before ++ [.cleared .ok])
    (hcrc : s.crc = crcInit) (hfld : s.fld = []) (hw : s.writeAnswer = .ok) :
    (((s.feed [s.opAddr, s.opCmd]).afterWrite [s.opAddr, s.opCmd]).goto
      (TxKind.bodyPhase s.kind)).Received s.opAddr s.opCmd [] := by
  obtain ⟨before, hhist⟩ := hcleared
  exact ⟨⟨before, by simp [hhist, hw, receiveCalls, readRequest]⟩, by simp [hcrc, readRequest],
    by simp [hfld, respFields]⟩

/-- One field more (`42_deframer_read.md` R157). -/
theorem State.Received.field (h : s.Received a c fields) {w : FieldWidth} {bs : List Byte}
    (hr : s.readResult w.size = .bytes bs) (hbs : bs.length = w.size) :
    (((s.afterRead w.size).feed bs).storeField (decBe bs)).Received a c (fields ++ [bs]) := by
  obtain ⟨⟨before, hhist⟩, hcrc, hfld⟩ := h
  exact ⟨⟨before, by simp [hhist, hr, hbs, receiveCalls]⟩, by simp [hcrc, crcBytes_append],
    by simp [hfld, respFields]⟩

/-! ## What a read shows -/

/-- What `SuccessfulReadIsVerified` says of a read that is over. -/
def State.Verified (a c : Byte) (ws : List FieldWidth) (t : State) : Prop :=
  (t.resCode ≠ some .success → t.resFld = some []) ∧
  (t.resCode = some .success →
    ∃ (before : List StreamEvent) (fields : List (List Byte)) (trailer : List Byte),
      t.history = before ++ readTrace a c fields trailer ∧
      fields.map List.length = ws.map FieldWidth.size ∧ trailer.length = 2 ∧
      respValid a c fields trailer ∧ t.resFld = some (respFields fields) ∧ t.crc = 0x0000#16)

theorem State.endTransaction_verified {cond : Condition} (hcond : cond ≠ .success) :
    (s.endTransaction cond).Verified a c ws :=
  ⟨fun _ => State.endTransaction_resFld_of_ne_success hcond,
    fun hsuccess => absurd (Option.some.inj hsuccess) hcond⟩

/-- A register that is fed its own value as a trailer ends at zero (`40_crc.md` R102 (d)). -/
theorem crcBytes_own_trailer {crc : BitVec 16} {trailer : List Byte} (hl : trailer.length = 2)
    (hm : trailerValue trailer = crc) : crcBytes crc trailer = 0#16 := by
  rw [← trailerBytes_trailerValue hl]
  exact (crcResidue crc (trailerValue trailer)).2 hm

/-- A matched trailer completes a verified read (`42_deframer_read.md` R159). -/
theorem State.Received.verified (h : s.Received a c fields) (hk : s.kind = .read)
    (hwidths : fields.map List.length = ws.map FieldWidth.size) {trailer : List Byte}
    (hr : s.readResult 2 = .bytes trailer) (hl : trailer.length = 2) (hm : trailerValue trailer = s.crc) :
    (((s.sampleCrc.afterRead 2).feed trailer).endTransaction .success).Verified a c ws := by
  obtain ⟨⟨before, hhist⟩, hcrc, hfld⟩ := h
  refine ⟨fun hfailed => absurd rfl hfailed, fun _ => ⟨before, fields, trailer, ?_, hwidths, hl, ?_, ?_, ?_⟩⟩
  · simp [hhist, hr, readTrace_eq]
  · exact hm.trans hcrc
  · simp [hk, hfld]
  · exact crcBytes_own_trailer hl hm

/-! ## The invariant -/

/-- What a read of these operands has done in its current attempt, by phase. -/
def State.ReadProgress (a c : Byte) (ws : List FieldWidth) (s : State) : Phase → Prop
  | .idle => s.Verified a c ws
  | .reset => True
  | .sendHeader =>
    s.fidx = 0 ∧ s.fld = [] ∧ s.crc = crcInit ∧ ∃ before, s.history = before ++ [.cleared .ok]
  | .sendPayload => False
  | .receiveFields =>
    ∃ fields, s.Received a c fields ∧ fields.map List.length = (ws.take s.fidx).map FieldWidth.size
  | .trailerExchange =>
    ∃ fields, s.Received a c fields ∧ fields.map List.length = ws.map FieldWidth.size
  | .retryOrFail => True

theorem State.readProgress_of_phase {p : Phase} (hp : s.phase = p) (h : s.ReadProgress a c ws p) :
    s.ReadProgress a c ws s.phase := hp ▸ h

/-- A read ends without success, fails its attempt, starts a new one, or receives what comes next. -/
theorem SeqStep.keeps_readProgress (h : SeqStep s t) (hs : s.Reading a c ws)
    (hprogress : s.ReadProgress a c ws s.phase) : t.ReadProgress a c ws t.phase := by
  obtain ⟨hk, rfl, rfl, rfl⟩ := hs
  cases h with
  | resetOk _ hc => exact ⟨rfl, rfl, rfl, s.history, by simp [hc]⟩
  | headerOk hp hw =>
    rw [hp] at hprogress
    obtain ⟨hfidx, hfld, hcrc, hcleared⟩ := hprogress
    exact State.readProgress_of_phase (congrArg TxKind.bodyPhase hk)
      ⟨[], .of_header hcleared hcrc hfld hw, by simp [hfidx]⟩
  | payloadDone hp | payloadOk hp =>
    rw [hp] at hprogress
    exact hprogress.elim
  | fieldsDone hp hle =>
    rw [hp] at hprogress
    obtain ⟨fields, hreceived, hwidths⟩ := hprogress
    rw [List.take_of_length_le hle] at hwidths
    obtain ⟨hcalls, hcrc, hfld⟩ := hreceived
    exact ⟨fields, ⟨hcalls, hcrc, hfld⟩, hwidths⟩
  | fieldOk hp w hw bs hr hbs =>
    rw [hp] at hprogress
    obtain ⟨fields, hreceived, hwidths⟩ := hprogress
    exact State.readProgress_of_phase hp
      ⟨fields ++ [bs], hreceived.field hr hbs, by simp [hwidths, hbs, hw, List.take_add_one]⟩
  | trailerMatch hp _ bs hr hl hm =>
    rw [hp] at hprogress
    obtain ⟨fields, hreceived, hwidths⟩ := hprogress
    exact hreceived.verified hk hwidths hr hl hm
  | ackOk _ hwrite => simp [hk] at hwrite
  | fieldTimeout | ackBad | ackTimeout | mismatchRetries | trailerTimeout | again => trivial
  | resetFail | headerFail | payloadFail | fieldFail | sendTrailerFail | ackFail | mismatchEnds | trailerFail
  | exhaustedMismatch | exhausted => exact State.endTransaction_verified (by decide)

theorem State.Reaches.readProgress (h : s.Reaches t) (hs : s.Reading a c ws)
    (hprogress : s.ReadProgress a c ws s.phase) : t.ReadProgress a c ws t.phase := by
  induction h with
  | refl => exact hprogress
  | tail hreach hlast ih => exact hlast.keeps_readProgress (State.Reaches.reading hreach hs) ih

end

/-- Settles O43: acceptance with legal widths begins in `Reset`, where nothing has been received, and in
`Idle` the invariant is the statement. -/
theorem successfulReadIsVerified : Obligations.SuccessfulReadIsVerified := by
  intro a c widths ws s s1 n _ _ hwidths hexec
  rw [← legalWidths_eq_some] at hwidths
  obtain ⟨-, -, -, ⟨hillegal, -⟩ | ⟨ws', hws, rfl⟩⟩ := execTxRead_next hexec
  · simp [hwidths] at hillegal
  obtain rfl : ws = ws' := Option.some.inj (hwidths.symm.trans hws)
  intro t hidle
  have hprogress : t.ReadProgress a c ws t.phase :=
    (State.reaches_sequenceN _ n).readProgress ⟨rfl, rfl, rfl, rfl⟩ trivial
  rwa [hidle] at hprogress

end Sys2Proof.Machine
end

section
/-! PROOFS. The position reconstructor (`43_position.md` R180 to R186): POS_RECON answers `posRecon` of its
operands, a sum of four terms that is the true sum of integers modulo 2^64. -/

namespace Sys2Proof.Machine

/-! ## The flags -/

/-- A byte masked with one bit is not zero exactly when the bit is set. -/
theorem and_twoPow_bne_zero (b : Byte) {i : Nat} (hi : i < 8) :
    (b &&& BitVec.twoPow 8 i != 0#8) = b.getLsbD i := by
  have hbit : BitVec.twoPow 8 i ≠ 0#8 := by
    simp [← BitVec.toNat_inj, BitVec.toNat_twoPow_of_lt hi]
  rw [BitVec.and_twoPow]
  cases b.getLsbD i <;> simp [hbit]

/-- The underflow flag is `status[7]` (`43_position.md` R181). -/
theorem underflowFlag_eq_getLsbD (status : Byte) : underflowFlag status = status.getLsbD 7 :=
  and_twoPow_bne_zero status (i := 7) (by decide)

/-- The overflow flag is `status[5]` (`43_position.md` R181). -/
theorem overflowFlag_eq_getLsbD (status : Byte) : overflowFlag status = status.getLsbD 5 :=
  and_twoPow_bne_zero status (i := 5) (by decide)

/-! ## The function -/

section
variable (prev : BitVec 64) (delta : BitVec 32) (status : Byte)

/-- The function of R180 as one sum, in which a flag that is not set contributes zero. -/
theorem posRecon_eq_sum :
    posRecon prev delta status =
      prev + delta.signExtend 64
        + (if status.getLsbD 5 then 0x0000000100000000#64 else 0#64)
        - (if status.getLsbD 7 then 0x0000000100000000#64 else 0#64) := by
  simp only [posRecon, overflowFlag_eq_getLsbD, underflowFlag_eq_getLsbD, wrapAdjust]
  split <;> split <;> simp only [BitVec.add_zero, BitVec.sub_zero]

/-- No bit of the status byte counts but the two flags (`43_position.md` R181). -/
theorem posRecon_and_flags : posRecon prev delta (status &&& 0xA0#8) = posRecon prev delta status := by
  simp [posRecon_eq_sum]

/-- Each addition wraps, and what it drops is a multiple of 2^64 (`43_position.md` R183, D11). -/
theorem posRecon_toInt :
    (posRecon prev delta status).toInt =
      (prev.toInt + delta.toInt + (if status.getLsbD 5 then 2 ^ 32 else 0)
        - (if status.getLsbD 7 then 2 ^ 32 else 0)).bmod (2 ^ 64) := by
  have hadjust (flag : Bool) :
      (if flag then 0x0000000100000000#64 else 0#64).toInt = if flag then 2 ^ 32 else 0 := by
    cases flag <;> rfl
  rw [posRecon_eq_sum, BitVec.toInt_sub, BitVec.toInt_add, BitVec.toInt_add,
    BitVec.toInt_signExtend_of_le (by decide), hadjust, hadjust, Int.bmod_add_bmod, Int.bmod_sub_bmod]

end

/-- Settles O18: the sum modulo 2^64, which in the signed range is the sum itself; the delta is read in
two's complement (`43_position.md` R182). -/
theorem posReconIntegerValue : Obligations.PosReconIntegerValue := by
  intro prev delta status sd sum
  have hsd : delta.toInt = sd := by
    rw [BitVec.toInt_eq_toNat_cond]
    exact if_congr (by omega) rfl rfl
  have hmod : (posRecon prev delta status).toInt = sum.bmod (2 ^ 64) := by
    rw [posRecon_toInt, hsd]
  refine ⟨fun ⟨hlow, hhigh⟩ => ?_, hmod⟩
  rw [hmod]
  exact Int.bmod_eq_of_le_mul_two (by omega) (by omega)

/-- Settles O19: the status byte may be replaced by its two flags, and both adjustments cancel. -/
theorem posReconFlagCases : Obligations.PosReconFlagCases := by
  intro prev delta status
  rw [← posRecon_and_flags prev delta status]
  refine ⟨fun h => ?_, fun h => ?_, fun h => ?_, fun h => ?_, rfl⟩ <;> rw [h]
  · rfl
  · rfl
  · rfl
  · exact BitVec.add_sub_cancel _ wrapAdjust

/-! ## The operation -/

theorem exec_posRecon {s : State} {prev : BitVec 64} {delta : BitVec 32} {status : Byte}
    (hidle : s.phase = .idle) :
    exec (.posRecon prev delta status) s =
      .next ((s.loseResults.giveVal (posRecon prev delta status)).endOperation .success) := by
  rw [exec, execPosRecon, State.accept_idle hidle]

/-- Settles O17: acceptance, and the function as a sum. -/
theorem posReconResult : Obligations.PosReconResult := by
  refine fun prev delta status => ⟨rfl, fun s hidle => ?_⟩
  rw [exec_posRecon hidle, posRecon_eq_sum]
  rfl

/-- Settles O20: acceptance, and the three sums by evaluation. -/
theorem posReconRequiredValues : Obligations.PosReconRequiredValues := by
  intro s hidle
  exact ⟨_, _, _, exec_posRecon hidle, rfl, exec_posRecon hidle, rfl, exec_posRecon hidle, rfl⟩

end Sys2Proof.Machine
end

section
/-! PROOFS. Construction and the link (`44_system.md` R195 to R198): what ENG_INIT does and when it is refused,
and which operations need the link it opens. -/

namespace Sys2Proof.Machine

/-! ## ENG_INIT -/

section
variable {s : State} {port baud timeout : OpaqueValue} {address : Byte} {retries : BitVec 8}

theorem State.initialise_of_handle (h : s.openAnswer = .handle) :
    s.initialise port baud timeout address retries =
      ((s.afterOpen port baud timeout).configure address retries timeout).endOperation .success := by
  simp only [State.initialise, h]

theorem State.initialise_of_fail (h : s.openAnswer = .fail) :
    s.initialise port baud timeout address retries =
      (s.afterOpen port baud timeout).endOperation .transportOpenFailure := by
  simp only [State.initialise, h]

/-- ENG_INIT is accepted with the link closed and at least one attempt allowed (`44_system.md` R195). -/
theorem exec_engInit (hidle : s.phase = .idle) (hlink : s.linkOpen = false) (hretries : retries ≠ 0#8) :
    exec (.engInit port baud timeout address retries) s =
      .next (s.loseResults.initialise port baud timeout address retries) := by
  simp [exec, execEngInit, State.accept_idle hidle, hlink, hretries]

/-- The link is looked at first, so nothing is asked of `retries` (log 11). -/
theorem exec_engInit_linkOpen (hidle : s.phase = .idle) (hlink : s.linkOpen = true) :
    exec (.engInit port baud timeout address retries) s = .refused .linkAlreadyOpen := by
  simp [exec, execEngInit, State.accept_idle hidle, hlink]

theorem exec_engInit_zeroRetries (hidle : s.phase = .idle) (hlink : s.linkOpen = false) :
    exec (.engInit port baud timeout address 0#8) s = .refused .zeroRetries := by
  simp [exec, execEngInit, State.accept_idle hidle, hlink]

end

/-- Settles O21: acceptance, and the state each answer of `StreamOpen` leaves, field by field. -/
theorem engInitResult : Obligations.EngInitResult := by
  refine fun port baud timeout address retries =>
    ⟨rfl, fun s hidle hlink hretries => ⟨fun hopen => ?_, fun hopen => ?_, rfl⟩⟩
  · rw [exec_engInit hidle hlink hretries, State.initialise_of_handle (s := s.loseResults) hopen]
    rfl
  · rw [exec_engInit hidle hlink hretries, State.initialise_of_fail (s := s.loseResults) hopen]
    rfl

/-- Settles O22: the check of the link, and behind it that of `retries`. -/
theorem engInitRefused : Obligations.EngInitRefused :=
  fun _ _ _ _ _ _ hidle => ⟨exec_engInit_linkOpen hidle, exec_engInit_zeroRetries hidle⟩

/-! ## The operations that need the link, and those that do not -/

theorem exec_txWrite_linkClosed {s : State} (a c : Byte) (vals : List (BitVec 32)) (hidle : s.phase = .idle)
    (hlink : s.linkOpen = false) : exec (.txWrite a c vals) s = .refused .linkNotOpen := by
  simp [exec, execTxWrite, State.accept_idle hidle, hlink]

theorem exec_txRead_linkClosed {s : State} (a c : Byte) (widths : List (BitVec 8)) (hidle : s.phase = .idle)
    (hlink : s.linkOpen = false) : exec (.txRead a c widths) s = .refused .linkNotOpen := by
  simp [exec, execTxRead, State.accept_idle hidle, hlink]

/-- A well formed FLD_DEC completes in `Idle` whether its width is legal or not (`42_deframer_read.md` R150,
R151). -/
theorem exec_fldDec_completes {s : State} {w : BitVec 8} {bs : List Byte} (hidle : s.phase = .idle)
    (hl : bs.length = w.toNat) :
    ∃ t : State, exec (.fldDec w bs) s = .next t ∧ t.phase = .idle ∧ t.linkOpen = s.linkOpen := by
  cases hw : legalWidth w with
  | none => exact ⟨_, exec_fldDec_illegal hidle hl hw, hidle, rfl⟩
  | some f => exact ⟨_, exec_fldDec hidle hl hw, hidle, rfl⟩

/-- Settles O23: both transactions look at the link, and none of the six other operations looks at it or
writes it; the codes leave out the transactions and ENG_INIT. -/
theorem onlyTransactionsNeedTheLink : Obligations.OnlyTransactionsNeedTheLink := by
  refine fun s hidle =>
    ⟨fun hlink => ⟨fun a c vals => exec_txWrite_linkClosed a c vals hidle hlink,
      fun a c widths => exec_txRead_linkClosed a c widths hidle hlink⟩, fun i hwf hop => ?_⟩
  cases i with
  | crcClear => exact ⟨_, exec_crcClear hidle, hidle, rfl⟩
  | crcUpdate b => exact ⟨_, exec_crcUpdate hidle, hidle, rfl⟩
  | crcGet => exact ⟨_, exec_crcGet hidle, hidle, rfl⟩
  | fldEnc v => exact ⟨_, exec_fldEnc hidle, hidle, rfl⟩
  | fldDec w bs => exact exec_fldDec_completes hidle (beq_iff_eq.1 hwf)
  | posRecon prev delta status => exact ⟨_, exec_posRecon hidle, hidle, rfl⟩
  | txWrite | txRead | engInit => simp [Instr.op] at hop

end Sys2Proof.Machine
end

section
/-! PROOFS. Conditions (`60_exceptions.md` R211, R217, R219): what one does to the state, and with which of
them a step ends an operation. -/

namespace Sys2Proof.Machine

/-! ## What a condition does -/

theorem State.endTransaction_timeout (s : State) :
    s.endTransaction .timeout =
      { s with resCode := some .timeout, resCount := some s.cfgRetries, resFld := some [], phase := .idle } := by
  simp [State.endTransaction]

/-- Outside `Timeout` and a read's `Success` only the code tells the conditions apart. -/
theorem State.endTransaction_plain {s : State} {c : Condition} (hto : c ≠ .timeout)
    (hread : ¬ (s.kind = .read ∧ c = .success)) :
    s.endTransaction c = { s with resCode := some c, resCount := none, resFld := some [], phase := .idle } := by
  rw [State.endTransaction, if_neg hto, if_neg hread]

/-- Settles O36: the retry count belongs to `Timeout` and the fields to a successful read. -/
theorem conditionEffect : Obligations.ConditionEffect := by
  refine fun s c => ⟨rfl, ?_, ?_, State.endTransaction_plain⟩
  · rintro rfl
    exact s.endTransaction_timeout
  · rintro hk rfl
    exact State.endTransaction_read_success hk

/-- Settles O35: another attempt, or one of the two ways to have none left. -/
theorem retryOrFailPhaseStep : Obligations.RetryOrFailPhaseStep := by
  refine fun s hp => ⟨fun hlt => (SeqStep.again hp hlt).step_eq, fun hlt ⟨hk, hf⟩ => ?_, fun hlt hk => ?_⟩
  · rw [(SeqStep.exhaustedMismatch hp hlt hk hf).step_eq, State.endTransaction_crcMismatch]
  · rw [(SeqStep.exhausted hp hlt hk).step_eq, State.endTransaction_timeout]

/-! ## Which conditions end an operation -/

theorem TxKind.bodyPhase_ne_idle (k : TxKind) : TxKind.bodyPhase k ≠ .idle := by
  cases k <;> simp [TxKind.bodyPhase]

/-- How a step can end a transaction: with `Success`, with `IoFailure`, with the `CrcMismatch` of a read that
policy Fail ends at once, or, with no attempt left and none counted by the step, with `CrcMismatch` or
`Timeout` (`60_exceptions.md` R219). -/
theorem SeqStep.ends_cases {s t : State} (h : SeqStep s t) (hidle : t.phase = .idle) :
    t.resCode = some .success ∨ t.resCode = some .ioFailure ∨
    (t.resCode = some .crcMismatch ∧ s.kind = .read ∧ s.params.mismatchPolicy = .fail) ∨
    (t.resCode = some .crcMismatch ∧ s.kind = .read ∧ ¬ s.attempt < s.cfgRetries ∧ t.attempt = s.attempt) ∨
    (t.resCode = some .timeout ∧ ¬ s.attempt < s.cfgRetries ∧ t.attempt = s.attempt) := by
  cases h with
  | ackOk | trailerMatch => exact .inl rfl
  | resetFail | headerFail | payloadFail | fieldFail | sendTrailerFail | ackFail | trailerFail =>
    exact .inr (.inl rfl)
  | mismatchEnds _ hk _ _ _ _ hq => exact .inr (.inr (.inl ⟨rfl, hk, hq⟩))
  | exhaustedMismatch _ hlt hk => exact .inr (.inr (.inr (.inl ⟨rfl, hk, hlt, rfl⟩)))
  | exhausted _ hlt => exact .inr (.inr (.inr (.inr ⟨rfl, hlt, rfl⟩)))
  | headerOk => exact absurd hidle (TxKind.bodyPhase_ne_idle _)
  | payloadOk hp | fieldOk hp => exact absurd (hp.symm.trans hidle) (by decide)
  | resetOk | payloadDone | fieldsDone | fieldTimeout | ackBad | ackTimeout | mismatchRetries
  | trailerTimeout | again => cases hidle

/-- An accepted operation that stays in `Idle` has one of the conditions of its row of R211. -/
theorem ExecStep.condition_mem {i : Instr} {s t : State} (h : ExecStep s i t) (hidle : t.phase = .idle) :
    ∃ cond ∈ conditionsOf i, t.resCode = some cond := by
  cases h with
  | txWrite | txRead => cases hidle
  | _ => exact ⟨_, by simp [conditionsOf], rfl⟩

/-- Inside a transaction a step of the machine is one of the sequencer. -/
theorem step_seqStep {s t : State} (hp : s.phase ≠ .idle) (h : step s = .next t) : SeqStep s t := by
  rw [step_busy hp] at h
  cases h
  exact State.sequence_spec hp

/-- Settles O49: by what the acceptance of an operation and the end of a transaction can do. -/
theorem conditionsPerOperation : Obligations.ConditionsPerOperation := by
  refine ⟨fun i s t h => (exec_spec h).2.condition_mem, fun s t hp h hidle hk => ?_, fun s t hp h hidle _ => ?_⟩
  · obtain hc | hc | ⟨-, hread, -⟩ | ⟨-, hread, -⟩ | ⟨hc, -⟩ := (step_seqStep hp h).ends_cases hidle
    · exact .inl hc
    · exact .inr (.inr hc)
    · simp [hk] at hread
    · simp [hk] at hread
    · exact .inr (.inl hc)
  · obtain hc | hc | ⟨hc, -⟩ | ⟨hc, -⟩ | ⟨hc, -⟩ := (step_seqStep hp h).ends_cases hidle
    · exact .inl hc
    · exact .inr (.inr (.inr hc))
    · exact .inr (.inr (.inl hc))
    · exact .inr (.inr (.inl hc))
    · exact .inr (.inl hc)

end Sys2Proof.Machine
end

section
/-! PROOFS. The rows of R220's table (`60_exceptions.md`), and that a failed stream call ends a transaction at
once (R212, R222). -/

namespace Sys2Proof.Machine

/-! ## Failed calls -/

/-- A step ends a transaction with `IoFailure` exactly when one of the calls of its phase fails. -/
theorem SeqStep.failed_iff {s t : State} (h : SeqStep s t) :
    s.calls.any StreamEvent.failed = true ↔ t.EndsWith .ioFailure := by
  cases h with
  | resetFail hp hc | resetOk hp hc => simp [State.calls, hp, hc, StreamEvent.failed, State.EndsWith]
  | headerFail hp n hw | headerOk hp hw =>
    simp [State.calls, hp, hw, StreamEvent.failed, State.EndsWith, TxKind.bodyPhase_ne_idle]
  | payloadDone hp hle | fieldsDone hp hle => simp [State.calls, hp, List.getElem?_eq_none hle, State.EndsWith]
  | payloadFail hp v hv n hw | payloadOk hp v hv hw =>
    simp [State.calls, hp, hv, hw, StreamEvent.failed, State.EndsWith]
  | fieldOk hp w hw bs hr | fieldTimeout hp w hw hr | fieldFail hp w hw hr =>
    simp [State.calls, hp, hw, hr, StreamEvent.failed, State.EndsWith]
  | sendTrailerFail hp hk n hw => simp [State.calls, hp, hk, hw, StreamEvent.failed, State.EndsWith]
  | ackOk hp hk hw hr | ackTimeout hp hk hw hr | ackFail hp hk hw hr =>
    simp [State.calls, hp, hk, hw, hr, StreamEvent.failed, State.EndsWith]
  | ackBad hp hk hw b hb hr => simp [State.calls, hp, hk, hw, hr, StreamEvent.failed, State.EndsWith]
  | trailerMatch hp hk bs hr | mismatchEnds hp hk bs hr | mismatchRetries hp hk bs hr
  | trailerTimeout hp hk hr | trailerFail hp hk hr =>
    simp [State.calls, hp, hk, hr, StreamEvent.failed, State.EndsWith]
  | again hp | exhaustedMismatch hp | exhausted hp => simp [State.calls, hp, State.EndsWith]

/-- A call that is not the last of its step has not failed: the one step with two calls reads the
acknowledgement only once the trailer is written (`41_framer_write.md` R130). -/
theorem State.calls_dropLast_not_failed (s : State) : ∀ e ∈ s.calls.dropLast, e.failed = false := by
  cases hp : s.phase with
  | idle | reset | sendHeader | retryOrFail => simp [State.calls, hp]
  | sendPayload => cases hv : s.opVals[s.fidx]? <;> simp [State.calls, hp, hv]
  | receiveFields => cases hw : s.opWidths[s.fidx]? <;> simp [State.calls, hp, hw]
  | trailerExchange =>
    cases hk : s.kind with
    | write => cases hw : s.writeAnswer <;> simp [State.calls, hp, hk, hw, StreamEvent.failed]
    | read => simp [State.calls, hp, hk]

/-- Settles O38: the events of a step are the calls of its phase. -/
theorem ioFailureAbortsAtOnce : Obligations.IoFailureAbortsAtOnce := by
  intro s t _ hp h
  have hseq := step_seqStep hp h
  exact ⟨s.calls, hseq.history_eq, hseq.failed_iff, s.calls_dropLast_not_failed⟩

/-! ## The table -/

/-- The last row: a failed call ends the transaction in any phase that makes calls. -/
theorem State.TransitionRow.of_ioFailure {s t : State} (h : SeqStep s t) (hp : s.phase ≠ .retryOrFail)
    (hend : t.EndsWith .ioFailure) : s.TransitionRow t := by
  simp [State.TransitionRow, h.phase_ne_idle, hp, h.failed_iff.2 hend, hend]

/-- Every outcome of a phase follows a row of the table. -/
theorem SeqStep.transitionRow {s t : State} (h : SeqStep s t) : s.TransitionRow t := by
  cases id h with
  | resetFail hp | headerFail hp | payloadFail hp | fieldFail hp | sendTrailerFail hp | ackFail hp
  | trailerFail hp => exact .of_ioFailure h (by simp [hp]) ⟨rfl, rfl⟩
  | resetOk hp hc => simp [State.TransitionRow, hp, hc]
  | headerOk hp hw => cases hk : s.kind <;> simp [State.TransitionRow, hp, hw, hk, TxKind.bodyPhase]
  | payloadDone hp hle | fieldsDone hp hle => simp [State.TransitionRow, hp, hle]
  | payloadOk hp v hv hw =>
    obtain ⟨hlt, -⟩ := List.getElem?_eq_some_iff.1 hv
    simp [State.TransitionRow, hp, hlt, hw]
  | fieldOk hp w hw bs hr =>
    obtain ⟨hlt, rfl⟩ := List.getElem?_eq_some_iff.1 hw
    simp [State.TransitionRow, hp, hlt, hr]
  | fieldTimeout hp w hw hr =>
    obtain ⟨hlt, rfl⟩ := List.getElem?_eq_some_iff.1 hw
    simp [State.TransitionRow, hp, hlt, hr]
  | ackOk hp hk hw hr => simp [State.TransitionRow, hp, hk, hw, hr, State.EndsWith]
  | ackBad hp hk hw b hb hr => simp [State.TransitionRow, hp, hk, hw, hr, hb, notAcknowledged]
  | ackTimeout hp hk hw hr => simp [State.TransitionRow, hp, hk, hw, hr, notAcknowledged]
  | trailerMatch hp hk bs hr hl hm => simp [State.TransitionRow, hp, hk, hr, hm, State.EndsWith]
  | mismatchEnds hp hk bs hr hl hm hq | mismatchRetries hp hk bs hr hl hm hq =>
    simp [State.TransitionRow, hp, hk, hr, hm, hq, State.EndsWith]
  | trailerTimeout hp hk hr => simp [State.TransitionRow, hp, hk, hr]
  | again hp hlt => simp [State.TransitionRow, hp, hlt]
  | exhaustedMismatch hp hlt hk hf =>
    simp [State.TransitionRow, hp, BitVec.not_lt.1 hlt, hk, hf, State.EndsWith]
  | exhausted hp hlt hk => simp [State.TransitionRow, hp, BitVec.not_lt.1 hlt, hk, State.EndsWith]

theorem legalWidths_eq_none_iff_ne {ws : List (BitVec 8)} :
    legalWidths ws = none ↔ ∃ w ∈ ws, ¬ (w = 1#8 ∨ w = 2#8 ∨ w = 4#8) := by
  simp [legalWidths_eq_none, ← BitVec.toNat_inj]

/-- Settles O37: the rows out of `Idle` by the acceptance of the operations, and the others by the outcomes
of the phases. -/
theorem sequencerTransitions : Obligations.SequencerTransitions := by
  refine ⟨fun a c vals s t h => ?_, fun a c widths s t h => ?_, fun i s t hwrite hread h => ?_,
    fun s hp => ⟨s.sequence, step_busy hp, (State.sequence_spec hp).transitionRow⟩⟩
  · obtain ⟨hp, -, -, rfl⟩ := execTxWrite_next h
    exact ⟨hp, rfl⟩
  · obtain ⟨hp, -, -, ⟨hw, rfl⟩ | ⟨ws, hw, rfl⟩⟩ := execTxRead_next h
    · exact ⟨hp, .inr ⟨legalWidths_eq_none_iff_ne.1 hw, rfl, rfl⟩⟩
    · refine ⟨hp, .inl ⟨fun w hmem => ?_, rfl⟩⟩
      by_contra hne
      simp [legalWidths_eq_none_iff_ne.2 ⟨w, hmem, hne⟩] at hw
  · obtain ⟨hp, hexec⟩ := exec_spec h
    refine ⟨hp, ?_⟩
    cases hexec with
    | txWrite => exact absurd rfl hwrite
    | txReadIllegal | txRead => exact absurd rfl hread
    | _ => exact hp

end Sys2Proof.Machine
end

section
/-! PROOFS. Every transaction ends (`60_exceptions.md` R220, `70_reset_and_hazards.md` R263): the steps and the
stream calls still to come are bounded by a measure that each step uses up. -/

namespace Sys2Proof.Machine

section
variable {s t : State}

/-! ## Counting attempts -/

/-- How many attempts may still be started. -/
def State.attemptsLeft (s : State) : Nat := s.cfgRetries.toNat - s.attempt.toNat

/-- A Reset step is due only where another attempt may start (`60_exceptions.md` R219). -/
theorem State.Legal.attempt_lt (hl : s.Legal) (hp : s.phase = .reset) :
    s.attempt.toNat < s.cfgRetries.toNat := by
  obtain ⟨-, hattempt, -⟩ := hl
  obtain ⟨-, -, hlt, -⟩ := hattempt (by simp [hp])
  exact hlt hp

/-- The Reset step counts an attempt (`41_framer_write.md` R126), and its number does not wrap. -/
theorem SeqStep.attempt_of_reset (h : SeqStep s t) (hl : s.Legal) (hp : s.phase = .reset) :
    t.attempt.toNat = s.attempt.toNat + 1 := by
  have hcount : t.attempt = s.attempt + 1#8 := by
    rw [← h.sequence_eq]
    simp only [State.sequence, hp]
    obtain ⟨-, e⟩ | ⟨-, e⟩ := s.resetAttempt_cases <;> rw [e] <;> rfl
  have hlt := hl.attempt_lt hp
  have hmax := s.cfgRetries.isLt
  rw [hcount]
  bv_omega

/-- No other phase counts one. -/
theorem SeqStep.attempt_of_ne_reset (h : SeqStep s t) (hp : s.phase ≠ .reset) : t.attempt = s.attempt := by
  cases h with
  | resetFail hreset | resetOk hreset => exact absurd hreset hp
  | _ => rfl

theorem SeqStep.attemptsLeft_of_reset (h : SeqStep s t) (hl : s.Legal) (hp : s.phase = .reset) :
    s.attemptsLeft = t.attemptsLeft + 1 := by
  have hlt := hl.attempt_lt hp
  rw [State.attemptsLeft, State.attemptsLeft, h.attempt_of_reset hl hp, h.sameConfig.retries]
  omega

theorem SeqStep.attemptsLeft_of_ne_reset (h : SeqStep s t) (hp : s.phase ≠ .reset) :
    t.attemptsLeft = s.attemptsLeft := by
  rw [State.attemptsLeft, State.attemptsLeft, h.attempt_of_ne_reset hp, h.sameConfig.retries]

/-! ## Counting fields -/

theorem State.fieldCount_write (hk : s.kind = .write) : s.fieldCount = s.opVals.length := by
  simp [State.fieldCount, hk]

theorem State.fieldCount_read (hk : s.kind = .read) : s.fieldCount = s.opWidths.length := by
  simp [State.fieldCount, hk]

theorem SeqStep.fieldCount_eq (h : SeqStep s t) : t.fieldCount = s.fieldCount := by
  simp only [State.fieldCount, h.sameRequest.kind, h.sameRequest.vals, h.sameRequest.widths]

/-- A field to send is one of those the transaction counts. -/
theorem State.Legal.fidx_lt_of_sendPayload (hl : s.Legal) (hp : s.phase = .sendPayload) {v : BitVec 32}
    (hv : s.opVals[s.fidx]? = some v) : s.fidx < s.fieldCount := by
  obtain ⟨-, -, ⟨-, hprogress, -⟩, -⟩ := hl
  obtain ⟨hlt, -⟩ := List.getElem?_eq_some_iff.1 hv
  rwa [State.fieldCount_write (hprogress hp).1]

theorem State.Legal.fidx_lt_of_receiveFields (hl : s.Legal) (hp : s.phase = .receiveFields) {w : FieldWidth}
    (hw : s.opWidths[s.fidx]? = some w) : s.fidx < s.fieldCount := by
  obtain ⟨-, -, ⟨-, -, hprogress, -⟩, -⟩ := hl
  obtain ⟨hlt, -⟩ := List.getElem?_eq_some_iff.1 hw
  rwa [State.fieldCount_read (hprogress hp).1]

/-! ## The measure -/

/-- What is left to do from one phase to `Idle` at the most. With `w = 0` these are stream calls: in each
attempt one for the Reset, one for the header, one for each field and two for the trailer. With `w = 1` they
are steps: the end of the list and the decision to retry make no call, and the two calls of the trailer are one
step (log 12). -/
def State.workIn (w : Nat) (s : State) : Phase → Nat
  | .idle => 0
  | .reset => s.attemptsLeft * (s.fieldCount + 4 + w)
  | .sendHeader => s.attemptsLeft * (s.fieldCount + 4 + w) + (s.fieldCount + 3 + w)
  | .sendPayload => s.attemptsLeft * (s.fieldCount + 4 + w) + (s.fieldCount - s.fidx + 2 + w)
  | .receiveFields => s.attemptsLeft * (s.fieldCount + 4 + w) + (s.fieldCount - s.fidx + 2 + w)
  | .trailerExchange => s.attemptsLeft * (s.fieldCount + 4 + w) + 2
  | .retryOrFail => s.attemptsLeft * (s.fieldCount + 4 + w) + w

/-- What is left to do to `Idle` at the most, counted likewise. -/
def State.workLeft (w : Nat) (s : State) : Nat := s.workIn w s.phase

theorem State.workIn_bodyPhase (w : Nat) (s : State) (k : TxKind) :
    s.workIn w (TxKind.bodyPhase k) =
      s.attemptsLeft * (s.fieldCount + 4 + w) + (s.fieldCount - s.fidx + 2 + w) := by
  cases k <;> rfl

theorem State.workLeft_le {w : Nat} (hw : w ≤ 1) (s : State) :
    s.workLeft w ≤ (s.attemptsLeft + 1) * (s.fieldCount + 4 + w) := by
  rw [State.workLeft, Nat.succ_mul]
  cases s.phase <;> simp only [State.workIn] <;> omega

/-! ## What a step uses up -/

/-- From `s` to `t` a step and the calls it makes have been used up. -/
structure State.UsesUp (s t : State) : Prop where
  step : t.workLeft 1 < s.workLeft 1
  calls : s.calls.length + t.workLeft 0 ≤ s.workLeft 0

theorem State.UsesUp.of_phases {p q : Phase} (hp : s.phase = p) (hq : t.phase = q)
    (hstep : t.workIn 1 q < s.workIn 1 p) (hcalls : s.calls.length + t.workIn 0 q ≤ s.workIn 0 p) :
    s.UsesUp t := by
  subst hp hq
  exact ⟨hstep, hcalls⟩

/-- Wherever a transaction stands there is work enough left to end it. -/
theorem State.Legal.usesUp_of_idle (hl : s.Legal) (hp : s.phase ≠ .idle) (ht : t.phase = .idle) :
    s.UsesUp t := by
  have hcalls := s.calls_length_le
  cases hs : s.phase with
  | idle => exact absurd hs hp
  | reset =>
    have hpos : 0 < s.attemptsLeft := Nat.sub_pos_of_lt (hl.attempt_lt hs)
    have hwork (w : Nat) := Nat.le_mul_of_pos_left (s.fieldCount + 4 + w) hpos
    have hstep := hwork 1
    have hcall := hwork 0
    refine .of_phases hs ht ?_ ?_ <;> simp only [State.workIn] <;> omega
  | retryOrFail => refine .of_phases hs ht ?_ ?_ <;> simp [State.workIn, State.calls, hs]
  | sendHeader | sendPayload | receiveFields | trailerExchange =>
    refine .of_phases hs ht ?_ ?_ <;> simp only [State.workIn] <;> omega

/-- An attempt fails in one of two phases, and leaves the decision to retry. -/
theorem SeqStep.usesUp_of_failed (h : SeqStep s t)
    (hp : s.phase = .receiveFields ∨ s.phase = .trailerExchange) (ht : t.phase = .retryOrFail) :
    s.UsesUp t := by
  have hcalls := s.calls_length_le
  have hleft := h.attemptsLeft_of_ne_reset (by rintro hr; simp [hr] at hp)
  obtain hp | hp := hp <;> refine .of_phases hp ht ?_ ?_ <;>
    simp only [State.workIn, hleft, h.fieldCount_eq] <;> omega

/-- Each step uses up work: it ends the transaction, fails the attempt, or goes on to the next stage. -/
theorem SeqStep.usesUp (h : SeqStep s t) (hl : s.Legal) : s.UsesUp t := by
  have hk := h.fieldCount_eq
  have hleft := h.attemptsLeft_of_ne_reset
  cases id h with
  | resetOk hp =>
    have hcounted := h.attemptsLeft_of_reset hl hp
    refine .of_phases (q := .sendHeader) hp rfl ?_ ?_
    · simp [State.workIn, hcounted, hk, Nat.succ_mul]
    · simp [State.workIn, State.calls, hp, hcounted, hk, Nat.succ_mul]
      omega
  | headerOk hp =>
    refine .of_phases (q := TxKind.bodyPhase s.kind) hp rfl ?_ ?_ <;> rw [State.workIn_bodyPhase]
    · simp [State.workIn, hp, hleft, hk]
    · simp [State.workIn, State.calls, hp, hleft, hk]
      omega
  | payloadDone hp hle | fieldsDone hp hle =>
    refine .of_phases hp rfl ?_ ?_ <;>
      simp [State.workIn, State.calls, hp, hleft, hk, List.getElem?_eq_none hle]
  | payloadOk hp v hv =>
    have hlt := hl.fidx_lt_of_sendPayload hp hv
    refine .of_phases hp hp ?_ ?_ <;> simp [State.workIn, State.calls, hp, hleft, hk, hv] <;> omega
  | fieldOk hp w hw =>
    have hlt := hl.fidx_lt_of_receiveFields hp hw
    refine .of_phases hp hp ?_ ?_ <;> simp [State.workIn, State.calls, hp, hleft, hk, hw] <;> omega
  | again hp => refine .of_phases hp rfl ?_ ?_ <;> simp [State.workIn, State.calls, hp, hleft, hk]
  | fieldTimeout hp => exact h.usesUp_of_failed (.inl hp) rfl
  | ackBad hp | ackTimeout hp | mismatchRetries hp | trailerTimeout hp =>
    exact h.usesUp_of_failed (.inr hp) rfl
  | resetFail | headerFail | payloadFail | fieldFail | sendTrailerFail | ackOk | ackFail | trailerMatch
  | mismatchEnds | trailerFail | exhaustedMismatch | exhausted =>
    exact hl.usesUp_of_idle h.phase_ne_idle rfl

/-! ## To the end -/

/-- By induction on the steps left: a legal state gets to `Idle` within the measure. -/
theorem State.Legal.terminates (hl : s.Legal) :
    ∃ n ≤ s.workLeft 1, (s.sequenceN n).phase = .idle ∧
      (s.sequenceN n).history.length ≤ s.history.length + s.workLeft 0 := by
  induction hwork : s.workLeft 1 using Nat.strong_induction_on generalizing s with
  | _ work ih =>
    by_cases hp : s.phase = .idle
    · exact ⟨0, Nat.zero_le _, hp, Nat.le_add_right _ _⟩
    have h := State.sequence_spec hp
    obtain ⟨hstep, hcalls⟩ := h.usesUp hl
    obtain ⟨n, hn, hidle, hhist⟩ := ih _ (hwork ▸ hstep) (h.keeps_legal hl) rfl
    rw [h.history_eq, List.length_append] at hhist
    exact ⟨n + 1, by omega, hidle, by rw [State.sequenceN]; omega⟩

end

/-- Settles O39: the measure is at most what is allowed for the attempts left and the current one. -/
theorem transactionTerminates : Obligations.TransactionTerminates := by
  intro s hl _
  obtain ⟨n, hsteps, hidle, hcalls⟩ := hl.terminates
  exact ⟨n, hsteps.trans (State.workLeft_le (by decide) s), hidle,
    hcalls.trans (Nat.add_le_add_left (State.workLeft_le (by decide) s) _)⟩

end Sys2Proof.Machine
end

section
/-! PROOFS. Attempts are counted (`60_exceptions.md` R219): `attempt` is the number of Reset steps in the history,
and a transaction gives up only once it has reached `cfg_retries`. -/

namespace Sys2Proof.Machine

section
variable {s t : State} {before : Nat}

theorem attemptsIn_append (xs ys : List StreamEvent) : attemptsIn (xs ++ ys) = attemptsIn xs + attemptsIn ys :=
  List.countP_append

/-- The Reset step calls `StreamClear` once (`20_memory.md` R45). -/
theorem State.attemptsIn_calls_of_reset (hp : s.phase = .reset) : attemptsIn s.calls = 1 := by
  simp [State.calls, hp, attemptsIn]

/-- No other phase calls it. -/
theorem State.attemptsIn_calls_of_ne_reset (hp : s.phase ≠ .reset) : attemptsIn s.calls = 0 := by
  cases hs : s.phase with
  | reset => exact absurd hs hp
  | idle | sendHeader | retryOrFail => simp [State.calls, hs, attemptsIn]
  | sendPayload => cases hv : s.opVals[s.fidx]? <;> simp [State.calls, hs, hv, attemptsIn]
  | receiveFields => cases hw : s.opWidths[s.fidx]? <;> simp [State.calls, hs, hw, attemptsIn]
  | trailerExchange =>
    cases hk : s.kind with
    | write => cases hw : s.writeAnswer <;> simp [State.calls, hs, hk, hw, attemptsIn]
    | read => simp [State.calls, hs, hk, attemptsIn]

/-- `t` has given up: it has ended with `Timeout`, or with `CrcMismatch` under policy Retry. -/
def State.GaveUp (t : State) : Prop :=
  t.phase = .idle ∧
    (t.resCode = some .timeout ∨ t.resCode = some .crcMismatch ∧ t.params.mismatchPolicy = .retry)

/-- The attempts of a transaction before which the history showed `before` of them. -/
structure State.Counted (before : Nat) (t : State) : Prop where
  attempts : attemptsIn t.history = before + t.attempt.toNat
  le : t.attempt.toNat ≤ t.cfgRetries.toNat
  gaveUp : t.GaveUp → t.attempt = t.cfgRetries

/-- Giving up is an outcome of phase `RetryOrFail` with no attempt left. -/
theorem SeqStep.not_attempt_lt_of_gaveUp (h : SeqStep s t) (hup : t.GaveUp) :
    ¬ s.attempt < s.cfgRetries ∧ t.attempt = s.attempt := by
  obtain ⟨hidle, hcode⟩ := hup
  rw [h.sameConfig.params] at hcode
  obtain hc | hc | ⟨hc, -, hq⟩ | ⟨-, -, hlt⟩ | ⟨-, hlt⟩ := h.ends_cases hidle
  · simp [hc] at hcode
  · simp [hc] at hcode
  · simp [hc, hq] at hcode
  · exact hlt
  · exact hlt

theorem SeqStep.keeps_counted (h : SeqStep s t) (hl : s.Legal) (hc : s.Counted before) : t.Counted before := by
  obtain ⟨hattempts, hle, -⟩ := hc
  have hretries := h.sameConfig.retries
  have hlog : attemptsIn t.history = before + s.attempt.toNat + attemptsIn s.calls := by
    rw [h.history_eq, attemptsIn_append, hattempts]
  have hup (hup : t.GaveUp) : t.attempt = t.cfgRetries := by
    obtain ⟨hlt, hsame⟩ := h.not_attempt_lt_of_gaveUp hup
    rw [hretries, hsame]
    bv_omega
  by_cases hp : s.phase = .reset
  · have hcount := h.attempt_of_reset hl hp
    have hlt := hl.attempt_lt hp
    rw [State.attemptsIn_calls_of_reset hp] at hlog
    exact ⟨by omega, by rw [hretries]; omega, hup⟩
  · have hsame := h.attempt_of_ne_reset hp
    rw [State.attemptsIn_calls_of_ne_reset hp] at hlog
    exact ⟨by rw [hlog, hsame, Nat.add_zero], by rw [hretries, hsame]; exact hle, hup⟩

theorem State.Reaches.legal (h : s.Reaches t) (hl : s.Legal) : t.Legal := by
  induction h with
  | refl => exact hl
  | tail _ hlast ih => exact hlast.keeps_legal ih

theorem State.Reaches.counted (h : s.Reaches t) (hl : s.Legal) (hc : s.Counted before) : t.Counted before := by
  induction h with
  | refl => exact hc
  | tail hreach hlast ih => exact hlast.keeps_counted (State.Reaches.legal hreach hl) ih

end

/-- Settles O44: no attempt has been counted at acceptance, and every step keeps the count. -/
theorem attemptsAreCounted : Obligations.AttemptsAreCounted := by
  intro s n hl hp hzero t
  have hreach : s.Reaches t := s.reaches_sequenceN n
  have hretries := hreach.sameConfig.retries
  obtain ⟨hattempts, hle, hup⟩ := hreach.counted (before := attemptsIn s.history) hl
    ⟨by simp [hzero], by simp [hzero], fun hup => by simp [State.GaveUp, hp] at hup⟩
  obtain ⟨-, -, -, -, ⟨-, hcount, -⟩, -⟩ := hreach.legal hl
  rw [hretries] at hle hup hcount
  refine ⟨hattempts, hle, fun hidle hc => ⟨hup ⟨hidle, .inl hc⟩, hcount hc⟩, fun hidle hc hq => ?_⟩
  exact hup ⟨hidle, .inr ⟨hc, hreach.sameConfig.params ▸ hq⟩⟩

end Sys2Proof.Machine
end
